-- ==== Sys2Proof/Word.lean ====
section
/-! DEFINITION. The unsigned word types of 00_scope.md rule R7. -/
namespace Sys2Proof

/-- `u8` of rule R7: one byte of a buffer. -/
abbrev Byte := BitVec 8

/-- `u32` of rule R7: the word the primitive, the key and the registers are made of. -/
abbrev Word := BitVec 32

/-- `u64` of rule R7: counters, header, data blocks and the tag. -/
abbrev DWord := BitVec 64

end Sys2Proof
end

