-- ==== Sys2Proof/Syntax.lean ====
section
/-! DEFINITION. The instruction set: the three commands of 30_encoding.md rule R50. -/
namespace Sys2Proof

/-- The commands of rule R50, one constructor per row of spec/opcode_table.json. Format C has no operand
fields: every operand is a register or buffer of the state. -/
inductive Instr where
  /-- INIT, 0x00000001: construction (rules R76 to R78). -/
  | init
  /-- ENCODE, 0x00000002: plaintext to frame (rules R90 to R99). -/
  | encode
  /-- DECODE, 0x00000003: frame to plaintext, or rejection (rules R100 to R112). -/
  | decode
deriving DecidableEq, Repr

end Sys2Proof
end

