-- ==== Sys2Proof/Decode.lean ====
section
/-! DEFINITION. Command words: the decoder and the encoder of format C (30_encoding.md rules R50, R51, R66). -/
namespace Sys2Proof

/-- Why a word is no command. Each of these is `E_OPCODE` to the host (rule R51). -/
inductive DecodeError where
  /-- A bit of 31:8 is set, whatever `op` is. -/
  | reservedBits
  /-- Bits 31:8 are clear and `op` is none of 0x01, 0x02, 0x03. -/
  | illegalOpcode
  /-- Fewer than the four bytes of a command word. -/
  | truncated
deriving DecidableEq, Repr

/-- Field `op`, bits 7:0 (rule R50). -/
def opField (w : Word) : Byte := w.extractLsb' 0 8

/-- Field `zero`, bits 31:8 (rule R50). -/
def zeroField (w : Word) : BitVec 24 := w.extractLsb' 8 24

/-- The decoder, total on words. Rule R66: three words are commands, every other word is illegal. -/
def decode (w : Word) : Except DecodeError Instr :=
  if zeroField w ≠ 0 then .error .reservedBits
  else if opField w = 0x01 then .ok .init
  else if opField w = 0x02 then .ok .encode
  else if opField w = 0x03 then .ok .decode
  else .error .illegalOpcode

/-- A command word from its four bytes, the lowest address first (20_memory.md rule R33: accesses of 4 bytes to the
registers are little-endian). -/
def wordOfBytes (b0 b1 b2 b3 : Byte) : Word :=
  b0.setWidth 32 ||| (b1.setWidth 32 <<< 8) ||| (b2.setWidth 32 <<< 16) ||| (b3.setWidth 32 <<< 24)

/-- The decoder on bytes: one command and the bytes after it. -/
def decodeBytes : List Byte → Except DecodeError (Instr × List Byte)
  | b0 :: b1 :: b2 :: b3 :: rest =>
    match decode (wordOfBytes b0 b1 b2 b3) with
    | .ok i => .ok (i, rest)
    | .error e => .error e
  | _ => .error .truncated

/-- The `op` value of a command (rule R50). -/
def opcode : Instr → Byte
  | .init => 0x01
  | .encode => 0x02
  | .decode => 0x03

/-- The encoder: the command's word in format C, `op` in bits 7:0 and bits 31:8 zero (rule R50). -/
def encode (i : Instr) : Word := (opcode i).setWidth 32

/-- The four bytes of a command's word, lowest address first. -/
def encodeBytes (i : Instr) : List Byte :=
  [(encode i).extractLsb' 0 8, (encode i).extractLsb' 8 8, (encode i).extractLsb' 16 8,
    (encode i).extractLsb' 24 8]

/-- The command word whose low `nbits` bits are those of `w` and whose other bits are 0, numbered as
spec/opcode_table.json numbers them. -/
def tableWord (nbits w : Nat) : Word := BitVec.ofNat 32 (w % 2 ^ nbits)

/-- What the decoder reads from a word of the opcode table, laid out in bytes as the bus carries it. -/
def decodeTableWord (nbits w : Nat) : Option Instr :=
  let x := tableWord nbits w
  match decodeBytes [x.extractLsb' 0 8, x.extractLsb' 8 8, x.extractLsb' 16 8, x.extractLsb' 24 8] with
  | .ok (i, _) => some i
  | .error _ => none

end Sys2Proof
end

