-- ==== Sys2Proof/Config.lean ====
section
/-! DEFINITION. The parameters of 00_scope.md rule R5 as plain data, and the free values of the model: functions with no
body, of which nothing can be proved but that they are functions. -/
namespace Sys2Proof

/-- The key `K[0..3]` of 10_state.md rule R12: four 32-bit words in the order the source lists them. -/
structure Key where
  k0 : Word
  k1 : Word
  k2 : Word
  k3 : Word
deriving DecidableEq, Repr

/-- The type of the primitive `H(x, y, K)` (41_primitive_h.md rule R80): a total pure function of the block and the
key. -/
abbrev BlockFn := Word → Word → Key → Word × Word

/-- Which function the parameter `H` is (rules R5, R80). Plain data that names a function, so that a state stays
comparable: `ref` is `H_ref` (rule R83), `ident` is `H_id` (rule R85), and `other n` is any further function. -/
inductive Primitive where
  | ref
  | ident
  | other (n : Nat)
deriving DecidableEq, Repr

/-- The parameter `PAIR_ORDER` (rules R5, R57). -/
inductive PairOrder where
  | hiLo
  | loHi
deriving DecidableEq, Repr

/-- The parameters a model takes as arguments (rule R5). No step changes them. -/
structure Config where
  /-- `H`. -/
  prim : Primitive
  /-- `PAIR_ORDER`. -/
  pairOrder : PairOrder
  /-- `BUFSZ`: the size in bytes of each buffer. -/
  bufsz : Nat
  /-- `BASE`: where the window sits in the host's address space. -/
  base : Nat
deriving DecidableEq, Repr

/-- The defaults of rule R5. -/
def Config.default : Config :=
  { prim := .ref, pairOrder := .hiLo, bufsz := 65536, base := 0 }

/-- Free value: the function that `Primitive.other n` names. Rule R5 leaves `H` open; nothing constrains this
one (log entry 8). -/
opaque Config.otherPrimitive : Nat → BlockFn

/-- Free value: the byte of `IBUF` at an offset the host has not written since reset number `epoch`. 10_state.md
rule R27: "each byte takes an arbitrary value at reset, which then stays until the host writes the byte" (log entry 9). -/
opaque Config.ibufDraw (epoch offset : Nat) : Byte

/-- Free value: the byte of `OBUF` at an offset no command has written since reset number `epoch`; rule R27 calls it
unspecified and unobservable (log entry 10). -/
opaque Config.obufDraw (epoch offset : Nat) : Byte

end Sys2Proof
end

