-- ==== Sys2Proof/Machine/HostSyntax.lean ====
section
/-! DEFINITION. What a host can say: bus accesses (20_memory.md rule R35), the register map's names (10_state.md rule R19) and
the lines of a host script (30_encoding.md rule R64). -/
namespace Sys2Proof.Machine

/-- The access widths of rule R35: `n in {1, 2, 4, 8}`. -/
inductive Width where
  | one
  | two
  | four
  | eight
deriving DecidableEq, Repr

/-- `n` of rule R35 as a number of bytes. -/
def Width.bytes : Width → Nat
  | .one => 1
  | .two => 2
  | .four => 4
  | .eight => 8

/-- One bus access: `HostRead(a, n)` or `HostWrite(a, n, v)` (rule R35). -/
inductive Access where
  | read (a : Nat) (n : Width)
  | write (a : Nat) (n : Width) (v : DWord)
deriving DecidableEq, Repr

/-- The registers of the map (rule R19). `key j` is `KEYj`. -/
inductive Reg where
  | cmd
  | status
  | ilen
  | olen
  | key (j : Fin 4)
  | seedl
  | seedh
deriving DecidableEq, Repr

/-- Where a `WR` or `RD` line points: a register by name, or a numeric offset from `BASE`
(95_test_vectors.md section 3 uses both). -/
inductive Target where
  | reg (r : Reg)
  | off (o : Nat)
deriving DecidableEq, Repr

/-- The count of an `RDB` line: a number, or the accumulator (rule R65 expands `GET` with `acc`). -/
inductive Count where
  | lit (j : Nat)
  | acc
deriving DecidableEq, Repr

/-- One line of a host script (rule R64). Labels are numbers. -/
inductive Line where
  /-- `WR reg, v`. -/
  | wr (t : Target) (v : Word)
  /-- `RD reg`. -/
  | rd (t : Target)
  /-- `WRB IBUF+k, b0 b1 ...`. -/
  | wrb (k : Nat) (bytes : List Byte)
  /-- `RDB OBUF+k, j`. -/
  | rdb (k : Nat) (j : Count)
  /-- `CMD name`. -/
  | cmd (i : Instr)
  /-- `JSET mask, label`. -/
  | jset (mask : Word) (label : Nat)
  /-- `JCLR mask, label`. -/
  | jclr (mask : Word) (label : Nat)
  /-- `label:`. -/
  | label (label : Nat)
  /-- `HALT`. -/
  | halt
  /-- Any one bus access of rule R35, also those the notation of rule R64 has no line for (log entry 2). -/
  | bus (a : Access)
deriving DecidableEq, Repr

/-- The bus's answer to a host access (rule R35): a value, an acknowledgement, or `BusError`; or that no access has
been made yet. -/
inductive BusReply where
  | noAccess
  | value (v : DWord)
  | ack
  | busError
deriving DecidableEq, Repr

/-- The three agents of 00_scope.md rule R6. -/
inductive Agent where
  | host
  | core
  | env
deriving DecidableEq, Repr

end Sys2Proof.Machine
end

