-- ==== Sys2Proof/Machine/State.lean ====
section
/-! DEFINITION. The whole state as plain data (10_state.md rules R10, R24, R27), the reasons a step can stop, and the state after
reset. -/
namespace Sys2Proof.Machine

/-- The phase register `PH` (rule R16). -/
inductive Phase where
  | unkeyed
  | busyInit
  | idle
  | busyEnc
  | busyDec
deriving DecidableEq, Repr

/-- A buffer: (offset, byte) pairs with strictly rising offsets. An offset that is not listed holds no value of the list's
own; what it reads as is `State.ibufByte` and `State.obufByte` (log entry 13). -/
abbrev Memory := List Host.Cell

/-- The abstract host of 30_encoding.md rule R64 and where it stands in its script. Not part of the DTC (log entry 2). -/
structure HostSide where
  /-- The script's lines. -/
  script : List Line
  /-- Index of the line that runs next. -/
  pc : Nat
  /-- How many accesses of that line have been made. -/
  sub : Nat
  /-- The accumulator `acc`. -/
  acc : Word
  /-- The byte list `got`. -/
  got : List Byte
  /-- The bus's answer to the last access. -/
  reply : BusReply
deriving DecidableEq, Repr

/-- The state. The fields from `key` to `bi` are the tuple of rule R10, in its order; `cfg` holds the parameters of
rule R26, `epoch` numbers the resets for the free values, `sched` says which agent moves next, `host` is the host. -/
structure State where
  /-- The parameters of rule R5; no step changes them (log entry 7). -/
  cfg : Config
  /-- `K[0..3]` (rule R12). -/
  key : Key
  /-- `CTR` (rule R11). -/
  ctr : DWord
  /-- `SEED` (rule R13). -/
  seed : DWord
  /-- `ILEN` (rule R14). -/
  ilen : Word
  /-- `OLEN` (rule R15). -/
  olen : Word
  /-- `PH` (rule R16). -/
  ph : Phase
  /-- `DONE` (rule R17). -/
  done : Bool
  /-- `REJ` (rule R17). -/
  rej : Bool
  /-- `ERR` (rule R17). -/
  err : Bool
  /-- `ECODE` (rule R17). -/
  ecode : BitVec 4
  /-- `IBUF` (20_memory.md rule R31). -/
  ibuf : Memory
  /-- `OBUF` (20_memory.md rule R32). -/
  obuf : Memory
  /-- `WC`, the working counter (rule R24). -/
  wc : DWord
  /-- `AX`, first word of the running tag accumulator (rule R24). -/
  ax : Word
  /-- `AY`, second word of the running tag accumulator (rule R24). -/
  ay : Word
  /-- `WREM`, the length remainder (rule R24). -/
  wrem : BitVec 3
  /-- `BI`, the index of the next block (rule R24: an integer). -/
  bi : Nat
  /-- How many resets the environment has made: the model's own, read only by the free values (log entry 12). -/
  epoch : Nat
  /-- Which agents move next, first one first: the model's own; empty means the default order (log entry 1). -/
  sched : List Agent
  /-- The host (log entry 2). -/
  host : HostSide
deriving DecidableEq, Repr

/-- Why the machine stops. -/
inductive Fault where
  /-- A core-side access beyond `BUFSZ`. Raised by ENCODE's completion when `FL(ILEN) > BUFSZ` and by DECODE's when
  `ILEN > BUFSZ` and the length check passes. Rule R72 refuses both at issue, so no state with the invariant
  of rule R28 reaches it (20_memory.md rule R44). Safe: the machine stops where the spec has no behaviour. -/
  | coreOutOfBuffer
deriving DecidableEq, Repr

/-- Why a step has no meaning. -/
inductive Refusal where
  /-- An instruction without a meaning; raised by no arm of `exec`. Safe. -/
  | notModelled (mnemonic : String)
  /-- A host access outside the window `BASE .. BASE + 0x3FFFF`; raised by the bus. It goes to another device, and
  no rule applies (20_memory.md rule R35 row 1; U19: "A model of the DTC alone should `refuse` it"). Safe. -/
  | outsideWindow (a : Nat)
  /-- A jump of a host script to a label that no line of the script carries; raised by the host's line. Such a
  text is no script of 30_encoding.md rule R64 (log entry 18). Safe. -/
  | noSuchLabel (label : Nat)
deriving DecidableEq, Repr

/-- A host with no script, before its first access (log entry 2). -/
def HostSide.start : HostSide :=
  { script := [], pc := 0, sub := 0, acc := 0, got := [], reply := .noAccess }

/-- The machine right after reset (rule R27), with the default parameters of rule R5. The working registers are
unspecified there; 0 is the model's choice (log entry 11). -/
def State.reset : State :=
  { cfg := Config.default
    key := { k0 := 0, k1 := 0, k2 := 0, k3 := 0 }
    ctr := 0
    seed := 0
    ilen := 0
    olen := 0
    ph := .unkeyed
    done := false
    rej := false
    err := false
    ecode := 0
    ibuf := []
    obuf := []
    wc := 0
    ax := 0
    ay := 0
    wrem := 0
    bi := 0
    epoch := 0
    sched := []
    host := HostSide.start }

end Sys2Proof.Machine
end

