-- ==== Sys2Proof/Machine/Flags.lean ====
section
/-! DEFINITION. The phase predicates, the `STATUS` view, and what each outcome does to the result flags (10_state.md rules R16 to
R18). -/
namespace Sys2Proof.Machine

/-- `busy` of rule R16. -/
def Phase.busy : Phase → Bool
  | .unkeyed => false
  | .busyInit => true
  | .idle => false
  | .busyEnc => true
  | .busyDec => true

/-- `keyed` of rule R16. -/
def Phase.keyed : Phase → Bool
  | .unkeyed => false
  | .busyInit => false
  | .idle => true
  | .busyEnc => true
  | .busyDec => true

/-- The command that is pending in a phase (rule R25 item 3), if one is. -/
def Phase.pending : Phase → Option Instr
  | .unkeyed => none
  | .busyInit => some .init
  | .idle => none
  | .busyEnc => some .encode
  | .busyDec => some .decode

/-- The phase in which a command is pending (40_command_issue_and_init.md rule R71). -/
def busyPhase : Instr → Phase
  | .init => .busyInit
  | .encode => .busyEnc
  | .decode => .busyDec

/-- The phase a command is issued from (rule R72, `E_STATE`): UNKEYED for INIT, IDLE for the others. -/
def issuePhase : Instr → Phase
  | .init => .unkeyed
  | .encode => .idle
  | .decode => .idle

/-- The phase with its pending command taken out: the one the command was issued from. -/
def Phase.settled : Phase → Phase
  | .unkeyed => .unkeyed
  | .busyInit => .unkeyed
  | .idle => .idle
  | .busyEnc => .idle
  | .busyDec => .idle

/-- A flag as a word: 1 or 0 in bit 0. -/
def flagBit (b : Bool) : Word := if b then 1 else 0

/-- `STATUS` (rule R18): `KEYED` in bit 0, `BUSY` 1, `DONE` 2, `REJ` 3, `ERR` 4, `ECODE` in bits 11:8; bits 7:5 and
31:12 are 0. -/
def State.status (s : State) : Word :=
  flagBit s.ph.keyed ||| (flagBit s.ph.busy <<< 1) ||| (flagBit s.done <<< 2) ||| (flagBit s.rej <<< 3) |||
    (flagBit s.err <<< 4) ||| (s.ecode.setWidth 32 <<< 8)

/-- What every issue attempt does first: `DONE`, `REJ`, `ERR`, `ECODE` cleared (rule R71; R126: this is the only
"return" from an outcome there is). -/
def State.clearFlags (s : State) : State :=
  { s with done := false, rej := false, err := false, ecode := 0 }

/-- The end of every completion (rule R75): `PH <- IDLE; DONE <- 1`. -/
def State.finish (s : State) : State :=
  { s with ph := .idle, done := true }

end Sys2Proof.Machine
end

