-- ==== Sys2Proof/Machine/Memory.lean ====
section
/-! DEFINITION. The operations on a buffer held as a list of cells, and its canonical form. -/
namespace Sys2Proof.Machine

/-- The byte a buffer lists at an offset, if it lists one. -/
def Memory.get? : Memory → Nat → Option Byte
  | [], _ => none
  | (k, b) :: m, a => if a = k then some b else Memory.get? m a

/-- Write one byte, keeping the offsets strictly rising. -/
def Memory.set : Memory → Nat → Byte → Memory
  | [], a, v => [(a, v)]
  | (k, b) :: m, a, v =>
    if a < k then (a, v) :: (k, b) :: m
    else if a = k then (a, v) :: m
    else (k, b) :: Memory.set m a v

/-- Write bytes at rising offsets, the first at `a`. -/
def Memory.store : Memory → Nat → List Byte → Memory
  | m, _, [] => m
  | m, a, v :: vs => Memory.store (Memory.set m a v) (a + 1) vs

/-- The canonical form: offsets strictly rising. (An unlisted offset has no value of its own, so no entry can equal what
an unlisted offset holds; log entry 13.) -/
abbrev Memory.wf (m : Memory) : Prop := (m.map Prod.fst).Pairwise (· < ·)

end Sys2Proof.Machine
end

