-- ==== Sys2Proof/Machine/Operands.lean ====
section
/-! DEFINITION. Byte order, lengths, the header, and how 64-bit fields map to word pairs: 00_scope.md rule R7, 20_memory.md rule R33,
30_encoding.md rules R54 to R61. -/
namespace Sys2Proof.Machine

/-- The little-endian value of a byte string of at most 8 bytes (rules R7, R39): byte `k` has weight `2^(8k)`. -/
def leValue : List Byte → DWord
  | [] => 0
  | b :: bs => (leValue bs <<< 8) ||| b.setWidth 64

/-- The low `n` bytes of a value, lowest first (`LEbytes64` of rule R7 for `n = 8`; rule R39: byte `k` of `v` is
`v[8k+7:8k]`). -/
def leBytes : Nat → DWord → List Byte
  | 0, _ => []
  | n + 1, v => v.setWidth 8 :: leBytes n (v >>> 8)

/-- `ceil8(m)` of rule R7: the number of blocks. -/
def ceil8 (m : Nat) : Nat := (m + 7) / 8

/-- `FL(m)`, the frame length (rule R58), on unbounded integers (rule R72). -/
def frameLength (m : Nat) : Nat := 16 + 8 * ceil8 m

/-- The number of blocks of a frame of `L` bytes (rule R59). -/
def blockCount (L : Nat) : Nat := (L - 16) / 8

/-- `PL(L, rem)`, the plaintext length (rule R59). -/
def plainLength (L : Nat) (rem : BitVec 3) : Nat :=
  if rem = 0 then 8 * blockCount L else 8 * (blockCount L - 1) + rem.toNat

/-- `m mod 8` as the 3-bit field of the header (rule R54). -/
def lengthRem (m : Word) : BitVec 3 := m.setWidth 3

/-- The counter with its top 3 bits cleared (42_encode.md rule R91). -/
def maskCounter (c : DWord) : DWord := c &&& 0x1FFFFFFFFFFFFFFF

/-- Header packing `(c << 3) or (m mod 8)` (rule R54). -/
def packHeader (c : DWord) (rem : BitVec 3) : DWord := (c <<< 3) ||| rem.setWidth 64

/-- Header unpacking, the counter: `hdr >> 3` (rule R55). -/
def headerCounter (hdr : DWord) : DWord := hdr >>> 3

/-- Header unpacking, the remainder: `hdr and 7` (rule R55). -/
def headerRem (hdr : DWord) : BitVec 3 := hdr.setWidth 3

/-- `v[63:32]`. -/
def highWord (v : DWord) : Word := v.extractLsb' 32 32

/-- `v[31:0]`. -/
def lowWord (v : DWord) : Word := v.extractLsb' 0 32

/-- `x ‖ y` (rule R7): `x` in bits 63:32, `y` in bits 31:0. -/
def concatWords (x y : Word) : DWord := (x.setWidth 64 <<< 32) ||| y.setWidth 64

/-- `halves(c)`: high half first, whatever `PAIR_ORDER` is (rule R56). -/
def halves (c : DWord) : Word × Word := (highWord c, lowWord c)

/-- `pair(v)` (rule R57). -/
def pair : PairOrder → DWord → Word × Word
  | .hiLo, v => (highWord v, lowWord v)
  | .loHi, v => (lowWord v, highWord v)

/-- `join(x, y)` (rule R57). -/
def join : PairOrder → Word × Word → DWord
  | .hiLo, p => concatWords p.1 p.2
  | .loHi, p => concatWords p.2 p.1

/-- Word-wise exclusive-or of two pairs (41_primitive_h.md rule R86). -/
def xorPair (p q : Word × Word) : Word × Word := (p.1 ^^^ q.1, p.2 ^^^ q.2)

/-- Chunk `i` of a plaintext of `m` bytes has `min(8, m - 8i)` bytes (42_encode.md rule R92). -/
def chunkLength (m i : Nat) : Nat := min 8 (m - 8 * i)

/-- A chunk extended to 8 bytes with zeros at the higher offsets (rule R60). -/
def padChunk (bytes : List Byte) : List Byte := bytes ++ List.replicate (8 - bytes.length) 0

end Sys2Proof.Machine
end

