-- ==== Sys2Proof/Machine/Primitive.lean ====
section
/-! DEFINITION. The primitive h: `H_ref`, its inverse, `H_id`, and the function a configuration names (41_primitive_h.md rules R80 to
R85). -/
namespace Sys2Proof.Machine

/-- `rotl32(v, r)` (00_scope.md rule R7), used with `r` 5 and 13 only. -/
def rotl32 (v : Word) (r : Nat) : Word := (v <<< r) ||| (v >>> (32 - r))

/-- Mixing function 1 of rule R83, added to `x`: rotation amount R1 = 5, subkeys k0 and k1. -/
def mixX (k : Key) (y : Word) : Word := (rotl32 y 5 + k.k0) ^^^ k.k1

/-- Mixing function 2 of rule R83, added to `y`: rotation amount R2 = 13, subkeys k2 and k3. -/
def mixY (k : Key) (x : Word) : Word := (rotl32 x 13 + k.k2) ^^^ k.k3

/-- Advance the subkeys by the constants D0 to D3 (rule R83). -/
def advanceSubkeys (k : Key) : Key :=
  { k0 := k.k0 + 0x9E3779B9, k1 := k.k1 + 0x7F4A7C15, k2 := k.k2 + 0xBF58476D, k3 := k.k3 + 0x94D049BB }

/-- One advance taken back (rule R84). -/
def retreatSubkeys (k : Key) : Key :=
  { k0 := k.k0 - 0x9E3779B9, k1 := k.k1 - 0x7F4A7C15, k2 := k.k2 - 0xBF58476D, k3 := k.k3 - 0x94D049BB }

/-- The subkeys after `n` advances of the key words: `K[j] + (n * Dj mod 2^32)` (rules R83, R84). -/
def subkeysAfter (n : Nat) (k : Key) : Key :=
  { k0 := k.k0 + BitVec.ofNat 32 n * 0x9E3779B9
    k1 := k.k1 + BitVec.ofNat 32 n * 0x7F4A7C15
    k2 := k.k2 + BitVec.ofNat 32 n * 0xBF58476D
    k3 := k.k3 + BitVec.ofNat 32 n * 0x94D049BB }

/-- `x` after one round (rule R83, first line). -/
def roundX (k : Key) (x y : Word) : Word := x + mixX k y

/-- `y` after one round: it uses the `x` the first line just wrote (rule R83, second line). -/
def roundY (k : Key) (x y : Word) : Word := y + mixY k (roundX k x y)

/-- `n` rounds of `H_ref` from subkeys `k` (rule R83). -/
def refRounds : Nat → Key → Word → Word → Word × Word
  | 0, _, x, y => (x, y)
  | n + 1, k, x, y => refRounds n (advanceSubkeys k) (roundX k x y) (roundY k x y)

/-- `H_ref` (rule R83): 32 rounds, the subkeys starting as the key words. -/
def hRef : BlockFn := fun x y k => refRounds 32 k x y

/-- `y` before a round, from the words after it (rule R84). -/
def unroundY (k : Key) (x y : Word) : Word := y - mixY k x

/-- `x` before a round, from the words after it (rule R84). -/
def unroundX (k : Key) (x y : Word) : Word := x - mixX k (unroundY k x y)

/-- `n` rounds backwards from the subkeys `k` that stand after them (rule R84). -/
def refUnrounds : Nat → Key → Word → Word → Word × Word
  | 0, _, x, y => (x, y)
  | n + 1, k, x, y =>
    refUnrounds n (retreatSubkeys k) (unroundX (retreatSubkeys k) x y) (unroundY (retreatSubkeys k) x y)

/-- `H_ref_inv` (rule R84). -/
def hRefInv : BlockFn := fun x y k => refUnrounds 32 (subkeysAfter 32 k) x y

/-- `H_id` (rule R85). -/
def hId : BlockFn := fun x y _ => (x, y)

/-- The function `H` that a configuration names (rules R5, R80). -/
def applyPrimitive : Primitive → BlockFn
  | .ref => hRef
  | .ident => hId
  | .other n => Config.otherPrimitive n

end Sys2Proof.Machine
end

