-- ==== Sys2Proof/WellFormed.lean ====
section
/-! DEFINITION. The checks on what is written down: command words, parameters, bus accesses and host scripts. -/
namespace Sys2Proof

/-- Format C (30_encoding.md rule R50) has no operand fields, so every command is well-formed. -/
def Instr.wf : Instr → Bool
  | .init => true
  | .encode => true
  | .decode => true

/-- A word that is a command: bits 31:8 zero and `op` one of the three opcodes (rules R50, R51). -/
def commandWordWf (w : Word) : Bool :=
  zeroField w == 0 && (opField w == 0x01 || opField w == 0x02 || opField w == 0x03)

/-- The ranges of 00_scope.md rule R5: `BUFSZ` a multiple of 8 with 24 <= BUFSZ <= 65536, `BASE` a multiple of
0x40000. -/
def Config.wf (c : Config) : Bool :=
  c.bufsz % 8 == 0 && decide (24 ≤ c.bufsz) && decide (c.bufsz ≤ 65536) && c.base % 0x40000 == 0

namespace Machine

/-- 20_memory.md rule R35: `0 <= v < 2^(8n)` for a write. -/
def Access.wf : Access → Bool
  | .read _ _ => true
  | .write _ n v => decide (v.toNat < 2 ^ (8 * n.bytes))

/-- A line is well-formed in a script: a jump's label is a line of the script, an access is well-formed. -/
def Line.wf (script : List Line) : Line → Bool
  | .jset _ l => script.contains (.label l)
  | .jclr _ l => script.contains (.label l)
  | .bus a => a.wf
  | _ => true

/-- A host script of rule R64: every line is well-formed, and it has a `HALT` (rule R156: "A host script's run is
over when the script reaches `HALT`"). -/
def scriptWf (script : List Line) : Bool :=
  script.all (Line.wf script) && script.contains .halt

end Machine

end Sys2Proof
end

