-- ==== Sys2Proof/Machine/Ops.lean ====
section
/-! DEFINITION. The named operations over registers and buffers, the three exceptional outcomes (60_exceptions.md rules R120 to
R122), the issue of a command, and the reset event. -/
namespace Sys2Proof.Machine

/-! ### Buffers -/

/-- What `IBUF` holds at an offset: the byte the host last wrote there, else the free value drawn at reset (10_state.md
rule R27; log entry 9). -/
def State.ibufByte (s : State) (a : Nat) : Byte :=
  (s.ibuf.get? a).getD (Config.ibufDraw s.epoch a)

/-- What `OBUF` holds at an offset: the byte a command last wrote there, else a free value (rule R27; log entry 10). -/
def State.obufByte (s : State) (a : Nat) : Byte :=
  (s.obuf.get? a).getD (Config.obufDraw s.epoch a)

/-- What a host read shows of `OBUF` at an offset: the byte if it is below `OLEN`, else 0x00 (20_memory.md rule R41). -/
def State.gatedByte (s : State) (a : Nat) : Byte :=
  if a < s.olen.toNat then s.obufByte a else 0

/-- `MemRead(IBUF, off, n)` (rule R44). -/
def State.memRead (s : State) (off n : Nat) : List Byte :=
  (List.range n).map (fun k => s.ibufByte (off + k))

/-- `LE64(MemRead(IBUF, off, 8))`. -/
def State.memReadDWord (s : State) (off : Nat) : DWord :=
  leValue (s.memRead off 8)

/-- `MemWrite(OBUF, off, n, bytes)` (rule R44). -/
def State.memWrite (s : State) (off : Nat) (bytes : List Byte) : State :=
  { s with obuf := s.obuf.store off bytes }

/-- `MemWrite(OBUF, off, 8, LEbytes64(v))`. -/
def State.memWriteDWord (s : State) (off : Nat) (v : DWord) : State :=
  s.memWrite off (leBytes 8 v)

/-! ### Registers -/

/-- The register map (10_state.md rule R19): the register at an offset, if one is there. -/
def Reg.ofOffset (o : Nat) : Option Reg :=
  if o = 0x00 then some .cmd
  else if o = 0x04 then some .status
  else if o = 0x08 then some .ilen
  else if o = 0x0C then some .olen
  else if o = 0x10 then some (.key 0)
  else if o = 0x14 then some (.key 1)
  else if o = 0x18 then some (.key 2)
  else if o = 0x1C then some (.key 3)
  else if o = 0x20 then some .seedl
  else if o = 0x24 then some .seedh
  else none

/-- The offset of a register from `BASE` (rule R19). -/
def Reg.offset : Reg → Nat
  | .cmd => 0x00
  | .status => 0x04
  | .ilen => 0x08
  | .olen => 0x0C
  | .key j => 0x10 + 4 * j.val
  | .seedl => 0x20
  | .seedh => 0x24

/-- `K[j] <- v`. -/
def setKeyWord (k : Key) (j : Fin 4) (v : Word) : Key :=
  if j = 0 then { k with k0 := v }
  else if j = 1 then { k with k1 := v }
  else if j = 2 then { k with k2 := v }
  else { k with k3 := v }

/-- `SEED[31:0] <- v` (rule R22). -/
def setSeedLow (seed : DWord) (v : Word) : DWord := concatWords (highWord seed) v

/-- `SEED[63:32] <- v` (rule R22). -/
def setSeedHigh (seed : DWord) (v : Word) : DWord := concatWords v (lowWord seed)

/-- The bus's answer to the access in hand. -/
def State.answer (s : State) (r : BusReply) : State :=
  { s with host := { s.host with reply := r } }

/-! ### Exceptional outcomes: what each saves and changes (rule R125) -/

/-- `raise BusError` (rule R122): the host is told; nothing in the DTC changes. -/
def State.raiseBusError (s : State) : State := s.answer .busError

/-- The refusal codes of rule R121. -/
def eOpcode : BitVec 4 := 1
/-- `E_STATE` (rule R121). -/
def eState : BitVec 4 := 2
/-- `E_LEN` (rule R121). -/
def eLen : BitVec 4 := 3

/-- `raise CmdError(code)` (rules R71, R121): `ERR <- 1; ECODE <- code`, after the flags were cleared. -/
def State.raiseCmdError (s : State) (code : BitVec 4) : State :=
  { s.clearFlags with err := true, ecode := code }

/-- `raise Reject` (43_decode.md rule R108): `OLEN <- 0; REJ <- 1; PH <- IDLE; DONE <- 1`. -/
def State.raiseReject (s : State) : State :=
  { s with olen := 0, rej := true }.finish

/-! ### Issue of a command (40_command_issue_and_init.md rules R71, R72) -/

/-- The length condition of `IssueCheck`, row 3 of rule R72: true where `E_LEN` applies. -/
def lengthRefused (s : State) : Instr → Bool
  | .init => false
  | .encode => decide (s.cfg.bufsz < frameLength s.ilen.toNat)
  | .decode => decide (s.cfg.bufsz < s.ilen.toNat)

/-- Rows 2 and 3 of `IssueCheck` for a legal command word; `none` is "accepted". -/
def issueCheckInstr (s : State) (i : Instr) : Option (BitVec 4) :=
  if s.ph ≠ issuePhase i then some eState
  else if lengthRefused s i then some eLen
  else none

/-- `IssueCheck(w)` (rule R72), all rows in order. -/
def issueCheck (s : State) (w : Word) : Option (BitVec 4) :=
  match decode w with
  | .error _ => some eOpcode
  | .ok i => issueCheckInstr s i

/-- One issue attempt of a legal command word while `not busy` (rule R71): the flags are cleared, then the command is refused
with a code, or its busy phase is entered. -/
def issue (i : Instr) (s : State) : State :=
  match issueCheckInstr s i with
  | some code => s.raiseCmdError code
  | none => { s.clearFlags with ph := busyPhase i }

/-- The atomic step a command takes next (rule R70): its completion in its own busy phase; else its issue attempt
while not busy; else, another command pending, the `CMD` write is a bus error (20_memory.md rule R42). Every
meaning of `exec` is this operation with the command's own completion (log entry 3). -/
def advanceCommand (i : Instr) (complete : State → Host.Outcome State Fault Refusal) (s : State) :
    Host.Outcome State Fault Refusal :=
  if s.ph = busyPhase i then complete s
  else if s.ph.busy then .next s.raiseBusError
  else .next (issue i s)

/-- The per-block loop of a completion (rule R70): `n` times the same block step. -/
def repeatBlocks (f : State → State) : Nat → State → State
  | 0, s => s
  | n + 1, s => repeatBlocks f n (f s)

/-! ### Reset (70_reset_and_hazards.md rule R140) -/

/-- The reset event: every element of the DTC at its value of rule R27, both buffers redrawn; a pending command is
discarded whole (rule R141). The parameters, the host and the schedule are not the DTC's (log entry 19). -/
def State.envReset (s : State) : State :=
  { State.reset with cfg := s.cfg, epoch := s.epoch + 1, sched := s.sched, host := s.host }

end Sys2Proof.Machine
end

