-- ==== Sys2Proof/Machine/Encode.lean ====
section
/-! DEFINITION. ENCODE, the encryption pipeline (42_encode.md rules R90 to R99). Each pipeline step is a definition, in the source's
order; `h` is the primitive `H`. -/
namespace Sys2Proof.Machine

/-- The number of blocks of the plaintext, `n = ceil8(m)` (rule R90). -/
def encBlocks (s : State) : Nat := ceil8 s.ilen.toNat

/-- `EncStart` (rule R91): mask the counter, emit the header, seed the tag. -/
def encStart (s : State) : State :=
  { s.memWriteDWord 0 (packHeader (maskCounter s.ctr) (lengthRem s.ilen)) with
    wc := maskCounter s.ctr
    wrem := lengthRem s.ilen
    ax := (halves (maskCounter s.ctr)).1
    ay := (halves (maskCounter s.ctr)).2
    bi := 0 }

/-- Chunk fetch of `EncBlock(BI)` (rule R92): the chunk's value, zero-padded. -/
def encChunk (s : State) : DWord :=
  leValue (padChunk (s.memRead (8 * s.bi) (chunkLength s.ilen.toNat s.bi)))

/-- The keystream pair `(kx, ky) = H(halves(WC), K)` (rules R86, R93, R104). -/
def keystream (h : BlockFn) (s : State) : Word × Word :=
  h (halves s.wc).1 (halves s.wc).2 s.key

/-- The fold `(AX, AY) <- H(AX xor ex, AY xor ey, K)` of a ciphertext block (rules R86, R93, R104). -/
def foldTag (h : BlockFn) (s : State) (e : Word × Word) : Word × Word :=
  h (s.ax ^^^ e.1) (s.ay ^^^ e.2) s.key

/-- The ciphertext pair `(ex, ey) = (kx xor px, ky xor py)` (rule R93). -/
def encCipher (h : BlockFn) (s : State) : Word × Word :=
  xorPair (keystream h s) (pair s.cfg.pairOrder (encChunk s))

/-- `EncBlock(BI)` (rules R92, R93): encrypt, fold the ciphertext, append it, `WC <- WC + 1`, `BI <- BI + 1`. -/
def encBlock (h : BlockFn) (s : State) : State :=
  { s.memWriteDWord (8 + 8 * s.bi) (join s.cfg.pairOrder (encCipher h s)) with
    ax := (foldTag h s (encCipher h s)).1
    ay := (foldTag h s (encCipher h s)).2
    wc := s.wc + 1
    bi := s.bi + 1 }

/-- `EncTag` (rule R94): append the accumulator as the trailing tag. -/
def encTag (s : State) : State :=
  s.memWriteDWord (8 + 8 * encBlocks s) (join s.cfg.pairOrder (s.ax, s.ay))

/-- `EncFinish` (rule R95): the output length, the advanced counter, the flags. -/
def encFinish (s : State) : State :=
  { s with olen := BitVec.ofNat 32 (16 + 8 * encBlocks s), ctr := s.wc }.finish

/-- ENCODE's completion (rule R90). -/
def encodeComplete (h : BlockFn) (s : State) : State :=
  encFinish (encTag (repeatBlocks (encBlock h) (encBlocks s) (encStart s)))

/-- ENCODE: issue (rules R71, R98), completion (rule R90) with the configured `H`. -/
def execEncode (s : State) : Host.Outcome State Fault Refusal :=
  advanceCommand .encode
    (fun s =>
      if frameLength s.ilen.toNat ≤ s.cfg.bufsz then .next (encodeComplete (applyPrimitive s.cfg.prim) s)
      else .fault .coreOutOfBuffer) s

end Sys2Proof.Machine
end

