-- ==== Sys2Proof/Machine/DecodePipeline.lean ====
section
/-! DEFINITION. DECODE, the decryption and verification pipeline (43_decode.md rules R100 to R112). -/
namespace Sys2Proof.Machine

/-- `DecCheck`, the length validation (rule R101). -/
def decCheck (s : State) : Bool :=
  decide (24 ≤ s.ilen.toNat) && s.ilen.toNat % 8 == 0

/-- The number of blocks of the frame, `n = (L - 16) div 8` (rule R103). -/
def decBlocks (s : State) : Nat := blockCount s.ilen.toNat

/-- `DecHeader` (rule R102): unpack the header. -/
def decHeader (s : State) : State :=
  { s with wc := headerCounter (s.memReadDWord 0), wrem := headerRem (s.memReadDWord 0) }

/-- `DecStart` (rule R103): the accumulator from the counter's halves. -/
def decStart (s : State) : State :=
  { s with ax := (halves s.wc).1, ay := (halves s.wc).2, bi := 0 }

/-- The ciphertext pair of block `BI` (rule R104). -/
def decCipher (s : State) : Word × Word :=
  pair s.cfg.pairOrder (s.memReadDWord (8 + 8 * s.bi))

/-- `DecBlock(BI)` (rules R104, R105): fold, decrypt, write the block, `WC <- WC + 1`, `BI <- BI + 1`. -/
def decBlock (h : BlockFn) (s : State) : State :=
  { s.memWriteDWord (8 * s.bi) (join s.cfg.pairOrder (xorPair (keystream h s) (decCipher s))) with
    ax := (foldTag h s (decCipher s)).1
    ay := (foldTag h s (decCipher s)).2
    wc := s.wc + 1
    bi := s.bi + 1 }

/-- The state after all blocks, before the tag comparison (rule R100). -/
def decRun (h : BlockFn) (s : State) : State :=
  repeatBlocks (decBlock h) (decBlocks s) (decStart (decHeader s))

/-- `DecTagCompare` (rule R106): the recomputed accumulator equals the frame's last 8 bytes. -/
def decTagCompare (s : State) : Bool :=
  join s.cfg.pairOrder (s.ax, s.ay) == s.memReadDWord (s.ilen.toNat - 8)

/-- `DecAccept` (rule R107): `OLEN <- m; REJ <- 0; PH <- IDLE; DONE <- 1`. -/
def decAccept (s : State) : State :=
  { s with olen := BitVec.ofNat 32 (plainLength s.ilen.toNat s.wrem), rej := false }.finish

/-- DECODE's completion (rule R100). -/
def decodeComplete (h : BlockFn) (s : State) : State :=
  if decCheck s then
    if decTagCompare (decRun h s) then decAccept (decRun h s) else (decRun h s).raiseReject
  else s.raiseReject

/-- DECODE: issue (rules R71, R112), completion (rule R100) with the configured `H`. A frame that fails the length
check is rejected without a buffer access (rule R101). -/
def execDecode (s : State) : Host.Outcome State Fault Refusal :=
  advanceCommand .decode
    (fun s =>
      if decCheck s = false ∨ s.ilen.toNat ≤ s.cfg.bufsz then
        .next (decodeComplete (applyPrimitive s.cfg.prim) s)
      else .fault .coreOutOfBuffer) s

end Sys2Proof.Machine
end

