-- ==== Sys2Proof/Machine/Init.lean ====
section
/-! DEFINITION. INIT, the construction (40_command_issue_and_init.md rules R76 to R78). -/
namespace Sys2Proof.Machine

/-- INIT's completion (rule R77): `CTR <- SEED` with all 64 bits, `OLEN <- 0`, `REJ <- 0`, `PH <- IDLE`, `DONE <- 1`. -/
def initComplete (s : State) : State :=
  { s with ctr := s.seed, olen := 0, rej := false }.finish

/-- INIT: issue (rules R71, R76), completion (rule R77). -/
def execInit (s : State) : Host.Outcome State Fault Refusal :=
  advanceCommand .init (fun s => .next (initComplete s)) s

end Sys2Proof.Machine
end

