-- ==== Sys2Proof/Machine/Bus.lean ====
section
/-! DEFINITION. The bus: how the DTC answers one host access (20_memory.md rules R35 to R43). -/
namespace Sys2Proof.Machine

/-- The seven rows of rule R35. -/
inductive Region where
  /-- Row 1: not a DTC access. -/
  | outside
  /-- Rows 2, 3 and 7: BusError (busy, misaligned, unmapped). -/
  | error
  /-- Row 4: the register block, with the offset from `BASE`. -/
  | register (o : Nat)
  /-- Row 5: the `IBUF` window, with the buffer offset `b`. -/
  | input (b : Nat)
  /-- Row 6: the `OBUF` window, with the buffer offset `b`. -/
  | output (b : Nat)
deriving DecidableEq, Repr

/-- Rows 3 to 7 of rule R35: the region of `n` bytes at offset `o` of the window, when no command is pending. -/
def regionAt (c : Config) (o : Nat) (n : Width) : Region :=
  if o % n.bytes ≠ 0 then .error
  else if o < 0x10000 then .register o
  else if 0x10000 ≤ o ∧ o < 0x10000 + c.bufsz then .input (o - 0x10000)
  else if 0x20000 ≤ o ∧ o < 0x20000 + c.bufsz then .output (o - 0x20000)
  else .error

/-- The one access that is served while busy (row 2 of rule R35): `HostRead(BASE + 0x04, 4)`. -/
def isStatusRead (isRead : Bool) (o : Nat) (n : Width) : Bool := isRead && o == 0x04 && n == .four

/-- The classification of rule R35, first matching row, for an access of `n` bytes at address `a`. -/
def classify (s : State) (isRead : Bool) (a : Nat) (n : Width) : Region :=
  if a < s.cfg.base ∨ 0x40000 < a - s.cfg.base + n.bytes then .outside
  else if s.ph.busy && !isStatusRead isRead (a - s.cfg.base) n then .error
  else regionAt s.cfg (a - s.cfg.base) n

/-- A 4-byte read of the register at an offset (rule R37, column "Read"). -/
def readReg (s : State) (o : Nat) : BusReply :=
  match Reg.ofOffset o with
  | some .status => .value (s.status.setWidth 64)
  | some .ilen => .value (s.ilen.setWidth 64)
  | some .olen => .value (s.olen.setWidth 64)
  | some .cmd => .busError
  | some (.key _) => .busError
  | some .seedl => .busError
  | some .seedh => .busError
  | none => .busError

/-- A command issue attempt with a word (rule R71): an illegal word is refused with `E_OPCODE`, a legal one is the
command's own step. -/
def issueWord (w : Word) (s : State) : Host.Outcome State Fault Refusal :=
  match decode w with
  | .error _ => .next (s.raiseCmdError eOpcode)
  | .ok i => exec i s

/-- A 4-byte write of `v` to the register at an offset (rule R37, column "Write"). -/
def writeReg (s : State) (o : Nat) (v : Word) : Host.Outcome State Fault Refusal :=
  match Reg.ofOffset o with
  | some .cmd => issueWord v (s.answer .ack)
  | some .ilen => .next { s.answer .ack with ilen := v }
  | some (.key j) =>
    if s.ph = .unkeyed then .next { s.answer .ack with key := setKeyWord s.key j v }
    else .next s.raiseBusError
  | some .seedl =>
    if s.ph = .unkeyed then .next { s.answer .ack with seed := setSeedLow s.seed v }
    else .next s.raiseBusError
  | some .seedh =>
    if s.ph = .unkeyed then .next { s.answer .ack with seed := setSeedHigh s.seed v }
    else .next s.raiseBusError
  | some .status => .next s.raiseBusError
  | some .olen => .next s.raiseBusError
  | none => .next s.raiseBusError

/-- The little-endian value of `n` bytes from offset `b` on, each given by `byte` (rules R39 to R41). -/
def readBytes (byte : Nat → Byte) (b n : Nat) : DWord :=
  leValue ((List.range n).map (fun k => byte (b + k)))

/-- The answer to `HostRead(a, n)` in a region (rules R37 to R41). A read changes no state of the DTC (rule R43). -/
def readReply (s : State) (n : Width) : Region → BusReply
  | .outside => .busError
  | .error => .busError
  | .register o => if n = .four then readReg s o else .busError
  | .input b => .value (readBytes s.ibufByte b n.bytes)
  | .output b => .value (readBytes s.gatedByte b n.bytes)

/-- `HostRead(a, n)` (rule R35). -/
def busRead (a : Nat) (n : Width) (s : State) : Host.Outcome State Fault Refusal :=
  if classify s true a n = .outside then .refused (.outsideWindow a)
  else .next (s.answer (readReply s n (classify s true a n)))

/-- `HostWrite(a, n, v)` (rule R35). -/
def busWrite (a : Nat) (n : Width) (v : DWord) (s : State) : Host.Outcome State Fault Refusal :=
  match classify s false a n with
  | .outside => .refused (.outsideWindow a)
  | .error => .next s.raiseBusError
  | .register o => if n = .four then writeReg s o (v.setWidth 32) else .next s.raiseBusError
  | .input b => .next { s.answer .ack with ibuf := s.ibuf.store b (leBytes n.bytes v) }
  | .output _ => .next s.raiseBusError

/-- One bus access. -/
def busAccess : Access → State → Host.Outcome State Fault Refusal
  | .read a n, s => busRead a n s
  | .write a n v, s => busWrite a n v s

end Sys2Proof.Machine
end

