-- ==== Sys2Proof/Machine/HostAgent.lean ====
section
/-! DEFINITION. The abstract host of 30_encoding.md rule R64: what one turn of it does, and the pseudo-instructions of rule R65. -/
namespace Sys2Proof.Machine

/-- The host address of a `WR` or `RD` operand (rule R64): `BASE` plus the offset. -/
def targetAddress (c : Config) : Target → Nat
  | .reg r => c.base + r.offset
  | .off o => c.base + o

/-- `IBUF+k` as a host address (rule R64). -/
def ibufAddress (c : Config) (k : Nat) : Nat := c.base + 0x10000 + k

/-- `OBUF+k` as a host address (rule R64). -/
def obufAddress (c : Config) (k : Nat) : Nat := c.base + 0x20000 + k

/-- The number of accesses an `RDB` line makes. -/
def countValue (h : HostSide) : Count → Nat
  | .lit j => j
  | .acc => h.acc.toNat

/-- The next bus access of a line, `sub` of them already made (rule R64); `none` when the line makes no access. -/
def lineAccess (c : Config) (h : HostSide) : Line → Option Access
  | .wr t v => some (.write (targetAddress c t) .four (v.setWidth 64))
  | .rd t => some (.read (targetAddress c t) .four)
  | .wrb k bytes => (bytes[h.sub]?).map (fun b => .write (ibufAddress c (k + h.sub)) .one (b.setWidth 64))
  | .rdb k j =>
    if h.sub < countValue h j then some (.read (obufAddress c (k + h.sub)) .one) else none
  | .cmd i => some (.write (targetAddress c (.reg .cmd)) .four ((encode i).setWidth 64))
  | .bus a => some a
  | .jset _ _ => none
  | .jclr _ _ => none
  | .label _ => none
  | .halt => none

/-- The number of accesses a line makes in all. -/
def lineCount (h : HostSide) : Line → Nat
  | .wr _ _ => 1
  | .rd _ => 1
  | .wrb _ bytes => bytes.length
  | .rdb _ j => countValue h j
  | .cmd _ => 1
  | .bus _ => 1
  | .jset _ _ => 0
  | .jclr _ _ => 0
  | .label _ => 0
  | .halt => 0

/-- Go on to the next line. -/
def HostSide.nextLine (h : HostSide) : HostSide :=
  { h with pc := h.pc + 1, sub := 0 }

/-- An `RDB` line starts with an empty `got` (rule R64: `got <-` the bytes). -/
def HostSide.startLine (h : HostSide) : Line → HostSide
  | .rdb _ _ => if h.sub = 0 then { h with got := [] } else h
  | _ => h

/-- Where the host stands once it has made the access in hand of a line. -/
def HostSide.progress (h : HostSide) (l : Line) : HostSide :=
  if h.sub + 1 < lineCount h l then { h.startLine l with sub := h.sub + 1 }
  else (h.startLine l).nextLine

/-- What a read's answer does to the host (rule R64): `RD` loads `acc`, `RDB` appends to `got`; a `BusError` does
nothing (log entry 17). -/
def HostSide.capture (h : HostSide) (l : Line) : HostSide :=
  match l, h.reply with
  | .rd _, .value v => { h with acc := v.setWidth 32 }
  | .rdb _ _, .value v => { h with got := h.got ++ [v.setWidth 8] }
  | _, _ => h

/-- The index of the first line that carries a label. -/
def findLabel (label : Nat) : List Line → Option Nat
  | [] => none
  | l :: ls => if l = .label label then some 0 else (findLabel label ls).map (· + 1)

/-- A jump to a label, when it is taken. -/
def jumpIf (taken : Bool) (label : Nat) (s : State) : Host.Outcome State Fault Refusal :=
  if taken then
    match findLabel label s.host.script with
    | some i => .next { s with host := { s.host with pc := i, sub := 0 } }
    | none => .refused (.noSuchLabel label)
  else .next { s with host := s.host.nextLine }

/-- A line that makes no bus access: the host alone changes (rule R64). -/
def silentLine (l : Line) (s : State) : Host.Outcome State Fault Refusal :=
  match l with
  | .jset mask label => jumpIf (s.host.acc &&& mask != 0) label s
  | .jclr mask label => jumpIf (s.host.acc &&& mask == 0) label s
  | .halt => .next s
  | l => .next { s with host := (s.host.startLine l).nextLine }

/-- Apply a function to the next state of an outcome. -/
def onNext (f : State → State) : Host.Outcome State Fault Refusal → Host.Outcome State Fault Refusal
  | .next s => .next (f s)
  | .fault r => .fault r
  | .refused r => .refused r

/-- The bus access the host's current line makes next, if it makes one. -/
def nextAccess (s : State) : Option Access :=
  match s.host.script[s.host.pc]? with
  | some l => lineAccess s.cfg s.host l
  | none => none

/-- The state with the host past the access in hand of a line. -/
def State.hostProgress (s : State) (l : Line) : State :=
  { s with host := s.host.progress l }

/-- The state with the answer to a read taken in by the host. -/
def captureReply (l : Line) (s : State) : State :=
  { s with host := s.host.capture l }

/-- One step of the host (00_scope.md rule R6): one bus access, or one line without an access; nothing when the script
has ended. -/
def hostTurn (s : State) : Host.Outcome State Fault Refusal :=
  match s.host.script[s.host.pc]? with
  | none => .next s
  | some l =>
    match lineAccess s.cfg s.host l with
    | none => silentLine l s
    | some (.write a n v) => busWrite a n v (s.hostProgress l)
    | some (.read a n) => onNext (captureReply l) (busRead a n (s.hostProgress l))

/-- The script has ended: it stands at `HALT` or past its last line (rules R64, R156). -/
def HostSide.ended (h : HostSide) : Bool :=
  match h.script[h.pc]? with
  | none => true
  | some l => l == .halt

/-! ### Pseudo-instructions (rule R65). A `WAIT` needs a label of its own, given as a number. -/

/-- `WAIT`. -/
def pseudoWait (label : Nat) : List Line :=
  [.label label, .rd (.reg .status), .jset 0x2 label]

/-- `LOADKEY`. -/
def pseudoLoadKey (k : Key) : List Line :=
  [.wr (.reg (.key 0)) k.k0, .wr (.reg (.key 1)) k.k1, .wr (.reg (.key 2)) k.k2, .wr (.reg (.key 3)) k.k3]

/-- `LOADSEED`. -/
def pseudoLoadSeed (seed : DWord) : List Line :=
  [.wr (.reg .seedl) (lowWord seed), .wr (.reg .seedh) (highWord seed)]

/-- `CONSTRUCT`. -/
def pseudoConstruct (label : Nat) (k : Key) (seed : DWord) : List Line :=
  pseudoLoadKey k ++ pseudoLoadSeed seed ++ [.cmd .init] ++ pseudoWait label

/-- `PUT`. -/
def pseudoPut (bytes : List Byte) : List Line :=
  [.wrb 0 bytes, .wr (.reg .ilen) (BitVec.ofNat 32 bytes.length)]

/-- `GET`. -/
def pseudoGet : List Line := [.rd (.reg .olen), .rdb 0 .acc]

/-- `ENCODE_FRAME`. -/
def pseudoEncodeFrame (label : Nat) (bytes : List Byte) : List Line :=
  pseudoPut bytes ++ [.cmd .encode] ++ pseudoWait label ++ pseudoGet

/-- `DECODE_FRAME`. -/
def pseudoDecodeFrame (label : Nat) (bytes : List Byte) : List Line :=
  pseudoPut bytes ++ [.cmd .decode] ++ pseudoWait label ++ pseudoGet

end Sys2Proof.Machine
end

