-- ==== Sys2Proof/Machine/Turn.lean ====
section
/-! DEFINITION. Which agent moves, and what its move is (00_scope.md rule R6). -/
namespace Sys2Proof.Machine

/-- The core's step (40_command_issue_and_init.md rule R75): the completion of the pending command; nothing while not
busy. -/
def coreTurn (s : State) : Host.Outcome State Fault Refusal :=
  match s.ph.pending with
  | some i => exec i s
  | none => .next s

/-- The agent that moves next: the first of the schedule; when that is empty, the core if a command is pending (weak
fairness, rule R6), else the host (log entry 1). -/
def State.nextAgent (s : State) : Agent :=
  match s.sched with
  | a :: _ => a
  | [] => if s.ph.busy then .core else .host

/-- The state with the first entry of the schedule used up. -/
def State.popSched (s : State) : State :=
  { s with sched := s.sched.tail }

/-- The move of one agent. -/
def agentMove : Agent → State → Host.Outcome State Fault Refusal
  | .host, s => hostTurn s
  | .core, s => coreTurn s
  | .env, s => .next s.envReset

/-- One step of the machine: the next agent's move. -/
def takeTurn (s : State) : Host.Outcome State Fault Refusal :=
  agentMove s.nextAgent s.popSched

/-- The state whose next step is the host's issue attempt with a command word: a one-line script, no schedule, no
command pending (log entry 4). -/
def placeWord (s : State) (w : Word) : State :=
  { s with
    ph := s.ph.settled
    sched := []
    host := { s.host with script := [.wr (.reg .cmd) w], pc := 0, sub := 0 } }

end Sys2Proof.Machine
end

