-- ==== Sys2Proof/Machine/Step.lean ====
section
/-! DEFINITION. The step, and where it finds its next command word. -/
namespace Sys2Proof.Machine

/-- One atomic step of the total order of 20_memory.md rule R47. -/
def step (s : State) : Host.Outcome State Fault Refusal :=
  takeTurn s

/-- `s` with a command word placed where the next step takes it from: the write port `CMD`. -/
def State.withFetchWord (s : State) (nbits w : Nat) : State :=
  placeWord s (tableWord nbits w)

end Sys2Proof.Machine
end

