-- ==== Sys2Proof/Machine/Reference.lean ====
section
/-! DEFINITION. The cipher as functions on byte strings: the source's Encode and Decode as the reference evaluator of
95_test_vectors.md section 4 writes them, for any primitive and either `PAIR_ORDER`. Claims compare the machine's pipelines with
these; no step calls them. -/
namespace Sys2Proof.Machine

/-- The values of the first `n` 8-byte chunks of a byte string, the last one zero-padded (30_encoding.md rule R60). -/
def chunkValues : Nat → List Byte → List DWord
  | 0, _ => []
  | n + 1, bytes => leValue (padChunk (bytes.take 8)) :: chunkValues n (bytes.drop 8)

/-- The keystream pair of a counter value (41_primitive_h.md rule R86). -/
def refKeystream (h : BlockFn) (k : Key) (c : DWord) : Word × Word := h (halves c).1 (halves c).2 k

/-- The fold of one ciphertext pair into the tag accumulator (rule R86). -/
def refFold (h : BlockFn) (k : Key) (a e : Word × Word) : Word × Word := h (a.1 ^^^ e.1) (a.2 ^^^ e.2) k

/-- The ciphertext blocks of plaintext blocks, from counter `c` on. -/
def refCiphertext (h : BlockFn) (o : PairOrder) (k : Key) : DWord → List DWord → List DWord
  | _, [] => []
  | c, p :: ps => join o (xorPair (refKeystream h k c) (pair o p)) :: refCiphertext h o k (c + 1) ps

/-- The tag accumulator after folding ciphertext blocks. -/
def refTag (h : BlockFn) (o : PairOrder) (k : Key) : Word × Word → List DWord → Word × Word
  | a, [] => a
  | a, e :: es => refTag h o k (refFold h k a (pair o e)) es

/-- The source's Encode: the frame of plaintext `bytes` under counter `ctr` (rule R53 for the layout). -/
def refEncode (h : BlockFn) (o : PairOrder) (k : Key) (ctr : DWord) (bytes : List Byte) : List Byte :=
  let c := maskCounter ctr
  let es := refCiphertext h o k c (chunkValues (ceil8 bytes.length) bytes)
  leBytes 8 (packHeader c (BitVec.ofNat 3 bytes.length)) ++ es.flatMap (leBytes 8) ++
    leBytes 8 (join o (refTag h o k (halves c) es))

/-- The source's Decode: the plaintext of a frame, or "no result". -/
def refDecode (h : BlockFn) (o : PairOrder) (k : Key) (frame : List Byte) : Option (List Byte) :=
  if frame.length < 24 ∨ frame.length % 8 ≠ 0 then none
  else
    let hdr := leValue (frame.take 8)
    let es := chunkValues (blockCount frame.length) (frame.drop 8)
    if join o (refTag h o k (halves (headerCounter hdr)) es) = leValue (frame.drop (frame.length - 8)) then
      some (((refCiphertext h o k (headerCounter hdr) es).flatMap (leBytes 8)).take
        (plainLength frame.length (headerRem hdr)))
    else none

end Sys2Proof.Machine
end

