-- ==== Sys2Proof/Safety.lean ====
section
/-! DEFINITION. The terms claims use: the invariants of 10_state.md rule R28, what a host can tell apart, launch premises and ends of
runs (70_reset_and_hazards.md rules R156, R158), and blocks counted along a run. -/
namespace Sys2Proof.Machine

/-! ### Comparing states -/

/-- Two states whose DTC is the same: they differ at most in the host and in the schedule. -/
def State.SameDtc (s t : State) : Prop :=
  { s with sched := t.sched, host := t.host } = t

/-- Two states a host cannot tell apart by what rule R29 keeps secret: they agree on everything but `K`, `CTR`, `SEED`, the
working registers, and the bytes of `OBUF` that are not exposed (rule R25). -/
def State.PublicEq (s t : State) : Prop :=
  s.cfg = t.cfg ∧ s.ilen = t.ilen ∧ s.olen = t.olen ∧ s.ph = t.ph ∧ s.done = t.done ∧ s.rej = t.rej ∧
    s.err = t.err ∧ s.ecode = t.ecode ∧ s.ibuf = t.ibuf ∧ s.epoch = t.epoch ∧ s.sched = t.sched ∧
    s.host = t.host ∧ ∀ a, s.gatedByte a = t.gatedByte a

/-- Two outcomes that are equal up to a relation on the next states. -/
def OutcomeRel (r : State → State → Prop) :
    Host.Outcome State Fault Refusal → Host.Outcome State Fault Refusal → Prop
  | .next s, .next t => r s t
  | .fault a, .fault b => a = b
  | .refused a, .refused b => a = b
  | _, _ => False

/-! ### Invariants -/

/-- Items 1 to 5 of rule R28. -/
structure State.Rule28 (s : State) : Prop where
  /-- Item 1. -/
  busyFlags : s.ph.busy = true → s.done = false ∧ s.rej = false ∧ s.err = false ∧ s.ecode = 0
  /-- Item 2. -/
  rejected : s.rej = true → s.done = true ∧ s.olen = 0 ∧ s.ph = .idle
  /-- Item 3, first half. -/
  refusedCode : s.err = true → s.done = false ∧ (s.ecode = 1 ∨ s.ecode = 2 ∨ s.ecode = 3)
  /-- Item 3, second half. -/
  noCode : s.err = false → s.ecode = 0
  /-- Item 4. -/
  unkeyed : s.ph = .unkeyed → s.ctr = 0 ∧ s.olen = 0 ∧ s.done = false
  /-- Item 5, the bound. -/
  olenBound : s.olen.toNat ≤ s.cfg.bufsz
  /-- Item 5, the shape: 0, or a frame length, or a plaintext length. -/
  olenShape : s.olen = 0 ∨ (s.olen.toNat % 8 = 0 ∧ 16 ≤ s.olen.toNat) ∨
    (1 ≤ s.olen.toNat ∧ s.olen.toNat + 16 ≤ s.cfg.bufsz)

/-- What rule R72 checked at issue still holds of the pending command (20_memory.md rule R49). -/
structure State.Admitted (s : State) : Prop where
  encode : s.ph = .busyEnc → frameLength s.ilen.toNat ≤ s.cfg.bufsz
  decode : s.ph = .busyDec → s.ilen.toNat ≤ s.cfg.bufsz

/-- Every byte `OLEN` exposes has been written by a command (rule R27: "every command writes each byte it later
exposes"). -/
def State.ExposedWritten (s : State) : Prop :=
  ∀ a, a < s.olen.toNat → (s.obuf.get? a).isSome = true

/-- Both buffers are in canonical form. -/
def State.MemoryWf (s : State) : Prop := s.ibuf.wf ∧ s.obuf.wf

/-- The invariant of the machine: legal parameters (00_scope.md rule R5), rule R28, and what its proof needs. -/
structure State.Inv (s : State) : Prop where
  config : s.cfg.wf = true
  rule28 : s.Rule28
  admitted : s.Admitted
  exposed : s.ExposedWritten
  memory : s.MemoryWf

/-! ### Runs -/

/-- The next step is a reset. -/
def State.resetsNow (s : State) : Bool := s.nextAgent == .env

/-- The number of blocks the next step encodes. -/
def State.blocksNow (s : State) : Nat :=
  if s.nextAgent = .core ∧ s.ph = .busyEnc then encBlocks s else 0

/-- The number of blocks encoded in the first `k` steps. -/
def blocksAlong : Nat → State → Nat
  | 0, _ => 0
  | k + 1, s =>
    s.blocksNow +
      match step s with
      | .next t => blocksAlong k t
      | .fault _ => 0
      | .refused _ => 0

/-- None of the first `k` steps is a reset. -/
def noResetAlong : Nat → State → Prop
  | 0, _ => True
  | k + 1, s =>
    s.resetsNow = false ∧
      match step s with
      | .next t => noResetAlong k t
      | .fault _ => True
      | .refused _ => True

/-- The host access the next step makes, if it makes one. -/
def State.accessNow (s : State) : List Access :=
  if s.nextAgent = .host then (nextAccess s).toList else []

/-- The host accesses of the first `k` steps, first one first. -/
def accessesAlong : Nat → State → List Access
  | 0, _ => []
  | k + 1, s =>
    s.accessNow ++
      match step s with
      | .next t => accessesAlong k t
      | .fault _ => []
      | .refused _ => []

/-- What the next step makes of the number of blocks encoded since INIT: a reset ends the instance, an INIT's completion starts a
new one, an ENCODE's completion adds its blocks. `none` is "no INIT since the last reset". -/
def State.countNow (s : State) (n : Option Nat) : Option Nat :=
  match s.nextAgent with
  | .env => none
  | .core => if s.ph = .busyInit then some 0 else n.map (· + s.blocksNow)
  | .host => n

/-- The number of blocks encoded since INIT after `k` steps, given that number before them. -/
def countAlong : Option Nat → Nat → State → Option Nat
  | n, 0, _ => n
  | n, k + 1, s =>
    match step s with
    | .next t => countAlong (s.countNow n) k t
    | .fault _ => none
    | .refused _ => none

/-- The number of blocks encoded since INIT in a run of `k` steps; `none` while the run holds no INIT since its last reset. -/
def blocksSinceInit (k : Nat) (s : State) : Option Nat := countAlong none k s

/-! ### Launch premises and ends of runs (rules R156, R158) -/

/-- `AfterReset` (rule R158): the state of rule R140, whatever the host and the schedule are. -/
def State.AfterReset (s : State) : Prop :=
  { State.reset with cfg := s.cfg, epoch := s.epoch, sched := s.sched, host := s.host } = s

/-- A 4-byte write of a register of the map. -/
def regWrite (c : Config) (r : Reg) (v : Word) : Access := .write (targetAddress c (.reg r)) .four (v.setWidth 64)

/-- Steps 1 and 2 of rule R143: the four key words and the two halves of the seed. -/
def constructionWrites (c : Config) (k : Key) (seed : DWord) : List Access :=
  [regWrite c (.key 0) k.k0, regWrite c (.key 1) k.k1, regWrite c (.key 2) k.k2, regWrite c (.key 3) k.k3,
    regWrite c .seedl (lowWord seed), regWrite c .seedh (highWord seed)]

/-- Step 3 of rule R143. -/
def initWrite (c : Config) : Access := regWrite c .cmd (encode .init)

/-- One poll of step 4 of rule R143. -/
def statusPoll (c : Config) : Access := .read (targetAddress c (.reg .status)) .four

/-- A write of `ILEN`, or of bytes of `IBUF`: rule R143 allows these "before or after INIT". -/
def Access.writesInput (c : Config) : Access → Bool
  | .write a n _ =>
    (a == targetAddress c (.reg .ilen) && n == .four) ||
      (decide (ibufAddress c 0 ≤ a) && decide (a + n.bytes ≤ ibufAddress c c.bufsz))
  | .read _ _ => false

/-- `m` steps from `s` to `u` are the sequence of rule R143: from `AfterReset`, without a reset, the host's accesses are the
key and seed writes in any order (`ILEN` and `IBUF` writes among them), then INIT, then polls of `STATUS` up to one that
answers `BUSY = 0` (log entry 26). -/
structure ConstructionRun (k : Key) (seed : DWord) (m : Nat) (s u : State) : Prop where
  afterReset : s.AfterReset
  noReset : noResetAlong m s
  run : Host.Core.run core m s = .next u
  accesses : ∃ setup polls : List Access,
    accessesAlong m s = setup ++ initWrite s.cfg :: polls ∧
      (setup.filter (fun a => !a.writesInput s.cfg)).Perm (constructionWrites s.cfg k seed) ∧
      polls ≠ [] ∧ ∀ a ∈ polls, a = statusPoll s.cfg
  polled : ∃ v : DWord, u.host.reply = .value v ∧ v.getLsbD 1 = false

/-- `j` steps from `u` to `s` without a reset, in which the host's accesses, if any, write `ILEN` or `IBUF` (log
entry 26). -/
structure InputRun (j : Nat) (u s : State) : Prop where
  noReset : noResetAlong j u
  run : Host.Core.run core j u = .next s
  accesses : ∀ a ∈ accessesAlong j u, a.writesInput u.cfg = true

/-- `Constructed(K, c)` (rule R158): `PH = IDLE`, key `K`, `CTR = c`, flags as after INIT completion, reached from
`AfterReset` by the sequence of rule R143. -/
structure State.Constructed (k : Key) (c : DWord) (s : State) : Prop where
  phase : s.ph = .idle
  key : s.key = k
  counter : s.ctr = c
  olen : s.olen = 0
  flags : s.done = true ∧ s.rej = false ∧ s.err = false ∧ s.ecode = 0
  reached : ∃ (m j : Nat) (r u : State), ConstructionRun k c m r u ∧ InputRun j u s

/-- `Fresh(B)` (rule R158) of the end of a run of `k` steps from `s`: `B <= 2^61`, the run holds the INIT of the instance
it ends in, and fewer than `B` blocks have been encoded since (log entry 26). -/
def Fresh (bound k : Nat) (s : State) : Prop :=
  bound ≤ 2 ^ 61 ∧ ∃ n, blocksSinceInit k s = some n ∧ n < bound

/-- `InputWritten(j)` (rule R158): the host has written `IBUF[0 .. j-1]` since reset. -/
def State.InputWritten (j : Nat) (s : State) : Prop :=
  ∀ a, a < j → (s.ibuf.get? a).isSome = true

/-- A run is over (rule R156): the script has ended and no command is pending. -/
def State.RunOver (s : State) : Prop := s.host.ended = true ∧ s.ph.busy = false

/-! ### Named properties of the primitive (41_primitive_h.md rule R87); `PRF` is no statement about one function -/

/-- `Perm`: for each key a bijection of the blocks. -/
def PermProperty (h : BlockFn) : Prop :=
  ∀ k, Function.Bijective (fun p : Word × Word => h p.1 p.2 k)

/-- `KeyDep`: the result depends on the key. -/
def KeyDepProperty (h : BlockFn) : Prop :=
  ∃ x y k k', h x y k ≠ h x y k'

end Sys2Proof.Machine
end

