-- ==== Sys2Proof/Certificates/Slice0/Obligations.lean ====
section
/-! DEFINITION. The statements for the provers, each from the numbered rules of spec/. -/

open Sys2Proof
open Sys2Proof.Machine

/-! ### Encodings (30_encoding.md) -/

/-- Rule R66: "if `word = 0x00000001` then INIT, else if `word = 0x00000002` then ENCODE, else if `word = 0x00000003` then
DECODE, else illegal". -/
def Obligations.DecoderReadsExactlyThreeWords : Prop :=
  ∀ (w : Word) (i : Instr),
    decode w = .ok i ↔
      (w = 0x00000001 ∧ i = .init) ∨ (w = 0x00000002 ∧ i = .encode) ∨ (w = 0x00000003 ∧ i = .decode)

/-- Decoder and encoder agree on bytes, in both directions and with any bytes after the command. -/
def Obligations.DecodeEncodeBytesAgree : Prop :=
  ∀ (bytes : List Byte) (i : Instr) (rest : List Byte),
    decodeBytes bytes = .ok (i, rest) ↔ bytes = encodeBytes i ++ rest

/-- The three command words, and four illegal words with the reason each is refused for. -/
def Obligations.CommandWordSamples : Prop :=
  decode 0x00000001 = .ok .init ∧ decode 0x00000002 = .ok .encode ∧ decode 0x00000003 = .ok .decode ∧
    decode 0x00000000 = .error .illegalOpcode ∧ decode 0x00000005 = .error .illegalOpcode ∧
    decode 0x00000102 = .error .reservedBits ∧ decode 0x80000001 = .error .reservedBits

/-- Rules R54 and R55: the header's fields, and that packing and unpacking undo each other. -/
def Obligations.HeaderPackUnpack : Prop :=
  (∀ (c : DWord) (rem : BitVec 3), c.toNat < 2 ^ 61 →
    (packHeader c rem).toNat = c.toNat * 8 + rem.toNat ∧
      headerCounter (packHeader c rem) = c ∧ headerRem (packHeader c rem) = rem) ∧
  ∀ hdr : DWord,
    (headerCounter hdr).toNat = hdr.toNat / 8 ∧ (headerRem hdr).toNat = hdr.toNat % 8 ∧
      (headerCounter hdr).toNat < 2 ^ 61 ∧ packHeader (headerCounter hdr) (headerRem hdr) = hdr

/-- Rule R58: the two forms of the frame length are equal, for every length. -/
def Obligations.FrameLengthForms : Prop :=
  ∀ m : Nat, frameLength m = if m % 8 = 0 then 16 + m else 24 + m - m % 8

/-- Rule R59: the plaintext length recovered from a frame length and a remainder; its range; and that it undoes the frame
length for every nonempty plaintext. -/
def Obligations.PlainLengthInvertsFrameLength : Prop :=
  (∀ (L : Nat) (rem : BitVec 3), 24 ≤ L → L % 8 = 0 →
    plainLength L rem = (if rem = 0 then L - 16 else L - 24 + rem.toNat) ∧
      1 ≤ plainLength L rem ∧ plainLength L rem ≤ L - 16) ∧
  ∀ m : Nat, 1 ≤ m → plainLength (frameLength m) (BitVec.ofNat 3 m) = m

/-! ### The primitive (41_primitive_h.md) -/

/-- Rule R84: `H_ref_inv` undoes `H_ref` and `H_ref` undoes `H_ref_inv`, for every key: `H_ref` is a permutation. -/
def Obligations.ReferencePrimitiveInverse : Prop :=
  ∀ (x y : Word) (k : Key),
    hRefInv (hRef x y k).1 (hRef x y k).2 k = (x, y) ∧ hRef (hRefInv x y k).1 (hRefInv x y k).2 k = (x, y)

/-- Rule R83: "The subkeys in round `r` are `K[j] +_32 (r * Dj mod 2^32)`": after `r` rounds the rest of `H_ref` runs from
those subkeys. -/
def Obligations.ReferencePrimitiveSubkeys : Prop :=
  ∀ (r n : Nat) (k : Key) (x y : Word),
    refRounds (r + n) k x y =
      refRounds n (subkeysAfter r k) (refRounds r k x y).1 (refRounds r k x y).2

/-- The decided rows of rule R87's table: `Perm` holds of `H_ref` and `H_id`, `KeyDep` of `H_ref` and not of `H_id`. -/
def Obligations.PrimitiveNamedProperties : Prop :=
  PermProperty hRef ∧ PermProperty hId ∧ KeyDepProperty hRef ∧ ¬ KeyDepProperty hId

/-! ### Reset and the phase register -/

/-- Rule R27: the values the spec gives for reset, the `STATUS` view, and that every gated read of OBUF is 0. -/
def Obligations.ResetLeavesSpecValues : Prop :=
  State.reset.ph = .unkeyed ∧ State.reset.key = { k0 := 0, k1 := 0, k2 := 0, k3 := 0 } ∧ State.reset.ctr = 0 ∧
    State.reset.seed = 0 ∧ State.reset.ilen = 0 ∧ State.reset.olen = 0 ∧ State.reset.done = false ∧
    State.reset.rej = false ∧ State.reset.err = false ∧ State.reset.ecode = 0 ∧
    State.reset.status = 0x00000000 ∧ ∀ a, State.reset.gatedByte a = 0

/-- Rules R140 and R141: the reset event is a step enabled in every state, whatever command is pending; `PH`, `K`, `CTR`, `SEED`,
`ILEN`, `OLEN` and the flags take their values of rule R27. -/
def Obligations.ResetEventFromEveryState : Prop :=
  ∀ s : State, s.nextAgent = .env →
    ∃ t, step s = .next t ∧ t.ph = .unkeyed ∧ t.key = { k0 := 0, k1 := 0, k2 := 0, k3 := 0 } ∧ t.ctr = 0 ∧
      t.seed = 0 ∧ t.ilen = 0 ∧ t.olen = 0 ∧ t.done = false ∧ t.rej = false ∧ t.err = false ∧ t.ecode = 0 ∧
      t.status = 0x00000000 ∧ ∀ a, t.gatedByte a = 0

/-- Rule R16: the two predicates, and the transitions of the phase register by the agent that moves: "There is no other
transition". -/
def Obligations.PhaseTransitions : Prop :=
  (∀ p : Phase, (p.busy = true ↔ p = .busyInit ∨ p = .busyEnc ∨ p = .busyDec) ∧
    (p.keyed = true ↔ p = .idle ∨ p = .busyEnc ∨ p = .busyDec)) ∧
  ∀ s t : State, step s = .next t →
    (s.nextAgent = .env ∧ t.ph = .unkeyed) ∨
    (s.nextAgent = .core ∧ ((s.ph.busy = true ∧ t.ph = .idle) ∨ (s.ph.busy = false ∧ t.ph = s.ph))) ∨
    (s.nextAgent = .host ∧
      (t.ph = s.ph ∨ (s.ph = .unkeyed ∧ t.ph = .busyInit) ∨ (s.ph = .idle ∧ t.ph = .busyEnc) ∨
        (s.ph = .idle ∧ t.ph = .busyDec)))

/-! ### The status view and the flags -/

/-- Rule R18: every bit of `STATUS`. -/
def Obligations.StatusBits : Prop :=
  ∀ (s : State) (i : Nat),
    s.status.getLsbD i =
      if i = 0 then s.ph.keyed
      else if i = 1 then s.ph.busy
      else if i = 2 then s.done
      else if i = 3 then s.rej
      else if i = 4 then s.err
      else if 8 ≤ i ∧ i ≤ 11 then s.ecode.getLsbD (i - 8)
      else false

/-- Rule R17's column "Set to 1 by": which move sets which flag. -/
def Obligations.FlagsSetOnlyByTheirEvents : Prop :=
  ∀ s t : State, step s = .next t →
    (s.done = false → t.done = true → s.nextAgent = .core ∧ s.ph.busy = true) ∧
    (s.rej = false → t.rej = true → s.nextAgent = .core ∧ s.ph = .busyDec) ∧
    (s.err = false → t.err = true → s.nextAgent = .host ∧ s.ph.busy = false ∧ t.ph = s.ph)

/-! ### Issue (40_command_issue_and_init.md) -/

/-- Rules R71 and R72: a 4-byte write of `w` to `CMD` while not busy, with every refusal code in its order, and all that changes.
`FL` is `frameLength`, on unbounded integers. -/
def Obligations.IssueAttemptOutcome : Prop :=
  ∀ (s : State) (w : Word), s.ph.busy = false →
    busWrite s.cfg.base .four (w.setWidth 64) s =
      .next
        (let acked := { s with host := { s.host with reply := .ack }, done := false, rej := false }
         if w ≠ 0x00000001 ∧ w ≠ 0x00000002 ∧ w ≠ 0x00000003 then { acked with err := true, ecode := 1 }
         else if (w = 0x00000001 ∧ s.ph ≠ .unkeyed) ∨ (w ≠ 0x00000001 ∧ s.ph ≠ .idle) then
           { acked with err := true, ecode := 2 }
         else if (w = 0x00000002 ∧ s.cfg.bufsz < frameLength s.ilen.toNat) ∨
             (w = 0x00000003 ∧ s.cfg.bufsz < s.ilen.toNat) then
           { acked with err := true, ecode := 3 }
         else
           { acked with
             err := false
             ecode := 0
             ph :=
               if w = 0x00000001 then .busyInit else if w = 0x00000002 then .busyEnc else .busyDec })

/-- The frame of an issue attempt of INIT, ENCODE and DECODE: it always answers a next state; besides the flags and `PH` nothing
changes; a refused one leaves `PH` alone, an accepted one sets no error. -/
def Obligations.IssueFrame : Prop :=
  ∀ (i : Instr) (s : State), s.ph.busy = false →
    ∃ t, exec i s = .next t ∧
      t = { s with ph := t.ph, done := false, rej := false, err := t.err, ecode := t.ecode } ∧
      (t.err = true → t.ph = s.ph ∧ (t.ecode = 2 ∨ t.ecode = 3)) ∧
      (t.err = false → t.ph = busyPhase i ∧ t.ecode = 0) ∧ (∀ a, t.obufByte a = s.obufByte a) ∧
      ∀ a, t.ibufByte a = s.ibufByte a

/-- A command whose turn comes while another one is pending is a bus error: the host is told and nothing else changes
(rule R42). That `exec` answers so is the model's own form (log entry 3). -/
def Obligations.CommandWhileOtherPending : Prop :=
  ∀ (i : Instr) (s : State), s.ph.busy = true → s.ph ≠ busyPhase i →
    exec i s = .next { s with host := { s.host with reply := .busError } }

/-- Two states in which a completion stops: a pending ENCODE whose frame, and a pending DECODE whose input of an allowed
length, does not fit in `BUFSZ`. Rule R72 refuses both at issue. The fault is the model's own (log entry 14). -/
def Obligations.OversizedCompletionFaults : Prop :=
  ∀ s : State,
    (s.ph = .busyEnc → s.cfg.bufsz < frameLength s.ilen.toNat → exec .encode s = .fault .coreOutOfBuffer) ∧
    (s.ph = .busyDec → 24 ≤ s.ilen.toNat → s.ilen.toNat % 8 = 0 → s.cfg.bufsz < s.ilen.toNat →
      exec .decode s = .fault .coreOutOfBuffer)

/-! ### INIT -/

/-- Rule R77: INIT's completion, whole: `CTR <- SEED`, `OLEN <- 0`, `REJ <- 0`, `PH <- IDLE`, `DONE <- 1`; every other field,
`K` among them, is unchanged. In IDLE the command is refused with `E_STATE` at issue. -/
def Obligations.InitCompletes : Prop :=
  ∀ s : State,
    (s.ph = .busyInit →
      exec .init s =
        .next { s with ctr := s.seed, olen := 0, rej := false, ph := .idle, done := true }) ∧
    (s.ph = .idle →
      exec .init s = .next { s with done := false, rej := false, err := true, ecode := 2 })

/-! ### ENCODE (42_encode.md) -/

/-- Rule R90: ENCODE's completion answers a next state with the frame of the reference evaluator in `OBUF[0 .. FL(m)-1]`,
`OLEN = FL(m)`, `CTR = (CTR_old and (2^61 - 1)) + n`, `DONE = 1`, `PH = IDLE`, `IBUF`, `ILEN` and `K` unchanged. -/
def Obligations.EncodeCompletesWithFrame : Prop :=
  ∀ s : State, s.cfg.wf = true → s.ph = .busyEnc → frameLength s.ilen.toNat ≤ s.cfg.bufsz →
    ∃ t, exec .encode s = .next t ∧
      (List.range (frameLength s.ilen.toNat)).map t.obufByte =
        refEncode (applyPrimitive s.cfg.prim) s.cfg.pairOrder s.key s.ctr (s.memRead 0 s.ilen.toNat) ∧
      t.olen.toNat = frameLength s.ilen.toNat ∧
      t.ctr.toNat = s.ctr.toNat % 2 ^ 61 + ceil8 s.ilen.toNat ∧ t.done = true ∧ t.ph = .idle ∧
      t.ibuf = s.ibuf ∧ t.ilen = s.ilen ∧ t.key = s.key

/-- The frame of ENCODE's completion: besides `OBUF[0 .. FL(m)-1]`, `OLEN`, `CTR`, `PH`, `DONE` and the working registers
nothing changes. -/
def Obligations.EncodeFrame : Prop :=
  ∀ s t : State, s.ph = .busyEnc → exec .encode s = .next t →
    t.cfg = s.cfg ∧ t.key = s.key ∧ t.seed = s.seed ∧ t.ilen = s.ilen ∧ t.rej = s.rej ∧ t.err = s.err ∧
      t.ecode = s.ecode ∧ t.ibuf = s.ibuf ∧ t.epoch = s.epoch ∧ t.sched = s.sched ∧ t.host = s.host ∧
      (∀ a, t.ibufByte a = s.ibufByte a) ∧
      ∀ a, frameLength s.ilen.toNat ≤ a → t.obufByte a = s.obufByte a

/-- Rule R96: the working counter before block `i` and after the last one, without wrap modulo 2^64, and the keystream it makes, also
where it has carried into bit 61; the stored counter keeps the carry, and the next ENCODE masks it. -/
def Obligations.EncodeCounterArithmetic : Prop :=
  ∀ s : State, s.cfg.wf = true → s.ph = .busyEnc → frameLength s.ilen.toNat ≤ s.cfg.bufsz →
    (∀ (h : BlockFn) (i : Nat), i ≤ encBlocks s →
      (repeatBlocks (encBlock h) i (encStart s)).wc.toNat = s.ctr.toNat % 2 ^ 61 + i ∧
        (repeatBlocks (encBlock h) i (encStart s)).wc.toNat < 2 ^ 61 + 8192 ∧
        keystream h (repeatBlocks (encBlock h) i (encStart s)) =
          refKeystream h s.key (BitVec.ofNat 64 (s.ctr.toNat % 2 ^ 61 + i))) ∧
    encBlocks s ≤ s.cfg.bufsz / 8 ∧ s.cfg.bufsz / 8 ≤ 8192 ∧
    ∃ t, exec .encode s = .next t ∧ t.ctr.toNat = s.ctr.toNat % 2 ^ 61 + encBlocks s ∧
      t.ctr.toNat ≤ 2 ^ 61 - 1 + 8192 ∧
      (encStart t).wc.toNat = (s.ctr.toNat % 2 ^ 61 + encBlocks s) % 2 ^ 61

/-- Rule R99 item 1: ENCODE of an empty plaintext: 16 bytes that depend on `CTR` only, and `CTR` is only masked. -/
def Obligations.EncodeEmptyPlaintext : Prop :=
  ∀ s : State, s.cfg.wf = true → s.ph = .busyEnc → s.ilen = 0 →
    ∃ t, exec .encode s = .next t ∧
      (List.range 16).map t.obufByte =
        leBytes 8 (maskCounter s.ctr <<< 3) ++
          leBytes 8 (join s.cfg.pairOrder (halves (maskCounter s.ctr))) ∧
      t.olen = 16 ∧ t.ctr = maskCounter s.ctr ∧ t.done = true ∧ t.ph = .idle

/-- Rule R97: in any run without reset from a keyed state, the working counter of block `i` of an ENCODE about to complete is
congruent modulo 2^61 to the counter at the start plus the blocks encoded since; two blocks whose numbers differ by less than 2^61
never share a counter value. -/
def Obligations.CounterNeverReused : Prop :=
  ∀ (h : BlockFn) (s : State), s.ph.keyed = true →
    (∀ (k i : Nat) (t : State), noResetAlong k s → Host.Core.run core k s = .next t → t.ph = .busyEnc →
      i < encBlocks t →
      (repeatBlocks (encBlock h) i (encStart t)).wc.toNat % 2 ^ 61 =
        (s.ctr.toNat + blocksAlong k s + i) % 2 ^ 61) ∧
    ∀ (k i k' i' : Nat) (t t' : State), noResetAlong k s → Host.Core.run core k s = .next t → t.ph = .busyEnc →
      i < encBlocks t → noResetAlong k' s → Host.Core.run core k' s = .next t' → t'.ph = .busyEnc →
      i' < encBlocks t' → blocksAlong k s + i < blocksAlong k' s + i' →
      blocksAlong k' s + i' < blocksAlong k s + i + 2 ^ 61 →
      (repeatBlocks (encBlock h) i (encStart t)).wc ≠ (repeatBlocks (encBlock h) i' (encStart t')).wc

/-! ### DECODE (43_decode.md) -/

/-- Rule R100 with the outcome of the reference evaluator: DECODE's completion answers a next state that accepts with exactly the
evaluator's plaintext, or rejects exactly where the evaluator gives "no result". -/
def Obligations.DecodeCompletesAsReference : Prop :=
  ∀ s : State, s.cfg.wf = true → s.ph = .busyDec → s.ilen.toNat ≤ s.cfg.bufsz →
    ∃ t, exec .decode s = .next t ∧ t.done = true ∧ t.ph = .idle ∧
      match refDecode (applyPrimitive s.cfg.prim) s.cfg.pairOrder s.key (s.memRead 0 s.ilen.toNat) with
      | some plain =>
        t.rej = false ∧ t.olen.toNat = plain.length ∧ (List.range plain.length).map t.obufByte = plain
      | none => t.rej = true ∧ t.olen = 0

/-- Rules R101 and R108: a frame shorter than 24 bytes or of a length that is no multiple of 8 is rejected: `OLEN <- 0`, `REJ <- 1`,
`PH <- IDLE`, `DONE <- 1`, and nothing else changes. -/
def Obligations.DecodeRejectsBadLength : Prop :=
  ∀ s : State, s.ph = .busyDec → s.ilen.toNat < 24 ∨ s.ilen.toNat % 8 ≠ 0 →
    exec .decode s = .next { s with olen := 0, rej := true, ph := .idle, done := true }

/-- The frame of DECODE's completion: besides `OBUF[0 .. 8n-1]`, `OLEN`, `REJ`, `DONE`, `PH` and the working registers nothing
changes; a frame rejected for its length stores nothing. -/
def Obligations.DecodeFrame : Prop :=
  ∀ s t : State, s.ph = .busyDec → exec .decode s = .next t →
    t.cfg = s.cfg ∧ t.key = s.key ∧ t.ctr = s.ctr ∧ t.seed = s.seed ∧ t.ilen = s.ilen ∧ t.err = s.err ∧
      t.ecode = s.ecode ∧ t.ibuf = s.ibuf ∧ t.epoch = s.epoch ∧ t.sched = s.sched ∧ t.host = s.host ∧
      (∀ a, t.ibufByte a = s.ibufByte a) ∧ (∀ a, 8 * decBlocks s ≤ a → t.obufByte a = s.obufByte a) ∧
      (decCheck s = false → t.obuf = s.obuf)

/-- Rule R109: DECODE's outcome is a function of `K`, `ILEN` and `IBUF` alone; the counter is neither read nor
written. -/
def Obligations.DecodeIgnoresCounter : Prop :=
  ∀ s s' t t' : State, s.ph = .busyDec → s'.ph = .busyDec → s'.cfg = s.cfg → s'.key = s.key →
    s'.ilen = s.ilen → (∀ a, s'.ibufByte a = s.ibufByte a) → exec .decode s = .next t →
    exec .decode s' = .next t' →
    t.ctr = s.ctr ∧ t'.ctr = s'.ctr ∧ t'.olen = t.olen ∧ t'.rej = t.rej ∧ t'.done = t.done ∧ t'.ph = t.ph ∧
      ∀ a, t'.gatedByte a = t.gatedByte a

/-- Rule R105: the working counter before block `i` of a DECODE is `(hdr >> 3) + i`, without wrap, and that value makes the block's
keystream. -/
def Obligations.DecodeCounterFollowsHeader : Prop :=
  ∀ (h : BlockFn) (s : State) (i : Nat), s.cfg.wf = true → s.ilen.toNat ≤ s.cfg.bufsz → i ≤ decBlocks s →
    (repeatBlocks (decBlock h) i (decStart (decHeader s))).wc.toNat =
        (s.memReadDWord 0).toNat / 8 + i ∧
      keystream h (repeatBlocks (decBlock h) i (decStart (decHeader s))) =
        refKeystream h s.key (BitVec.ofNat 64 ((s.memReadDWord 0).toNat / 8 + i))

/-- Rule R108: whatever the cause, a rejection sets `REJ`, `DONE`, `PH` and `OLEN = 0`, leaves `ERR`, `K`, `CTR` and the inputs alone,
and no read of `OBUF` shows a byte of the rejected frame. -/
def Obligations.RejectionReleasesNothing : Prop :=
  ∀ s t : State, s.ph = .busyDec → exec .decode s = .next t → t.rej = true →
    t.done = true ∧ t.ph = .idle ∧ t.olen = 0 ∧ t.err = s.err ∧ t.ecode = s.ecode ∧ t.key = s.key ∧
      t.ctr = s.ctr ∧ t.seed = s.seed ∧ t.ilen = s.ilen ∧ (∀ a, t.ibufByte a = s.ibufByte a) ∧
      (∀ a, t.gatedByte a = 0) ∧
      ∀ (n : Width) (b : Nat), readReply t n (.output b) = .value 0

/-- Rule R111 item 2: two frames that differ only in the three remainder bits of the header are accepted together; the plaintext
length follows the altered bits and the common bytes are equal. -/
def Obligations.RemainderBitsAreNotCovered : Prop :=
  ∀ s s' t t' : State, s.cfg.wf = true → s.ph = .busyDec → s'.ph = .busyDec → s'.cfg = s.cfg →
    s'.key = s.key → s'.ilen = s.ilen → s.ilen.toNat ≤ s.cfg.bufsz →
    (∀ a, a ≠ 0 → s'.ibufByte a = s.ibufByte a) → s'.ibufByte 0 >>> 3 = s.ibufByte 0 >>> 3 →
    exec .decode s = .next t → t.rej = false → exec .decode s' = .next t' →
    t'.rej = false ∧
      t'.olen.toNat = plainLength s.ilen.toNat ((s'.ibufByte 0).setWidth 3) ∧
      ∀ a, a < t.olen.toNat → a < t'.olen.toNat → t'.obufByte a = t.obufByte a

/-! ### Round trip -/

/-- Rule R110 on byte strings, for every primitive, `PAIR_ORDER`, key, counter and nonempty plaintext. -/
def Obligations.ReferenceRoundTrip : Prop :=
  ∀ (h : BlockFn) (o : PairOrder) (k : Key) (ctr : DWord) (plain : List Byte), plain ≠ [] →
    refDecode h o k (refEncode h o k ctr plain) = some plain

/-- Rule R110 on the machine: a state `d` whose input is the frame an ENCODE left, with the same key, parameters and any counter,
decodes to the plaintext; for `m = 0` the frame is rejected. -/
def Obligations.EncodeDecodeRoundTrip : Prop :=
  ∀ s t d : State, s.cfg.wf = true → s.ph = .busyEnc → s.ilen.toNat + 16 ≤ s.cfg.bufsz →
    exec .encode s = .next t → d.ph = .busyDec → d.cfg = s.cfg → d.key = s.key →
    d.ilen.toNat = frameLength s.ilen.toNat →
    (∀ a, a < frameLength s.ilen.toNat → d.ibufByte a = t.obufByte a) →
    ∃ u, exec .decode d = .next u ∧
      (1 ≤ s.ilen.toNat →
        u.rej = false ∧ u.olen = s.ilen ∧ ∀ a, a < s.ilen.toNat → u.obufByte a = s.ibufByte a) ∧
      (s.ilen.toNat = 0 → u.rej = true)

/-! ### All commands -/

/-- Rule R45: no command writes `IBUF` or `ILEN`, accepted, rejected or refused, and neither does an illegal word. -/
def Obligations.CommandsKeepInput : Prop :=
  (∀ (i : Instr) (s t : State), exec i s = .next t →
    t.ibuf = s.ibuf ∧ t.ilen = s.ilen ∧ ∀ a, t.ibufByte a = s.ibufByte a) ∧
  ∀ (w : Word) (s t : State), issueWord w s = .next t →
    t.ibuf = s.ibuf ∧ t.ilen = s.ilen ∧ ∀ a, t.ibufByte a = s.ibufByte a

/-! ### The bus (20_memory.md) -/

/-- Rule R37: the register accesses, offset by offset; widths other than 4; and what is left while busy. `reply r` is the state with
only the bus's answer changed. -/
def Obligations.RegisterAccesses : Prop :=
  ∀ (s : State) (o : Nat) (w : Word), o < 0x10000 →
    let reply := fun r : BusReply => ({ s with host := { s.host with reply := r } } : State)
    (s.ph.busy = false → o % 4 = 0 →
      (busRead (s.cfg.base + o) .four s =
        .next
          (if o = 0x04 then reply (.value (s.status.setWidth 64))
           else if o = 0x08 then reply (.value (s.ilen.setWidth 64))
           else if o = 0x0C then reply (.value (s.olen.setWidth 64))
           else reply .busError)) ∧
      (busWrite (s.cfg.base + o) .four (w.setWidth 64) s =
        if o = 0x00 then issueWord w (reply .ack)
        else if o = 0x08 then .next { reply .ack with ilen := w }
        else if s.ph = .unkeyed ∧ o = 0x10 then .next { reply .ack with key := { s.key with k0 := w } }
        else if s.ph = .unkeyed ∧ o = 0x14 then .next { reply .ack with key := { s.key with k1 := w } }
        else if s.ph = .unkeyed ∧ o = 0x18 then .next { reply .ack with key := { s.key with k2 := w } }
        else if s.ph = .unkeyed ∧ o = 0x1C then .next { reply .ack with key := { s.key with k3 := w } }
        else if s.ph = .unkeyed ∧ o = 0x20 then
          .next { reply .ack with seed := BitVec.ofNat 64 (s.seed.toNat / 2 ^ 32 * 2 ^ 32 + w.toNat) }
        else if s.ph = .unkeyed ∧ o = 0x24 then
          .next { reply .ack with seed := BitVec.ofNat 64 (w.toNat * 2 ^ 32 + s.seed.toNat % 2 ^ 32) }
        else .next (reply .busError))) ∧
    (∀ (n : Width) (v : DWord), n ≠ .four →
      busRead (s.cfg.base + o) n s = .next (reply .busError) ∧
        busWrite (s.cfg.base + o) n v s = .next (reply .busError)) ∧
    (s.ph.busy = true →
      busRead (s.cfg.base + 0x04) .four s = .next (reply (.value (s.status.setWidth 64))) ∧
        s.status.getLsbD 1 = true)

/-- Rule R38: the conditions not tied to one register; each access is a bus error and changes nothing. -/
def Obligations.BusErrorConditions : Prop :=
  ∀ (s : State) (o : Nat) (n : Width) (v : DWord), s.cfg.wf = true → o + n.bytes ≤ 0x40000 →
    let told : Host.Outcome State Fault Refusal :=
      .next { s with host := { s.host with reply := .busError } }
    ((o % n.bytes ≠ 0 ∨ (0x28 ≤ o ∧ o < 0x10000) ∨ (0x10000 + s.cfg.bufsz ≤ o ∧ o < 0x20000) ∨
        0x20000 + s.cfg.bufsz ≤ o ∨ (o < 0x10000 ∧ n ≠ .four)) →
      busRead (s.cfg.base + o) n s = told ∧ busWrite (s.cfg.base + o) n v s = told) ∧
    (0x20000 ≤ o → busWrite (s.cfg.base + o) n v s = told)

/-- Rule R42: while busy every access inside the window but the 4-byte read of `STATUS` is a bus error that changes
nothing. -/
def Obligations.BusyLockout : Prop :=
  ∀ (s : State) (o : Nat) (n : Width) (v : DWord), s.ph.busy = true → o + n.bytes ≤ 0x40000 →
    busWrite (s.cfg.base + o) n v s = .next { s with host := { s.host with reply := .busError } } ∧
    (¬ (o = 0x04 ∧ n = .four) →
      busRead (s.cfg.base + o) n s = .next { s with host := { s.host with reply := .busError } }) ∧
    busRead (s.cfg.base + 0x04) .four s =
      .next { s with host := { s.host with reply := .value (s.status.setWidth 64) } }

/-- Rules R39 and R40: aligned accesses of every width to `IBUF`, byte by byte; a write stores byte `k` of `v` at `b + k` and changes
nothing else. -/
def Obligations.InputBufferAccesses : Prop :=
  ∀ (s : State) (b : Nat) (n : Width) (v : DWord), s.cfg.wf = true → s.ph.busy = false →
    b + n.bytes ≤ s.cfg.bufsz → b % n.bytes = 0 →
    (∃ t, busWrite (s.cfg.base + 0x10000 + b) n v s = .next t ∧
      t = { s with host := { s.host with reply := .ack }, ibuf := t.ibuf } ∧
      (∀ k, k < n.bytes → t.ibufByte (b + k) = v.extractLsb' (8 * k) 8) ∧
      ∀ a, a < b ∨ b + n.bytes ≤ a → t.ibufByte a = s.ibufByte a) ∧
    ∃ x, busRead (s.cfg.base + 0x10000 + b) n s = .next { s with host := { s.host with reply := .value x } } ∧
      (∀ k, k < n.bytes → x.extractLsb' (8 * k) 8 = s.ibufByte (b + k)) ∧ x.toNat < 2 ^ (8 * n.bytes)

/-- Rule R41: a read of `OBUF` shows the byte below `OLEN` and 0x00 from `OLEN` on, and changes nothing; a write is a bus
error. -/
def Obligations.OutputBufferGate : Prop :=
  ∀ (s : State) (b : Nat) (n : Width) (v : DWord), s.cfg.wf = true → s.ph.busy = false →
    b + n.bytes ≤ s.cfg.bufsz → b % n.bytes = 0 →
    busWrite (s.cfg.base + 0x20000 + b) n v s = .next { s with host := { s.host with reply := .busError } } ∧
    ∃ x, busRead (s.cfg.base + 0x20000 + b) n s = .next { s with host := { s.host with reply := .value x } } ∧
      x.toNat < 2 ^ (8 * n.bytes) ∧
      ∀ k, k < n.bytes →
        x.extractLsb' (8 * k) 8 = if b + k < s.olen.toNat then s.obufByte (b + k) else 0

/-- Rule R43: a read changes only the bus's answer and, repeated, gives the same answer; a write other than to `CMD`, made twice,
equals the write made once. -/
def Obligations.ReadsPureWritesIdempotent : Prop :=
  (∀ (s t : State) (a : Nat) (n : Width), busRead a n s = .next t →
    t = { s with host := { s.host with reply := t.host.reply } } ∧ busRead a n t = .next t) ∧
  ∀ (s t : State) (a : Nat) (n : Width) (v : DWord), a ≠ s.cfg.base → busWrite a n v s = .next t →
    busWrite a n v t = .next t

/-- Rule R35 row 1: an access outside the window is no DTC access; the model refuses it by name (log entry 6). -/
def Obligations.OutsideWindowRefused : Prop :=
  ∀ (s : State) (a : Nat) (n : Width) (v : DWord),
    a < s.cfg.base ∨ s.cfg.base + 0x40000 < a + n.bytes →
    busRead a n s = .refused (.outsideWindow a) ∧ busWrite a n v s = .refused (.outsideWindow a)

/-! ### Steps, agents and scripts -/

/-- The host's issue attempt: when its next access is a 4-byte write to `CMD` of a word that decodes to `i` and no command is
pending, the step is `exec i`, with the host moved past the access and the write acknowledged. The same for a word placed by
`withFetchWord`: that it takes a pending command out, empties the schedule and makes the script one line is the model's choice
(log entry 4), and so is that a raw 4-byte write counts by its low 32 bits (log entry 15). -/
def Obligations.StepRunsWrittenCommand : Prop :=
  (∀ (s : State) (l : Line) (v : DWord) (i : Instr), s.nextAgent = .host → s.ph.busy = false →
    s.host.script[s.host.pc]? = some l →
    lineAccess s.cfg s.host l = some (.write s.cfg.base .four v) → decode (v.setWidth 32) = .ok i →
    step s = exec i ((s.popSched.hostProgress l).answer .ack)) ∧
  ∀ (s : State) (i : Instr),
    step (s.withFetchWord 32 (encode i).toNat) =
      exec i { s with
        ph := s.ph.settled
        sched := []
        host := { s.host with
          script := [.wr (.reg .cmd) (encode i)]
          pc := 1
          sub := 0
          reply := .ack } }

/-- Rule R75: the core's step is the pending command's own, with the schedule's entry used up; "The core has no step while `not
busy`". -/
def Obligations.StepCompletesPendingCommand : Prop :=
  ∀ s : State, s.nextAgent = .core →
    (∀ i, s.ph = busyPhase i → step s = exec i s.popSched) ∧ (s.ph.busy = false → step s = .next s.popSched)

/-- Rule R64: `RD STATUS` loads `acc` with the view and changes nothing in the DTC, also while busy; `JSET` goes to its label exactly
when a masked bit of `acc` is set. -/
def Obligations.PollingLines : Prop :=
  (∀ s : State, s.nextAgent = .host → s.host.script[s.host.pc]? = some (.rd (.reg .status)) →
    ∃ t, step s = .next t ∧ s.SameDtc t ∧ t.host.acc = s.status ∧ t.host.pc = s.host.pc + 1 ∧
      t.host.got = s.host.got ∧ t.host.script = s.host.script) ∧
  ∀ (s : State) (mask : Word) (label j : Nat), s.nextAgent = .host →
    s.host.script[s.host.pc]? = some (.jset mask label) → findLabel label s.host.script = some j →
    ∃ t, step s = .next t ∧ s.SameDtc t ∧ t.host.acc = s.host.acc ∧
      t.host.pc = if s.host.acc &&& mask = 0 then s.host.pc + 1 else j

/-- Rule R64: a `WRB IBUF+k` line makes one 1-byte write per byte, in order; the bytes then stand in `IBUF`, and the host is past the
line. The default order of turns is the model's (log entry 1). -/
def Obligations.WriteBytesLine : Prop :=
  ∀ (s : State) (k : Nat) (bytes : List Byte), s.ph.busy = false → s.sched = [] → s.host.sub = 0 →
    s.host.script[s.host.pc]? = some (.wrb k bytes) → bytes ≠ [] → k + bytes.length ≤ s.cfg.bufsz →
    s.cfg.wf = true →
    ∃ t, Host.Core.run core bytes.length s = .next t ∧
      t = { s with ibuf := t.ibuf, host := { s.host with pc := s.host.pc + 1, reply := .ack } } ∧
      (∀ i, i < bytes.length → bytes[i]? = some (t.ibufByte (k + i))) ∧
      ∀ a, a < k ∨ k + bytes.length ≤ a → t.ibufByte a = s.ibufByte a

/-- Rule R64: an `RDB OBUF+k` line makes one 1-byte read per byte, in order; `got` is then the bytes the gate of rule R41 shows, and
nothing in the DTC has changed. The default order of turns is the model's (log entry 1). -/
def Obligations.ReadBytesLine : Prop :=
  ∀ (s : State) (k : Nat) (j : Count), s.ph.busy = false → s.sched = [] → s.host.sub = 0 →
    s.host.script[s.host.pc]? = some (.rdb k j) → 0 < countValue s.host j →
    k + countValue s.host j ≤ s.cfg.bufsz → s.cfg.wf = true →
    ∃ t, Host.Core.run core (countValue s.host j) s = .next t ∧ s.SameDtc t ∧
      t.host.got = (List.range (countValue s.host j)).map (fun i => s.gatedByte (k + i)) ∧
      t.host.acc = s.host.acc ∧ t.host.pc = s.host.pc + 1 ∧ t.host.sub = 0

/-- Rules R143 and R65: the script `CONSTRUCT`, run from `AfterReset` in the default order, leaves the machine `Constructed`, and the
last `STATUS` read shows KEYED and DONE. The default order is the model's (log entry 1). -/
def Obligations.ConstructScriptConstructs : Prop :=
  ∀ (s : State) (label : Nat) (k : Key) (seed : DWord) (rest : List Line), s.AfterReset → s.sched = [] →
    s.host.script = pseudoConstruct label k seed ++ rest → s.host.pc = 0 →
    ∃ t, Host.Core.run core 11 s = .next t ∧ t.Constructed k seed ∧ t.status = 0x00000005 ∧
      t.host.acc = 0x00000005 ∧ t.host.pc = 10

/-- Rules R6 and R75: whatever the host does meanwhile, a pending command completes within the schedule's host turns and one turn of
the core, unless the host's script itself is refused. The default order is the model's (log entry 1). -/
def Obligations.PendingCommandCompletes : Prop :=
  ∀ (s : State) (n : Nat), s.Inv → s.ph.busy = true → s.sched = List.replicate n .host →
    (∃ t, Host.Core.run core (n + 1) s = .next t ∧ t.ph = .idle ∧ t.done = true) ∨
      ∃ r, Host.Core.run core (n + 1) s = .refused r

/-! ### Invariants and whole-machine rules -/

/-- The invariant holds right after reset. -/
def Obligations.ResetSatisfiesInvariant : Prop :=
  State.reset.Inv

/-- Rule R28: every step keeps the invariant (items 1 to 5, with what its proof needs), and item 6: once keyed, `K` changes by reset
only. -/
def Obligations.StepKeepsInvariant : Prop :=
  ∀ s t : State, s.Inv → step s = .next t →
    t.Inv ∧ (s.ph.keyed = true → s.nextAgent ≠ .env → t.ph.keyed = true ∧ t.key = s.key)

/-- Rule R75: from a state with the invariant no step faults, only a host's own access or script is ever refused, and the core's
step always completes the pending command. -/
def Obligations.NoStepFaults : Prop :=
  ∀ s : State, s.Inv →
    (∀ f, step s ≠ .fault f) ∧
    (∀ r, step s = .refused r → s.nextAgent = .host ∧ ((∃ a, r = .outsideWindow a) ∨ ∃ l, r = .noSuchLabel l)) ∧
    (s.nextAgent = .core → s.ph.busy = true → ∃ t, step s = .next t ∧ t.ph = .idle ∧ t.done = true)

/-- Both buffers stay in canonical form, whatever else the state is. That form is the model's own choice (log entry 13). -/
def Obligations.StepKeepsMemoryCanonical : Prop :=
  ∀ s t : State, s.MemoryWf → step s = .next t → t.MemoryWf

/-- The parameters of rule R5 never change (rule R26: they are no state). -/
def Obligations.StepKeepsParameters : Prop :=
  ∀ s t : State, step s = .next t → t.cfg = s.cfg

/-- Rule R129: `K` and `SEED` change only while UNKEYED and by reset. -/
def Obligations.ConstructionLock : Prop :=
  ∀ s t : State, step s = .next t → s.nextAgent ≠ .env → s.ph ≠ .unkeyed → t.key = s.key ∧ t.seed = s.seed

/-- Rule R11: `CTR` is written by INIT's completion, which loads it from `SEED`, by ENCODE's completion, and by reset; by nothing
else. -/
def Obligations.CounterWriters : Prop :=
  ∀ s t : State, step s = .next t →
    t.ctr = s.ctr ∨ s.nextAgent = .env ∨ (s.nextAgent = .core ∧ s.ph = .busyInit ∧ t.ctr = s.seed) ∨
      (s.nextAgent = .core ∧ s.ph = .busyEnc ∧
        t.ctr = maskCounter s.ctr + BitVec.ofNat 64 (ceil8 s.ilen.toNat))

/-- Rule R29: no host step tells apart two states that differ only in `K`, `SEED`, `CTR`, the working registers and unexposed bytes of
`OBUF`: the outcomes, and so the answers, are equal, and the states stay indistinguishable. -/
def Obligations.HostStepsRevealNoSecret : Prop :=
  ∀ s t : State, s.PublicEq t → s.nextAgent = .host → OutcomeRel State.PublicEq (step s) (step t)

/-! ### Launch premises (70_reset_and_hazards.md rule R158) -/

/-- Rules R143 and R158: the sequence of rule R143, in any order of its writes and under every schedule, followed by any writes of
`ILEN` and `IBUF`, leaves the machine `Constructed`; `STATUS` then shows KEYED and DONE, and `SEED` and the parameters stand
as the sequence left them. What counts as the sequence is read from the rule (log entry 26). -/
def Obligations.ConstructionSequenceConstructs : Prop :=
  ∀ (k : Key) (seed : DWord) (m j : Nat) (s u t : State), ConstructionRun k seed m s u → InputRun j u t →
    t.Constructed k seed ∧ t.status = 0x00000005 ∧ t.seed = seed ∧ t.cfg = s.cfg

/-- Rule R97, first half: wherever a run that holds the INIT of its instance ends, the counter is congruent modulo 2^61 to `SEED` plus
the blocks encoded since INIT, and so is the working counter of each block of an ENCODE about to complete. -/
def Obligations.CounterFollowsSeed : Prop :=
  ∀ (k n : Nat) (s t : State), Host.Core.run core k s = .next t → blocksSinceInit k s = some n →
    t.ph.keyed = true ∧ t.ctr.toNat % 2 ^ 61 = (t.seed.toNat % 2 ^ 61 + n) % 2 ^ 61 ∧
      ∀ (h : BlockFn) (i : Nat), t.ph = .busyEnc → i < encBlocks t →
        (repeatBlocks (encBlock h) i (encStart t)).wc.toNat % 2 ^ 61 =
          (t.seed.toNat % 2 ^ 61 + n + i) % 2 ^ 61

/-- Rule R97 with the premise `Fresh` of rule R158: of two blocks of one instance, `i` of the ENCODE pending after `k` steps and the
later `i'` of the one pending after `j` more, the working counters differ if the run stays `Fresh(B)` through the second ENCODE's
completion. -/
def Obligations.FreshCountersDiffer : Prop :=
  ∀ (h : BlockFn) (bound k j i i' : Nat) (s t t' : State), Host.Core.run core k s = .next t → t.ph = .busyEnc →
    i < encBlocks t → noResetAlong j t → Host.Core.run core j t = .next t' → t'.ph = .busyEnc →
    t'.nextAgent = .core → i' < encBlocks t' → i < blocksAlong j t + i' → Fresh bound (k + j + 1) s →
    (repeatBlocks (encBlock h) i (encStart t)).wc ≠ (repeatBlocks (encBlock h) i' (encStart t')).wc
end

