-- ==== Sys2Proof/Laws/State.lean ====
section
/-! SUPPORT. One lemma per field per update of the state, and what the byte views of the buffers depend on. -/
namespace Sys2Proof.Machine

/-! ### answer -/

@[simp] theorem answer_cfg (s : State) (r : BusReply) : (s.answer r).cfg = s.cfg := rfl
@[simp] theorem answer_key (s : State) (r : BusReply) : (s.answer r).key = s.key := rfl
@[simp] theorem answer_ctr (s : State) (r : BusReply) : (s.answer r).ctr = s.ctr := rfl
@[simp] theorem answer_seed (s : State) (r : BusReply) : (s.answer r).seed = s.seed := rfl
@[simp] theorem answer_ilen (s : State) (r : BusReply) : (s.answer r).ilen = s.ilen := rfl
@[simp] theorem answer_olen (s : State) (r : BusReply) : (s.answer r).olen = s.olen := rfl
@[simp] theorem answer_ph (s : State) (r : BusReply) : (s.answer r).ph = s.ph := rfl
@[simp] theorem answer_done (s : State) (r : BusReply) : (s.answer r).done = s.done := rfl
@[simp] theorem answer_rej (s : State) (r : BusReply) : (s.answer r).rej = s.rej := rfl
@[simp] theorem answer_err (s : State) (r : BusReply) : (s.answer r).err = s.err := rfl
@[simp] theorem answer_ecode (s : State) (r : BusReply) : (s.answer r).ecode = s.ecode := rfl
@[simp] theorem answer_ibuf (s : State) (r : BusReply) : (s.answer r).ibuf = s.ibuf := rfl
@[simp] theorem answer_obuf (s : State) (r : BusReply) : (s.answer r).obuf = s.obuf := rfl
@[simp] theorem answer_wc (s : State) (r : BusReply) : (s.answer r).wc = s.wc := rfl
@[simp] theorem answer_ax (s : State) (r : BusReply) : (s.answer r).ax = s.ax := rfl
@[simp] theorem answer_ay (s : State) (r : BusReply) : (s.answer r).ay = s.ay := rfl
@[simp] theorem answer_wrem (s : State) (r : BusReply) : (s.answer r).wrem = s.wrem := rfl
@[simp] theorem answer_bi (s : State) (r : BusReply) : (s.answer r).bi = s.bi := rfl
@[simp] theorem answer_epoch (s : State) (r : BusReply) : (s.answer r).epoch = s.epoch := rfl
@[simp] theorem answer_sched (s : State) (r : BusReply) : (s.answer r).sched = s.sched := rfl
@[simp] theorem answer_host (s : State) (r : BusReply) : (s.answer r).host = { s.host with reply := r } := rfl

/-! ### raiseBusError -/

@[simp] theorem raiseBusError_cfg (s : State) : (s.raiseBusError).cfg = s.cfg := rfl
@[simp] theorem raiseBusError_key (s : State) : (s.raiseBusError).key = s.key := rfl
@[simp] theorem raiseBusError_ctr (s : State) : (s.raiseBusError).ctr = s.ctr := rfl
@[simp] theorem raiseBusError_seed (s : State) : (s.raiseBusError).seed = s.seed := rfl
@[simp] theorem raiseBusError_ilen (s : State) : (s.raiseBusError).ilen = s.ilen := rfl
@[simp] theorem raiseBusError_olen (s : State) : (s.raiseBusError).olen = s.olen := rfl
@[simp] theorem raiseBusError_ph (s : State) : (s.raiseBusError).ph = s.ph := rfl
@[simp] theorem raiseBusError_done (s : State) : (s.raiseBusError).done = s.done := rfl
@[simp] theorem raiseBusError_rej (s : State) : (s.raiseBusError).rej = s.rej := rfl
@[simp] theorem raiseBusError_err (s : State) : (s.raiseBusError).err = s.err := rfl
@[simp] theorem raiseBusError_ecode (s : State) : (s.raiseBusError).ecode = s.ecode := rfl
@[simp] theorem raiseBusError_ibuf (s : State) : (s.raiseBusError).ibuf = s.ibuf := rfl
@[simp] theorem raiseBusError_obuf (s : State) : (s.raiseBusError).obuf = s.obuf := rfl
@[simp] theorem raiseBusError_wc (s : State) : (s.raiseBusError).wc = s.wc := rfl
@[simp] theorem raiseBusError_ax (s : State) : (s.raiseBusError).ax = s.ax := rfl
@[simp] theorem raiseBusError_ay (s : State) : (s.raiseBusError).ay = s.ay := rfl
@[simp] theorem raiseBusError_wrem (s : State) : (s.raiseBusError).wrem = s.wrem := rfl
@[simp] theorem raiseBusError_bi (s : State) : (s.raiseBusError).bi = s.bi := rfl
@[simp] theorem raiseBusError_epoch (s : State) : (s.raiseBusError).epoch = s.epoch := rfl
@[simp] theorem raiseBusError_sched (s : State) : (s.raiseBusError).sched = s.sched := rfl
@[simp] theorem raiseBusError_host (s : State) : (s.raiseBusError).host = { s.host with reply := .busError } := rfl

/-! ### clearFlags -/

@[simp] theorem clearFlags_cfg (s : State) : (s.clearFlags).cfg = s.cfg := rfl
@[simp] theorem clearFlags_key (s : State) : (s.clearFlags).key = s.key := rfl
@[simp] theorem clearFlags_ctr (s : State) : (s.clearFlags).ctr = s.ctr := rfl
@[simp] theorem clearFlags_seed (s : State) : (s.clearFlags).seed = s.seed := rfl
@[simp] theorem clearFlags_ilen (s : State) : (s.clearFlags).ilen = s.ilen := rfl
@[simp] theorem clearFlags_olen (s : State) : (s.clearFlags).olen = s.olen := rfl
@[simp] theorem clearFlags_ph (s : State) : (s.clearFlags).ph = s.ph := rfl
@[simp] theorem clearFlags_done (s : State) : (s.clearFlags).done = false := rfl
@[simp] theorem clearFlags_rej (s : State) : (s.clearFlags).rej = false := rfl
@[simp] theorem clearFlags_err (s : State) : (s.clearFlags).err = false := rfl
@[simp] theorem clearFlags_ecode (s : State) : (s.clearFlags).ecode = 0 := rfl
@[simp] theorem clearFlags_ibuf (s : State) : (s.clearFlags).ibuf = s.ibuf := rfl
@[simp] theorem clearFlags_obuf (s : State) : (s.clearFlags).obuf = s.obuf := rfl
@[simp] theorem clearFlags_wc (s : State) : (s.clearFlags).wc = s.wc := rfl
@[simp] theorem clearFlags_ax (s : State) : (s.clearFlags).ax = s.ax := rfl
@[simp] theorem clearFlags_ay (s : State) : (s.clearFlags).ay = s.ay := rfl
@[simp] theorem clearFlags_wrem (s : State) : (s.clearFlags).wrem = s.wrem := rfl
@[simp] theorem clearFlags_bi (s : State) : (s.clearFlags).bi = s.bi := rfl
@[simp] theorem clearFlags_epoch (s : State) : (s.clearFlags).epoch = s.epoch := rfl
@[simp] theorem clearFlags_sched (s : State) : (s.clearFlags).sched = s.sched := rfl
@[simp] theorem clearFlags_host (s : State) : (s.clearFlags).host = s.host := rfl

/-! ### finish -/

@[simp] theorem finish_cfg (s : State) : (s.finish).cfg = s.cfg := rfl
@[simp] theorem finish_key (s : State) : (s.finish).key = s.key := rfl
@[simp] theorem finish_ctr (s : State) : (s.finish).ctr = s.ctr := rfl
@[simp] theorem finish_seed (s : State) : (s.finish).seed = s.seed := rfl
@[simp] theorem finish_ilen (s : State) : (s.finish).ilen = s.ilen := rfl
@[simp] theorem finish_olen (s : State) : (s.finish).olen = s.olen := rfl
@[simp] theorem finish_ph (s : State) : (s.finish).ph = .idle := rfl
@[simp] theorem finish_done (s : State) : (s.finish).done = true := rfl
@[simp] theorem finish_rej (s : State) : (s.finish).rej = s.rej := rfl
@[simp] theorem finish_err (s : State) : (s.finish).err = s.err := rfl
@[simp] theorem finish_ecode (s : State) : (s.finish).ecode = s.ecode := rfl
@[simp] theorem finish_ibuf (s : State) : (s.finish).ibuf = s.ibuf := rfl
@[simp] theorem finish_obuf (s : State) : (s.finish).obuf = s.obuf := rfl
@[simp] theorem finish_wc (s : State) : (s.finish).wc = s.wc := rfl
@[simp] theorem finish_ax (s : State) : (s.finish).ax = s.ax := rfl
@[simp] theorem finish_ay (s : State) : (s.finish).ay = s.ay := rfl
@[simp] theorem finish_wrem (s : State) : (s.finish).wrem = s.wrem := rfl
@[simp] theorem finish_bi (s : State) : (s.finish).bi = s.bi := rfl
@[simp] theorem finish_epoch (s : State) : (s.finish).epoch = s.epoch := rfl
@[simp] theorem finish_sched (s : State) : (s.finish).sched = s.sched := rfl
@[simp] theorem finish_host (s : State) : (s.finish).host = s.host := rfl

/-! ### raiseCmdError -/

@[simp] theorem raiseCmdError_cfg (s : State) (c : BitVec 4) : (s.raiseCmdError c).cfg = s.cfg := rfl
@[simp] theorem raiseCmdError_key (s : State) (c : BitVec 4) : (s.raiseCmdError c).key = s.key := rfl
@[simp] theorem raiseCmdError_ctr (s : State) (c : BitVec 4) : (s.raiseCmdError c).ctr = s.ctr := rfl
@[simp] theorem raiseCmdError_seed (s : State) (c : BitVec 4) : (s.raiseCmdError c).seed = s.seed := rfl
@[simp] theorem raiseCmdError_ilen (s : State) (c : BitVec 4) : (s.raiseCmdError c).ilen = s.ilen := rfl
@[simp] theorem raiseCmdError_olen (s : State) (c : BitVec 4) : (s.raiseCmdError c).olen = s.olen := rfl
@[simp] theorem raiseCmdError_ph (s : State) (c : BitVec 4) : (s.raiseCmdError c).ph = s.ph := rfl
@[simp] theorem raiseCmdError_done (s : State) (c : BitVec 4) : (s.raiseCmdError c).done = false := rfl
@[simp] theorem raiseCmdError_rej (s : State) (c : BitVec 4) : (s.raiseCmdError c).rej = false := rfl
@[simp] theorem raiseCmdError_err (s : State) (c : BitVec 4) : (s.raiseCmdError c).err = true := rfl
@[simp] theorem raiseCmdError_ecode (s : State) (c : BitVec 4) : (s.raiseCmdError c).ecode = c := rfl
@[simp] theorem raiseCmdError_ibuf (s : State) (c : BitVec 4) : (s.raiseCmdError c).ibuf = s.ibuf := rfl
@[simp] theorem raiseCmdError_obuf (s : State) (c : BitVec 4) : (s.raiseCmdError c).obuf = s.obuf := rfl
@[simp] theorem raiseCmdError_wc (s : State) (c : BitVec 4) : (s.raiseCmdError c).wc = s.wc := rfl
@[simp] theorem raiseCmdError_ax (s : State) (c : BitVec 4) : (s.raiseCmdError c).ax = s.ax := rfl
@[simp] theorem raiseCmdError_ay (s : State) (c : BitVec 4) : (s.raiseCmdError c).ay = s.ay := rfl
@[simp] theorem raiseCmdError_wrem (s : State) (c : BitVec 4) : (s.raiseCmdError c).wrem = s.wrem := rfl
@[simp] theorem raiseCmdError_bi (s : State) (c : BitVec 4) : (s.raiseCmdError c).bi = s.bi := rfl
@[simp] theorem raiseCmdError_epoch (s : State) (c : BitVec 4) : (s.raiseCmdError c).epoch = s.epoch := rfl
@[simp] theorem raiseCmdError_sched (s : State) (c : BitVec 4) : (s.raiseCmdError c).sched = s.sched := rfl
@[simp] theorem raiseCmdError_host (s : State) (c : BitVec 4) : (s.raiseCmdError c).host = s.host := rfl

/-! ### raiseReject -/

@[simp] theorem raiseReject_cfg (s : State) : (s.raiseReject).cfg = s.cfg := rfl
@[simp] theorem raiseReject_key (s : State) : (s.raiseReject).key = s.key := rfl
@[simp] theorem raiseReject_ctr (s : State) : (s.raiseReject).ctr = s.ctr := rfl
@[simp] theorem raiseReject_seed (s : State) : (s.raiseReject).seed = s.seed := rfl
@[simp] theorem raiseReject_ilen (s : State) : (s.raiseReject).ilen = s.ilen := rfl
@[simp] theorem raiseReject_olen (s : State) : (s.raiseReject).olen = 0 := rfl
@[simp] theorem raiseReject_ph (s : State) : (s.raiseReject).ph = .idle := rfl
@[simp] theorem raiseReject_done (s : State) : (s.raiseReject).done = true := rfl
@[simp] theorem raiseReject_rej (s : State) : (s.raiseReject).rej = true := rfl
@[simp] theorem raiseReject_err (s : State) : (s.raiseReject).err = s.err := rfl
@[simp] theorem raiseReject_ecode (s : State) : (s.raiseReject).ecode = s.ecode := rfl
@[simp] theorem raiseReject_ibuf (s : State) : (s.raiseReject).ibuf = s.ibuf := rfl
@[simp] theorem raiseReject_obuf (s : State) : (s.raiseReject).obuf = s.obuf := rfl
@[simp] theorem raiseReject_wc (s : State) : (s.raiseReject).wc = s.wc := rfl
@[simp] theorem raiseReject_ax (s : State) : (s.raiseReject).ax = s.ax := rfl
@[simp] theorem raiseReject_ay (s : State) : (s.raiseReject).ay = s.ay := rfl
@[simp] theorem raiseReject_wrem (s : State) : (s.raiseReject).wrem = s.wrem := rfl
@[simp] theorem raiseReject_bi (s : State) : (s.raiseReject).bi = s.bi := rfl
@[simp] theorem raiseReject_epoch (s : State) : (s.raiseReject).epoch = s.epoch := rfl
@[simp] theorem raiseReject_sched (s : State) : (s.raiseReject).sched = s.sched := rfl
@[simp] theorem raiseReject_host (s : State) : (s.raiseReject).host = s.host := rfl

/-! ### memWrite -/

@[simp] theorem memWrite_cfg (s : State) (o : Nat) (v : List Byte) : (s.memWrite o v).cfg = s.cfg := rfl
@[simp] theorem memWrite_key (s : State) (o : Nat) (v : List Byte) : (s.memWrite o v).key = s.key := rfl
@[simp] theorem memWrite_ctr (s : State) (o : Nat) (v : List Byte) : (s.memWrite o v).ctr = s.ctr := rfl
@[simp] theorem memWrite_seed (s : State) (o : Nat) (v : List Byte) : (s.memWrite o v).seed = s.seed := rfl
@[simp] theorem memWrite_ilen (s : State) (o : Nat) (v : List Byte) : (s.memWrite o v).ilen = s.ilen := rfl
@[simp] theorem memWrite_olen (s : State) (o : Nat) (v : List Byte) : (s.memWrite o v).olen = s.olen := rfl
@[simp] theorem memWrite_ph (s : State) (o : Nat) (v : List Byte) : (s.memWrite o v).ph = s.ph := rfl
@[simp] theorem memWrite_done (s : State) (o : Nat) (v : List Byte) : (s.memWrite o v).done = s.done := rfl
@[simp] theorem memWrite_rej (s : State) (o : Nat) (v : List Byte) : (s.memWrite o v).rej = s.rej := rfl
@[simp] theorem memWrite_err (s : State) (o : Nat) (v : List Byte) : (s.memWrite o v).err = s.err := rfl
@[simp] theorem memWrite_ecode (s : State) (o : Nat) (v : List Byte) : (s.memWrite o v).ecode = s.ecode := rfl
@[simp] theorem memWrite_ibuf (s : State) (o : Nat) (v : List Byte) : (s.memWrite o v).ibuf = s.ibuf := rfl
@[simp] theorem memWrite_obuf (s : State) (o : Nat) (v : List Byte) : (s.memWrite o v).obuf = s.obuf.store o v := rfl
@[simp] theorem memWrite_wc (s : State) (o : Nat) (v : List Byte) : (s.memWrite o v).wc = s.wc := rfl
@[simp] theorem memWrite_ax (s : State) (o : Nat) (v : List Byte) : (s.memWrite o v).ax = s.ax := rfl
@[simp] theorem memWrite_ay (s : State) (o : Nat) (v : List Byte) : (s.memWrite o v).ay = s.ay := rfl
@[simp] theorem memWrite_wrem (s : State) (o : Nat) (v : List Byte) : (s.memWrite o v).wrem = s.wrem := rfl
@[simp] theorem memWrite_bi (s : State) (o : Nat) (v : List Byte) : (s.memWrite o v).bi = s.bi := rfl
@[simp] theorem memWrite_epoch (s : State) (o : Nat) (v : List Byte) : (s.memWrite o v).epoch = s.epoch := rfl
@[simp] theorem memWrite_sched (s : State) (o : Nat) (v : List Byte) : (s.memWrite o v).sched = s.sched := rfl
@[simp] theorem memWrite_host (s : State) (o : Nat) (v : List Byte) : (s.memWrite o v).host = s.host := rfl

/-! ### memWriteDWord -/

@[simp] theorem memWriteDWord_cfg (s : State) (o : Nat) (v : DWord) : (s.memWriteDWord o v).cfg = s.cfg := rfl
@[simp] theorem memWriteDWord_key (s : State) (o : Nat) (v : DWord) : (s.memWriteDWord o v).key = s.key := rfl
@[simp] theorem memWriteDWord_ctr (s : State) (o : Nat) (v : DWord) : (s.memWriteDWord o v).ctr = s.ctr := rfl
@[simp] theorem memWriteDWord_seed (s : State) (o : Nat) (v : DWord) : (s.memWriteDWord o v).seed = s.seed := rfl
@[simp] theorem memWriteDWord_ilen (s : State) (o : Nat) (v : DWord) : (s.memWriteDWord o v).ilen = s.ilen := rfl
@[simp] theorem memWriteDWord_olen (s : State) (o : Nat) (v : DWord) : (s.memWriteDWord o v).olen = s.olen := rfl
@[simp] theorem memWriteDWord_ph (s : State) (o : Nat) (v : DWord) : (s.memWriteDWord o v).ph = s.ph := rfl
@[simp] theorem memWriteDWord_done (s : State) (o : Nat) (v : DWord) : (s.memWriteDWord o v).done = s.done := rfl
@[simp] theorem memWriteDWord_rej (s : State) (o : Nat) (v : DWord) : (s.memWriteDWord o v).rej = s.rej := rfl
@[simp] theorem memWriteDWord_err (s : State) (o : Nat) (v : DWord) : (s.memWriteDWord o v).err = s.err := rfl
@[simp] theorem memWriteDWord_ecode (s : State) (o : Nat) (v : DWord) : (s.memWriteDWord o v).ecode = s.ecode := rfl
@[simp] theorem memWriteDWord_ibuf (s : State) (o : Nat) (v : DWord) : (s.memWriteDWord o v).ibuf = s.ibuf := rfl
@[simp] theorem memWriteDWord_obuf (s : State) (o : Nat) (v : DWord) : (s.memWriteDWord o v).obuf = s.obuf.store o (leBytes 8 v) := rfl
@[simp] theorem memWriteDWord_wc (s : State) (o : Nat) (v : DWord) : (s.memWriteDWord o v).wc = s.wc := rfl
@[simp] theorem memWriteDWord_ax (s : State) (o : Nat) (v : DWord) : (s.memWriteDWord o v).ax = s.ax := rfl
@[simp] theorem memWriteDWord_ay (s : State) (o : Nat) (v : DWord) : (s.memWriteDWord o v).ay = s.ay := rfl
@[simp] theorem memWriteDWord_wrem (s : State) (o : Nat) (v : DWord) : (s.memWriteDWord o v).wrem = s.wrem := rfl
@[simp] theorem memWriteDWord_bi (s : State) (o : Nat) (v : DWord) : (s.memWriteDWord o v).bi = s.bi := rfl
@[simp] theorem memWriteDWord_epoch (s : State) (o : Nat) (v : DWord) : (s.memWriteDWord o v).epoch = s.epoch := rfl
@[simp] theorem memWriteDWord_sched (s : State) (o : Nat) (v : DWord) : (s.memWriteDWord o v).sched = s.sched := rfl
@[simp] theorem memWriteDWord_host (s : State) (o : Nat) (v : DWord) : (s.memWriteDWord o v).host = s.host := rfl

/-! ### popSched -/

@[simp] theorem popSched_cfg (s : State) : (s.popSched).cfg = s.cfg := rfl
@[simp] theorem popSched_key (s : State) : (s.popSched).key = s.key := rfl
@[simp] theorem popSched_ctr (s : State) : (s.popSched).ctr = s.ctr := rfl
@[simp] theorem popSched_seed (s : State) : (s.popSched).seed = s.seed := rfl
@[simp] theorem popSched_ilen (s : State) : (s.popSched).ilen = s.ilen := rfl
@[simp] theorem popSched_olen (s : State) : (s.popSched).olen = s.olen := rfl
@[simp] theorem popSched_ph (s : State) : (s.popSched).ph = s.ph := rfl
@[simp] theorem popSched_done (s : State) : (s.popSched).done = s.done := rfl
@[simp] theorem popSched_rej (s : State) : (s.popSched).rej = s.rej := rfl
@[simp] theorem popSched_err (s : State) : (s.popSched).err = s.err := rfl
@[simp] theorem popSched_ecode (s : State) : (s.popSched).ecode = s.ecode := rfl
@[simp] theorem popSched_ibuf (s : State) : (s.popSched).ibuf = s.ibuf := rfl
@[simp] theorem popSched_obuf (s : State) : (s.popSched).obuf = s.obuf := rfl
@[simp] theorem popSched_wc (s : State) : (s.popSched).wc = s.wc := rfl
@[simp] theorem popSched_ax (s : State) : (s.popSched).ax = s.ax := rfl
@[simp] theorem popSched_ay (s : State) : (s.popSched).ay = s.ay := rfl
@[simp] theorem popSched_wrem (s : State) : (s.popSched).wrem = s.wrem := rfl
@[simp] theorem popSched_bi (s : State) : (s.popSched).bi = s.bi := rfl
@[simp] theorem popSched_epoch (s : State) : (s.popSched).epoch = s.epoch := rfl
@[simp] theorem popSched_sched (s : State) : (s.popSched).sched = s.sched.tail := rfl
@[simp] theorem popSched_host (s : State) : (s.popSched).host = s.host := rfl

/-! ### hostProgress -/

@[simp] theorem hostProgress_cfg (s : State) (l : Line) : (s.hostProgress l).cfg = s.cfg := rfl
@[simp] theorem hostProgress_key (s : State) (l : Line) : (s.hostProgress l).key = s.key := rfl
@[simp] theorem hostProgress_ctr (s : State) (l : Line) : (s.hostProgress l).ctr = s.ctr := rfl
@[simp] theorem hostProgress_seed (s : State) (l : Line) : (s.hostProgress l).seed = s.seed := rfl
@[simp] theorem hostProgress_ilen (s : State) (l : Line) : (s.hostProgress l).ilen = s.ilen := rfl
@[simp] theorem hostProgress_olen (s : State) (l : Line) : (s.hostProgress l).olen = s.olen := rfl
@[simp] theorem hostProgress_ph (s : State) (l : Line) : (s.hostProgress l).ph = s.ph := rfl
@[simp] theorem hostProgress_done (s : State) (l : Line) : (s.hostProgress l).done = s.done := rfl
@[simp] theorem hostProgress_rej (s : State) (l : Line) : (s.hostProgress l).rej = s.rej := rfl
@[simp] theorem hostProgress_err (s : State) (l : Line) : (s.hostProgress l).err = s.err := rfl
@[simp] theorem hostProgress_ecode (s : State) (l : Line) : (s.hostProgress l).ecode = s.ecode := rfl
@[simp] theorem hostProgress_ibuf (s : State) (l : Line) : (s.hostProgress l).ibuf = s.ibuf := rfl
@[simp] theorem hostProgress_obuf (s : State) (l : Line) : (s.hostProgress l).obuf = s.obuf := rfl
@[simp] theorem hostProgress_wc (s : State) (l : Line) : (s.hostProgress l).wc = s.wc := rfl
@[simp] theorem hostProgress_ax (s : State) (l : Line) : (s.hostProgress l).ax = s.ax := rfl
@[simp] theorem hostProgress_ay (s : State) (l : Line) : (s.hostProgress l).ay = s.ay := rfl
@[simp] theorem hostProgress_wrem (s : State) (l : Line) : (s.hostProgress l).wrem = s.wrem := rfl
@[simp] theorem hostProgress_bi (s : State) (l : Line) : (s.hostProgress l).bi = s.bi := rfl
@[simp] theorem hostProgress_epoch (s : State) (l : Line) : (s.hostProgress l).epoch = s.epoch := rfl
@[simp] theorem hostProgress_sched (s : State) (l : Line) : (s.hostProgress l).sched = s.sched := rfl
@[simp] theorem hostProgress_host (s : State) (l : Line) : (s.hostProgress l).host = s.host.progress l := rfl

/-! ### captureReply -/

@[simp] theorem captureReply_cfg (s : State) (l : Line) : (captureReply l s).cfg = s.cfg := rfl
@[simp] theorem captureReply_key (s : State) (l : Line) : (captureReply l s).key = s.key := rfl
@[simp] theorem captureReply_ctr (s : State) (l : Line) : (captureReply l s).ctr = s.ctr := rfl
@[simp] theorem captureReply_seed (s : State) (l : Line) : (captureReply l s).seed = s.seed := rfl
@[simp] theorem captureReply_ilen (s : State) (l : Line) : (captureReply l s).ilen = s.ilen := rfl
@[simp] theorem captureReply_olen (s : State) (l : Line) : (captureReply l s).olen = s.olen := rfl
@[simp] theorem captureReply_ph (s : State) (l : Line) : (captureReply l s).ph = s.ph := rfl
@[simp] theorem captureReply_done (s : State) (l : Line) : (captureReply l s).done = s.done := rfl
@[simp] theorem captureReply_rej (s : State) (l : Line) : (captureReply l s).rej = s.rej := rfl
@[simp] theorem captureReply_err (s : State) (l : Line) : (captureReply l s).err = s.err := rfl
@[simp] theorem captureReply_ecode (s : State) (l : Line) : (captureReply l s).ecode = s.ecode := rfl
@[simp] theorem captureReply_ibuf (s : State) (l : Line) : (captureReply l s).ibuf = s.ibuf := rfl
@[simp] theorem captureReply_obuf (s : State) (l : Line) : (captureReply l s).obuf = s.obuf := rfl
@[simp] theorem captureReply_wc (s : State) (l : Line) : (captureReply l s).wc = s.wc := rfl
@[simp] theorem captureReply_ax (s : State) (l : Line) : (captureReply l s).ax = s.ax := rfl
@[simp] theorem captureReply_ay (s : State) (l : Line) : (captureReply l s).ay = s.ay := rfl
@[simp] theorem captureReply_wrem (s : State) (l : Line) : (captureReply l s).wrem = s.wrem := rfl
@[simp] theorem captureReply_bi (s : State) (l : Line) : (captureReply l s).bi = s.bi := rfl
@[simp] theorem captureReply_epoch (s : State) (l : Line) : (captureReply l s).epoch = s.epoch := rfl
@[simp] theorem captureReply_sched (s : State) (l : Line) : (captureReply l s).sched = s.sched := rfl
@[simp] theorem captureReply_host (s : State) (l : Line) : (captureReply l s).host = s.host.capture l := rfl

/-! ### envReset -/

@[simp] theorem envReset_cfg (s : State) : (s.envReset).cfg = s.cfg := rfl
@[simp] theorem envReset_key (s : State) : (s.envReset).key = State.reset.key := rfl
@[simp] theorem envReset_ctr (s : State) : (s.envReset).ctr = State.reset.ctr := rfl
@[simp] theorem envReset_seed (s : State) : (s.envReset).seed = State.reset.seed := rfl
@[simp] theorem envReset_ilen (s : State) : (s.envReset).ilen = State.reset.ilen := rfl
@[simp] theorem envReset_olen (s : State) : (s.envReset).olen = State.reset.olen := rfl
@[simp] theorem envReset_ph (s : State) : (s.envReset).ph = State.reset.ph := rfl
@[simp] theorem envReset_done (s : State) : (s.envReset).done = State.reset.done := rfl
@[simp] theorem envReset_rej (s : State) : (s.envReset).rej = State.reset.rej := rfl
@[simp] theorem envReset_err (s : State) : (s.envReset).err = State.reset.err := rfl
@[simp] theorem envReset_ecode (s : State) : (s.envReset).ecode = State.reset.ecode := rfl
@[simp] theorem envReset_ibuf (s : State) : (s.envReset).ibuf = State.reset.ibuf := rfl
@[simp] theorem envReset_obuf (s : State) : (s.envReset).obuf = State.reset.obuf := rfl
@[simp] theorem envReset_wc (s : State) : (s.envReset).wc = State.reset.wc := rfl
@[simp] theorem envReset_ax (s : State) : (s.envReset).ax = State.reset.ax := rfl
@[simp] theorem envReset_ay (s : State) : (s.envReset).ay = State.reset.ay := rfl
@[simp] theorem envReset_wrem (s : State) : (s.envReset).wrem = State.reset.wrem := rfl
@[simp] theorem envReset_bi (s : State) : (s.envReset).bi = State.reset.bi := rfl
@[simp] theorem envReset_epoch (s : State) : (s.envReset).epoch = s.epoch + 1 := rfl
@[simp] theorem envReset_sched (s : State) : (s.envReset).sched = s.sched := rfl
@[simp] theorem envReset_host (s : State) : (s.envReset).host = s.host := rfl

/-! ### The byte views depend on their buffer, the reset count and, gated, on OLEN -/

theorem ibufByte_congr {s t : State} (h : s.ibuf = t.ibuf) (e : s.epoch = t.epoch) (a : Nat) :
    s.ibufByte a = t.ibufByte a := by
  simp [State.ibufByte, h, e]

theorem obufByte_congr {s t : State} (h : s.obuf = t.obuf) (e : s.epoch = t.epoch) (a : Nat) :
    s.obufByte a = t.obufByte a := by
  simp [State.obufByte, h, e]

theorem gatedByte_congr {s t : State} (h : s.obuf = t.obuf) (e : s.epoch = t.epoch) (o : s.olen = t.olen) (a : Nat) :
    s.gatedByte a = t.gatedByte a := by
  simp [State.gatedByte, o, obufByte_congr h e]

theorem memRead_congr {s t : State} (h : s.ibuf = t.ibuf) (e : s.epoch = t.epoch) (o n : Nat) :
    s.memRead o n = t.memRead o n := by
  simp [State.memRead, ibufByte_congr h e]

@[simp] theorem memRead_length (s : State) (o n : Nat) : (s.memRead o n).length = n := by
  simp [State.memRead]

end Sys2Proof.Machine
end

