-- ==== Sys2Proof/Laws/PipelineFields.lean ====
section
/-! SUPPORT. One lemma per field per pipeline step of INIT, ENCODE and DECODE. -/
namespace Sys2Proof.Machine

/-! ### initComplete -/

@[simp] theorem initComplete_cfg (s : State) : (initComplete s).cfg = s.cfg := rfl
@[simp] theorem initComplete_key (s : State) : (initComplete s).key = s.key := rfl
@[simp] theorem initComplete_ctr (s : State) : (initComplete s).ctr = s.seed := rfl
@[simp] theorem initComplete_seed (s : State) : (initComplete s).seed = s.seed := rfl
@[simp] theorem initComplete_ilen (s : State) : (initComplete s).ilen = s.ilen := rfl
@[simp] theorem initComplete_olen (s : State) : (initComplete s).olen = 0 := rfl
@[simp] theorem initComplete_ph (s : State) : (initComplete s).ph = .idle := rfl
@[simp] theorem initComplete_done (s : State) : (initComplete s).done = true := rfl
@[simp] theorem initComplete_rej (s : State) : (initComplete s).rej = false := rfl
@[simp] theorem initComplete_err (s : State) : (initComplete s).err = s.err := rfl
@[simp] theorem initComplete_ecode (s : State) : (initComplete s).ecode = s.ecode := rfl
@[simp] theorem initComplete_ibuf (s : State) : (initComplete s).ibuf = s.ibuf := rfl
@[simp] theorem initComplete_obuf (s : State) : (initComplete s).obuf = s.obuf := rfl
@[simp] theorem initComplete_wc (s : State) : (initComplete s).wc = s.wc := rfl
@[simp] theorem initComplete_ax (s : State) : (initComplete s).ax = s.ax := rfl
@[simp] theorem initComplete_ay (s : State) : (initComplete s).ay = s.ay := rfl
@[simp] theorem initComplete_wrem (s : State) : (initComplete s).wrem = s.wrem := rfl
@[simp] theorem initComplete_bi (s : State) : (initComplete s).bi = s.bi := rfl
@[simp] theorem initComplete_epoch (s : State) : (initComplete s).epoch = s.epoch := rfl
@[simp] theorem initComplete_sched (s : State) : (initComplete s).sched = s.sched := rfl
@[simp] theorem initComplete_host (s : State) : (initComplete s).host = s.host := rfl

/-! ### encStart -/

@[simp] theorem encStart_cfg (s : State) : (encStart s).cfg = s.cfg := rfl
@[simp] theorem encStart_key (s : State) : (encStart s).key = s.key := rfl
@[simp] theorem encStart_ctr (s : State) : (encStart s).ctr = s.ctr := rfl
@[simp] theorem encStart_seed (s : State) : (encStart s).seed = s.seed := rfl
@[simp] theorem encStart_ilen (s : State) : (encStart s).ilen = s.ilen := rfl
@[simp] theorem encStart_olen (s : State) : (encStart s).olen = s.olen := rfl
@[simp] theorem encStart_ph (s : State) : (encStart s).ph = s.ph := rfl
@[simp] theorem encStart_done (s : State) : (encStart s).done = s.done := rfl
@[simp] theorem encStart_rej (s : State) : (encStart s).rej = s.rej := rfl
@[simp] theorem encStart_err (s : State) : (encStart s).err = s.err := rfl
@[simp] theorem encStart_ecode (s : State) : (encStart s).ecode = s.ecode := rfl
@[simp] theorem encStart_ibuf (s : State) : (encStart s).ibuf = s.ibuf := rfl
@[simp] theorem encStart_obuf (s : State) : (encStart s).obuf = s.obuf.store 0 (leBytes 8 (packHeader (maskCounter s.ctr) (lengthRem s.ilen))) := rfl
@[simp] theorem encStart_wc (s : State) : (encStart s).wc = maskCounter s.ctr := rfl
@[simp] theorem encStart_ax (s : State) : (encStart s).ax = (halves (maskCounter s.ctr)).1 := rfl
@[simp] theorem encStart_ay (s : State) : (encStart s).ay = (halves (maskCounter s.ctr)).2 := rfl
@[simp] theorem encStart_wrem (s : State) : (encStart s).wrem = lengthRem s.ilen := rfl
@[simp] theorem encStart_bi (s : State) : (encStart s).bi = 0 := rfl
@[simp] theorem encStart_epoch (s : State) : (encStart s).epoch = s.epoch := rfl
@[simp] theorem encStart_sched (s : State) : (encStart s).sched = s.sched := rfl
@[simp] theorem encStart_host (s : State) : (encStart s).host = s.host := rfl

/-! ### encBlock -/

@[simp] theorem encBlock_cfg (s : State) (h : BlockFn) : (encBlock h s).cfg = s.cfg := rfl
@[simp] theorem encBlock_key (s : State) (h : BlockFn) : (encBlock h s).key = s.key := rfl
@[simp] theorem encBlock_ctr (s : State) (h : BlockFn) : (encBlock h s).ctr = s.ctr := rfl
@[simp] theorem encBlock_seed (s : State) (h : BlockFn) : (encBlock h s).seed = s.seed := rfl
@[simp] theorem encBlock_ilen (s : State) (h : BlockFn) : (encBlock h s).ilen = s.ilen := rfl
@[simp] theorem encBlock_olen (s : State) (h : BlockFn) : (encBlock h s).olen = s.olen := rfl
@[simp] theorem encBlock_ph (s : State) (h : BlockFn) : (encBlock h s).ph = s.ph := rfl
@[simp] theorem encBlock_done (s : State) (h : BlockFn) : (encBlock h s).done = s.done := rfl
@[simp] theorem encBlock_rej (s : State) (h : BlockFn) : (encBlock h s).rej = s.rej := rfl
@[simp] theorem encBlock_err (s : State) (h : BlockFn) : (encBlock h s).err = s.err := rfl
@[simp] theorem encBlock_ecode (s : State) (h : BlockFn) : (encBlock h s).ecode = s.ecode := rfl
@[simp] theorem encBlock_ibuf (s : State) (h : BlockFn) : (encBlock h s).ibuf = s.ibuf := rfl
@[simp] theorem encBlock_obuf (s : State) (h : BlockFn) : (encBlock h s).obuf = s.obuf.store (8 + 8 * s.bi) (leBytes 8 (join s.cfg.pairOrder (encCipher h s))) := rfl
@[simp] theorem encBlock_wc (s : State) (h : BlockFn) : (encBlock h s).wc = s.wc + 1 := rfl
@[simp] theorem encBlock_ax (s : State) (h : BlockFn) : (encBlock h s).ax = (foldTag h s (encCipher h s)).1 := rfl
@[simp] theorem encBlock_ay (s : State) (h : BlockFn) : (encBlock h s).ay = (foldTag h s (encCipher h s)).2 := rfl
@[simp] theorem encBlock_wrem (s : State) (h : BlockFn) : (encBlock h s).wrem = s.wrem := rfl
@[simp] theorem encBlock_bi (s : State) (h : BlockFn) : (encBlock h s).bi = s.bi + 1 := rfl
@[simp] theorem encBlock_epoch (s : State) (h : BlockFn) : (encBlock h s).epoch = s.epoch := rfl
@[simp] theorem encBlock_sched (s : State) (h : BlockFn) : (encBlock h s).sched = s.sched := rfl
@[simp] theorem encBlock_host (s : State) (h : BlockFn) : (encBlock h s).host = s.host := rfl

/-! ### encTag -/

@[simp] theorem encTag_cfg (s : State) : (encTag s).cfg = s.cfg := rfl
@[simp] theorem encTag_key (s : State) : (encTag s).key = s.key := rfl
@[simp] theorem encTag_ctr (s : State) : (encTag s).ctr = s.ctr := rfl
@[simp] theorem encTag_seed (s : State) : (encTag s).seed = s.seed := rfl
@[simp] theorem encTag_ilen (s : State) : (encTag s).ilen = s.ilen := rfl
@[simp] theorem encTag_olen (s : State) : (encTag s).olen = s.olen := rfl
@[simp] theorem encTag_ph (s : State) : (encTag s).ph = s.ph := rfl
@[simp] theorem encTag_done (s : State) : (encTag s).done = s.done := rfl
@[simp] theorem encTag_rej (s : State) : (encTag s).rej = s.rej := rfl
@[simp] theorem encTag_err (s : State) : (encTag s).err = s.err := rfl
@[simp] theorem encTag_ecode (s : State) : (encTag s).ecode = s.ecode := rfl
@[simp] theorem encTag_ibuf (s : State) : (encTag s).ibuf = s.ibuf := rfl
@[simp] theorem encTag_obuf (s : State) : (encTag s).obuf = s.obuf.store (8 + 8 * encBlocks s) (leBytes 8 (join s.cfg.pairOrder (s.ax, s.ay))) := rfl
@[simp] theorem encTag_wc (s : State) : (encTag s).wc = s.wc := rfl
@[simp] theorem encTag_ax (s : State) : (encTag s).ax = s.ax := rfl
@[simp] theorem encTag_ay (s : State) : (encTag s).ay = s.ay := rfl
@[simp] theorem encTag_wrem (s : State) : (encTag s).wrem = s.wrem := rfl
@[simp] theorem encTag_bi (s : State) : (encTag s).bi = s.bi := rfl
@[simp] theorem encTag_epoch (s : State) : (encTag s).epoch = s.epoch := rfl
@[simp] theorem encTag_sched (s : State) : (encTag s).sched = s.sched := rfl
@[simp] theorem encTag_host (s : State) : (encTag s).host = s.host := rfl

/-! ### encFinish -/

@[simp] theorem encFinish_cfg (s : State) : (encFinish s).cfg = s.cfg := rfl
@[simp] theorem encFinish_key (s : State) : (encFinish s).key = s.key := rfl
@[simp] theorem encFinish_ctr (s : State) : (encFinish s).ctr = s.wc := rfl
@[simp] theorem encFinish_seed (s : State) : (encFinish s).seed = s.seed := rfl
@[simp] theorem encFinish_ilen (s : State) : (encFinish s).ilen = s.ilen := rfl
@[simp] theorem encFinish_olen (s : State) : (encFinish s).olen = BitVec.ofNat 32 (16 + 8 * encBlocks s) := rfl
@[simp] theorem encFinish_ph (s : State) : (encFinish s).ph = .idle := rfl
@[simp] theorem encFinish_done (s : State) : (encFinish s).done = true := rfl
@[simp] theorem encFinish_rej (s : State) : (encFinish s).rej = s.rej := rfl
@[simp] theorem encFinish_err (s : State) : (encFinish s).err = s.err := rfl
@[simp] theorem encFinish_ecode (s : State) : (encFinish s).ecode = s.ecode := rfl
@[simp] theorem encFinish_ibuf (s : State) : (encFinish s).ibuf = s.ibuf := rfl
@[simp] theorem encFinish_obuf (s : State) : (encFinish s).obuf = s.obuf := rfl
@[simp] theorem encFinish_wc (s : State) : (encFinish s).wc = s.wc := rfl
@[simp] theorem encFinish_ax (s : State) : (encFinish s).ax = s.ax := rfl
@[simp] theorem encFinish_ay (s : State) : (encFinish s).ay = s.ay := rfl
@[simp] theorem encFinish_wrem (s : State) : (encFinish s).wrem = s.wrem := rfl
@[simp] theorem encFinish_bi (s : State) : (encFinish s).bi = s.bi := rfl
@[simp] theorem encFinish_epoch (s : State) : (encFinish s).epoch = s.epoch := rfl
@[simp] theorem encFinish_sched (s : State) : (encFinish s).sched = s.sched := rfl
@[simp] theorem encFinish_host (s : State) : (encFinish s).host = s.host := rfl

/-! ### decHeader -/

@[simp] theorem decHeader_cfg (s : State) : (decHeader s).cfg = s.cfg := rfl
@[simp] theorem decHeader_key (s : State) : (decHeader s).key = s.key := rfl
@[simp] theorem decHeader_ctr (s : State) : (decHeader s).ctr = s.ctr := rfl
@[simp] theorem decHeader_seed (s : State) : (decHeader s).seed = s.seed := rfl
@[simp] theorem decHeader_ilen (s : State) : (decHeader s).ilen = s.ilen := rfl
@[simp] theorem decHeader_olen (s : State) : (decHeader s).olen = s.olen := rfl
@[simp] theorem decHeader_ph (s : State) : (decHeader s).ph = s.ph := rfl
@[simp] theorem decHeader_done (s : State) : (decHeader s).done = s.done := rfl
@[simp] theorem decHeader_rej (s : State) : (decHeader s).rej = s.rej := rfl
@[simp] theorem decHeader_err (s : State) : (decHeader s).err = s.err := rfl
@[simp] theorem decHeader_ecode (s : State) : (decHeader s).ecode = s.ecode := rfl
@[simp] theorem decHeader_ibuf (s : State) : (decHeader s).ibuf = s.ibuf := rfl
@[simp] theorem decHeader_obuf (s : State) : (decHeader s).obuf = s.obuf := rfl
@[simp] theorem decHeader_wc (s : State) : (decHeader s).wc = headerCounter (s.memReadDWord 0) := rfl
@[simp] theorem decHeader_ax (s : State) : (decHeader s).ax = s.ax := rfl
@[simp] theorem decHeader_ay (s : State) : (decHeader s).ay = s.ay := rfl
@[simp] theorem decHeader_wrem (s : State) : (decHeader s).wrem = headerRem (s.memReadDWord 0) := rfl
@[simp] theorem decHeader_bi (s : State) : (decHeader s).bi = s.bi := rfl
@[simp] theorem decHeader_epoch (s : State) : (decHeader s).epoch = s.epoch := rfl
@[simp] theorem decHeader_sched (s : State) : (decHeader s).sched = s.sched := rfl
@[simp] theorem decHeader_host (s : State) : (decHeader s).host = s.host := rfl

/-! ### decStart -/

@[simp] theorem decStart_cfg (s : State) : (decStart s).cfg = s.cfg := rfl
@[simp] theorem decStart_key (s : State) : (decStart s).key = s.key := rfl
@[simp] theorem decStart_ctr (s : State) : (decStart s).ctr = s.ctr := rfl
@[simp] theorem decStart_seed (s : State) : (decStart s).seed = s.seed := rfl
@[simp] theorem decStart_ilen (s : State) : (decStart s).ilen = s.ilen := rfl
@[simp] theorem decStart_olen (s : State) : (decStart s).olen = s.olen := rfl
@[simp] theorem decStart_ph (s : State) : (decStart s).ph = s.ph := rfl
@[simp] theorem decStart_done (s : State) : (decStart s).done = s.done := rfl
@[simp] theorem decStart_rej (s : State) : (decStart s).rej = s.rej := rfl
@[simp] theorem decStart_err (s : State) : (decStart s).err = s.err := rfl
@[simp] theorem decStart_ecode (s : State) : (decStart s).ecode = s.ecode := rfl
@[simp] theorem decStart_ibuf (s : State) : (decStart s).ibuf = s.ibuf := rfl
@[simp] theorem decStart_obuf (s : State) : (decStart s).obuf = s.obuf := rfl
@[simp] theorem decStart_wc (s : State) : (decStart s).wc = s.wc := rfl
@[simp] theorem decStart_ax (s : State) : (decStart s).ax = (halves s.wc).1 := rfl
@[simp] theorem decStart_ay (s : State) : (decStart s).ay = (halves s.wc).2 := rfl
@[simp] theorem decStart_wrem (s : State) : (decStart s).wrem = s.wrem := rfl
@[simp] theorem decStart_bi (s : State) : (decStart s).bi = 0 := rfl
@[simp] theorem decStart_epoch (s : State) : (decStart s).epoch = s.epoch := rfl
@[simp] theorem decStart_sched (s : State) : (decStart s).sched = s.sched := rfl
@[simp] theorem decStart_host (s : State) : (decStart s).host = s.host := rfl

/-! ### decBlock -/

@[simp] theorem decBlock_cfg (s : State) (h : BlockFn) : (decBlock h s).cfg = s.cfg := rfl
@[simp] theorem decBlock_key (s : State) (h : BlockFn) : (decBlock h s).key = s.key := rfl
@[simp] theorem decBlock_ctr (s : State) (h : BlockFn) : (decBlock h s).ctr = s.ctr := rfl
@[simp] theorem decBlock_seed (s : State) (h : BlockFn) : (decBlock h s).seed = s.seed := rfl
@[simp] theorem decBlock_ilen (s : State) (h : BlockFn) : (decBlock h s).ilen = s.ilen := rfl
@[simp] theorem decBlock_olen (s : State) (h : BlockFn) : (decBlock h s).olen = s.olen := rfl
@[simp] theorem decBlock_ph (s : State) (h : BlockFn) : (decBlock h s).ph = s.ph := rfl
@[simp] theorem decBlock_done (s : State) (h : BlockFn) : (decBlock h s).done = s.done := rfl
@[simp] theorem decBlock_rej (s : State) (h : BlockFn) : (decBlock h s).rej = s.rej := rfl
@[simp] theorem decBlock_err (s : State) (h : BlockFn) : (decBlock h s).err = s.err := rfl
@[simp] theorem decBlock_ecode (s : State) (h : BlockFn) : (decBlock h s).ecode = s.ecode := rfl
@[simp] theorem decBlock_ibuf (s : State) (h : BlockFn) : (decBlock h s).ibuf = s.ibuf := rfl
@[simp] theorem decBlock_obuf (s : State) (h : BlockFn) : (decBlock h s).obuf = s.obuf.store (8 * s.bi) (leBytes 8 (join s.cfg.pairOrder (xorPair (keystream h s) (decCipher s)))) := rfl
@[simp] theorem decBlock_wc (s : State) (h : BlockFn) : (decBlock h s).wc = s.wc + 1 := rfl
@[simp] theorem decBlock_ax (s : State) (h : BlockFn) : (decBlock h s).ax = (foldTag h s (decCipher s)).1 := rfl
@[simp] theorem decBlock_ay (s : State) (h : BlockFn) : (decBlock h s).ay = (foldTag h s (decCipher s)).2 := rfl
@[simp] theorem decBlock_wrem (s : State) (h : BlockFn) : (decBlock h s).wrem = s.wrem := rfl
@[simp] theorem decBlock_bi (s : State) (h : BlockFn) : (decBlock h s).bi = s.bi + 1 := rfl
@[simp] theorem decBlock_epoch (s : State) (h : BlockFn) : (decBlock h s).epoch = s.epoch := rfl
@[simp] theorem decBlock_sched (s : State) (h : BlockFn) : (decBlock h s).sched = s.sched := rfl
@[simp] theorem decBlock_host (s : State) (h : BlockFn) : (decBlock h s).host = s.host := rfl

/-! ### decAccept -/

@[simp] theorem decAccept_cfg (s : State) : (decAccept s).cfg = s.cfg := rfl
@[simp] theorem decAccept_key (s : State) : (decAccept s).key = s.key := rfl
@[simp] theorem decAccept_ctr (s : State) : (decAccept s).ctr = s.ctr := rfl
@[simp] theorem decAccept_seed (s : State) : (decAccept s).seed = s.seed := rfl
@[simp] theorem decAccept_ilen (s : State) : (decAccept s).ilen = s.ilen := rfl
@[simp] theorem decAccept_olen (s : State) : (decAccept s).olen = BitVec.ofNat 32 (plainLength s.ilen.toNat s.wrem) := rfl
@[simp] theorem decAccept_ph (s : State) : (decAccept s).ph = .idle := rfl
@[simp] theorem decAccept_done (s : State) : (decAccept s).done = true := rfl
@[simp] theorem decAccept_rej (s : State) : (decAccept s).rej = false := rfl
@[simp] theorem decAccept_err (s : State) : (decAccept s).err = s.err := rfl
@[simp] theorem decAccept_ecode (s : State) : (decAccept s).ecode = s.ecode := rfl
@[simp] theorem decAccept_ibuf (s : State) : (decAccept s).ibuf = s.ibuf := rfl
@[simp] theorem decAccept_obuf (s : State) : (decAccept s).obuf = s.obuf := rfl
@[simp] theorem decAccept_wc (s : State) : (decAccept s).wc = s.wc := rfl
@[simp] theorem decAccept_ax (s : State) : (decAccept s).ax = s.ax := rfl
@[simp] theorem decAccept_ay (s : State) : (decAccept s).ay = s.ay := rfl
@[simp] theorem decAccept_wrem (s : State) : (decAccept s).wrem = s.wrem := rfl
@[simp] theorem decAccept_bi (s : State) : (decAccept s).bi = s.bi := rfl
@[simp] theorem decAccept_epoch (s : State) : (decAccept s).epoch = s.epoch := rfl
@[simp] theorem decAccept_sched (s : State) : (decAccept s).sched = s.sched := rfl
@[simp] theorem decAccept_host (s : State) : (decAccept s).host = s.host := rfl

end Sys2Proof.Machine
end

