-- ==== Sys2Proof/Laws/Commands.lean ====
section
/-! SUPPORT. What one step of a command can do: the cases of `advanceCommand`, `issue` and `exec`, each said once. -/
namespace Sys2Proof.Machine

/-! ### Phases -/

@[simp] theorem busyPhase_busy (i : Instr) : (busyPhase i).busy = true := by cases i <;> rfl

@[simp] theorem issuePhase_busy (i : Instr) : (issuePhase i).busy = false := by cases i <;> rfl

theorem not_busy_iff {p : Phase} : p.busy = false ↔ p = .unkeyed ∨ p = .idle := by cases p <;> simp [Phase.busy]

theorem busy_iff {p : Phase} : p.busy = true ↔ ∃ i, p = busyPhase i := by
  constructor
  · cases p <;> intro h
    · cases h
    · exact ⟨.init, rfl⟩
    · cases h
    · exact ⟨.encode, rfl⟩
    · exact ⟨.decode, rfl⟩
  · rintro ⟨i, rfl⟩
    simp

theorem busyPhase_injective {i j : Instr} (h : busyPhase i = busyPhase j) : i = j := by
  cases i <;> cases j <;> simp_all [busyPhase]

theorem ne_busyPhase_of_not_busy {p : Phase} (h : p.busy = false) (i : Instr) : p ≠ busyPhase i := by
  rintro rfl
  simp at h

@[simp] theorem pending_busyPhase (i : Instr) : (busyPhase i).pending = some i := by cases i <;> rfl

theorem pending_of_not_busy {p : Phase} (h : p.busy = false) : p.pending = none := by
  cases p <;> simp_all [Phase.busy, Phase.pending]

@[simp] theorem settled_busy (p : Phase) : p.settled.busy = false := by cases p <;> rfl

/-- A flag's word has the flag in bit 0 and zeros above. -/
theorem flagBit_getLsbD (b : Bool) (i : Nat) : (flagBit b).getLsbD i = (b && decide (i = 0)) := by
  cases b <;> simp [flagBit, BitVec.getLsbD_one]

/-! ### Issue (40_command_issue_and_init.md rules R71, R72) -/

/-- An issue attempt is refused with `E_STATE` or `E_LEN`, or enters the busy phase; either way the flags were cleared. -/
theorem issue_cases (i : Instr) (s : State) :
    (∃ c, (c = eState ∨ c = eLen) ∧ issueCheckInstr s i = some c ∧ issue i s = s.raiseCmdError c) ∨
      (s.ph = issuePhase i ∧ lengthRefused s i = false ∧
        issue i s = { s.clearFlags with ph := busyPhase i }) := by
  unfold issue issueCheckInstr
  split_ifs with h1 h2
  · exact .inl ⟨eState, .inl rfl, rfl, rfl⟩
  · exact .inl ⟨eLen, .inr rfl, rfl, rfl⟩
  · exact .inr ⟨not_not.mp h1, Bool.eq_false_iff.mpr h2, rfl⟩

/-! ### `exec` -/

/-- While not busy, a command's step is its issue attempt. -/
theorem exec_of_not_busy {s : State} (h : s.ph.busy = false) (i : Instr) : exec i s = .next (issue i s) := by
  have hn := ne_busyPhase_of_not_busy h i
  cases i <;> simp only [exec, execInit, execEncode, execDecode, advanceCommand, if_neg hn, h] <;> rfl

/-- While another command is pending, a command's step is a bus error. -/
theorem exec_of_other_busy {s : State} {i : Instr} (h : s.ph.busy = true) (hn : s.ph ≠ busyPhase i) :
    exec i s = .next s.raiseBusError := by
  cases i <;> simp only [exec, execInit, execEncode, execDecode, advanceCommand, if_neg hn, h] <;> rfl

theorem exec_init_of_pending {s : State} (h : s.ph = .busyInit) : exec .init s = .next (initComplete s) := by
  simp [exec, execInit, advanceCommand, h, busyPhase]

theorem exec_encode_of_pending {s : State} (h : s.ph = .busyEnc) :
    exec .encode s =
      if frameLength s.ilen.toNat ≤ s.cfg.bufsz then .next (encodeComplete (applyPrimitive s.cfg.prim) s)
      else .fault .coreOutOfBuffer := by
  simp [exec, execEncode, advanceCommand, h, busyPhase]

theorem exec_decode_of_pending {s : State} (h : s.ph = .busyDec) :
    exec .decode s =
      if decCheck s = false ∨ s.ilen.toNat ≤ s.cfg.bufsz then
        .next (decodeComplete (applyPrimitive s.cfg.prim) s)
      else .fault .coreOutOfBuffer := by
  simp [exec, execDecode, advanceCommand, h, busyPhase]

/-- Everything a command's step can lead to: its issue, a bus error, or the completion of that command. -/
theorem exec_next_cases {i : Instr} {s t : State} (h : exec i s = .next t) :
    (s.ph.busy = false ∧ t = issue i s) ∨
      (s.ph.busy = true ∧ s.ph ≠ busyPhase i ∧ t = s.raiseBusError) ∨
      (i = .init ∧ s.ph = .busyInit ∧ t = initComplete s) ∨
      (i = .encode ∧ s.ph = .busyEnc ∧ frameLength s.ilen.toNat ≤ s.cfg.bufsz ∧
        t = encodeComplete (applyPrimitive s.cfg.prim) s) ∨
      (i = .decode ∧ s.ph = .busyDec ∧ (decCheck s = false ∨ s.ilen.toNat ≤ s.cfg.bufsz) ∧
        t = decodeComplete (applyPrimitive s.cfg.prim) s) := by
  rcases hb : s.ph.busy with _ | _
  · rw [exec_of_not_busy hb] at h
    exact .inl ⟨rfl, (Host.Outcome.next.inj h).symm⟩
  · by_cases hp : s.ph = busyPhase i
    · cases i with
      | init =>
        rw [exec_init_of_pending hp] at h
        exact .inr (.inr (.inl ⟨rfl, hp, (Host.Outcome.next.inj h).symm⟩))
      | encode =>
        rw [exec_encode_of_pending hp] at h
        split_ifs at h with hf
        exact .inr (.inr (.inr (.inl ⟨rfl, hp, hf, (Host.Outcome.next.inj h).symm⟩)))
      | decode =>
        rw [exec_decode_of_pending hp] at h
        split_ifs at h with hf
        exact .inr (.inr (.inr (.inr ⟨rfl, hp, hf, (Host.Outcome.next.inj h).symm⟩)))
    · rw [exec_of_other_busy hb hp] at h
      exact .inr (.inl ⟨rfl, hp, (Host.Outcome.next.inj h).symm⟩)

end Sys2Proof.Machine
end

