-- ==== Sys2Proof/Laws/Operands.lean ====
section
/-! SUPPORT. Byte order and pairs: each function of Operands and the one that undoes it. -/
namespace Sys2Proof.Machine

@[simp] theorem leBytes_length (n : Nat) (v : DWord) : (leBytes n v).length = n := by
  induction n generalizing v with
  | zero => rfl
  | succ n ih => simp [leBytes, ih]

/-- Byte `k` of `LEbytes(v)` is `v[8k+7:8k]` (20_memory.md rule R39). -/
theorem leBytes_getElem? (n : Nat) (v : DWord) (k : Nat) (h : k < n) :
    (leBytes n v)[k]? = some (v.extractLsb' (8 * k) 8) := by
  induction n generalizing v k with
  | zero => omega
  | succ n ih =>
    cases k with
    | zero => simp [leBytes, BitVec.setWidth_eq_extractLsb']
    | succ k =>
      simp only [leBytes, List.getElem?_cons_succ]
      rw [ih _ _ (by omega)]
      congr 1
      ext i hi
      simp
      congr 1
      omega

/-- `LE64(LEbytes64(v)) = v` (00_scope.md rule R7). -/
@[simp] theorem leValue_leBytes (v : DWord) : leValue (leBytes 8 v) = v := by
  simp only [leBytes, leValue]
  ext i hi
  simp
  grind

/-- `LEbytes64(LE64(bytes)) = bytes` for 8 bytes. -/
theorem leBytes_leValue (bs : List Byte) (h : bs.length = 8) : leBytes 8 (leValue bs) = bs := by
  match bs, h with
  | [b0, b1, b2, b3, b4, b5, b6, b7], _ =>
    simp only [leBytes, leValue, List.cons.injEq, and_true]
    refine ⟨?_, ?_, ?_, ?_, ?_, ?_, ?_, ?_⟩ <;> ext i hi <;> simp <;> grind

@[simp] theorem highWord_concatWords (x y : Word) : highWord (concatWords x y) = x := by
  ext i hi
  simp [highWord, concatWords]
  grind

@[simp] theorem lowWord_concatWords (x y : Word) : lowWord (concatWords x y) = y := by
  ext i hi
  simp [lowWord, concatWords]
  grind

@[simp] theorem concatWords_words (v : DWord) : concatWords (highWord v) (lowWord v) = v := by
  ext i hi
  simp [highWord, lowWord, concatWords]
  grind

/-- `join(pair(v)) = v` (30_encoding.md rule R57). -/
@[simp] theorem join_pair (o : PairOrder) (v : DWord) : join o (pair o v) = v := by
  cases o <;> simp [join, pair]

/-- `pair(join(x, y)) = (x, y)` (rule R57). -/
@[simp] theorem pair_join (o : PairOrder) (p : Word × Word) : pair o (join o p) = p := by
  cases o <;> simp [join, pair]

@[simp] theorem join_halves (c : DWord) : join .hiLo (halves c) = c := join_pair .hiLo c

theorem xorPair_xorPair_cancel (k p : Word × Word) : xorPair k (xorPair k p) = p := by
  simp [xorPair]

/-- Masking the counter takes it modulo 2^61 (42_encode.md rule R91). -/
theorem maskCounter_toNat (c : DWord) : (maskCounter c).toNat = c.toNat % 2 ^ 61 := by
  simp only [maskCounter, BitVec.toNat_and]
  exact Nat.and_two_pow_sub_one_eq_mod c.toNat 61

/-- Byte `k` of a little-endian value is byte `k` of the string, or 0 past its end. -/
theorem leValue_byte (bs : List Byte) (k : Nat) (hk : k < 8) :
    (leValue bs).extractLsb' (8 * k) 8 = bs[k]?.getD 0 := by
  induction bs generalizing k with
  | nil => simp [leValue]
  | cons b bs ih =>
    simp only [leValue]
    cases k with
    | zero =>
      ext i hi
      simp
      grind
    | succ k =>
      rw [List.getElem?_cons_succ, ← ih k (by omega)]
      ext i hi
      have h1 : ¬ 8 * (k + 1) + i < 8 := by omega
      have h2 : 8 * (k + 1) + i - 8 = 8 * k + i := by omega
      have h3 : 8 * (k + 1) + i < 64 := by omega
      have h4 : b.getLsbD (8 * (k + 1) + i) = false := BitVec.getLsbD_of_ge _ _ (by omega)
      simp only [BitVec.getElem_extractLsb', BitVec.getLsbD_or, BitVec.getLsbD_shiftLeft,
        BitVec.getLsbD_setWidth, h1, h2, h3, h4]
      simp

/-- The value of `n` bytes fits in `8n` bits. -/
theorem leValue_lt (bs : List Byte) (h : bs.length ≤ 8) : (leValue bs).toNat < 2 ^ (8 * bs.length) := by
  induction bs with
  | nil => simp [leValue]
  | cons b bs ih =>
    have := ih (by simp at h; omega)
    have hb := b.isLt
    simp only [leValue, List.length_cons]
    simp only [List.length_cons] at h
    have hpow : 2 ^ (8 * bs.length) ≤ 2 ^ 56 := Nat.pow_le_pow_right (by omega) (by omega)
    have : (leValue bs <<< 8 ||| b.setWidth 64) = leValue bs <<< 8 + b.setWidth 64 := by
      rw [BitVec.add_eq_or_of_and_eq_zero]
      ext i hi
      simp
      grind
    rw [this, show 8 * (bs.length + 1) = 8 * bs.length + 8 by ring, pow_add]
    simp only [BitVec.toNat_add, BitVec.toNat_shiftLeft, Nat.shiftLeft_eq, BitVec.toNat_setWidth]
    omega

/-- A full chunk needs no padding. -/
theorem padChunk_full (bs : List Byte) (h : bs.length = 8) : padChunk bs = bs := by simp [padChunk, h]

/-- The bytes of a list of 8-byte values: how many, and each one. -/
theorem flatMap_leBytes_length (es : List DWord) : (es.flatMap (leBytes 8)).length = 8 * es.length := by
  induction es with
  | nil => rfl
  | cons e es ih => simp [ih]; omega

theorem flatMap_leBytes_getElem? (es : List DWord) (i j : Nat) (hj : j < 8) :
    (es.flatMap (leBytes 8))[8 * i + j]? = es[i]?.map (fun v => v.extractLsb' (8 * j) 8) := by
  induction es generalizing i with
  | nil => simp
  | cons e es ih =>
    rw [List.flatMap_cons]
    cases i with
    | zero =>
      rw [List.getElem?_append_left (by simp; omega)]
      simpa using leBytes_getElem? 8 e j hj
    | succ i =>
      rw [List.getElem?_append_right (by simp; omega)]
      simpa [show 8 * (i + 1) + j - 8 = 8 * i + j by omega] using ih i

end Sys2Proof.Machine
end

