-- ==== Sys2Proof/Laws/Bus.lean ====
section
/-! SUPPORT. What the bus, a host turn and a step can do: one inversion lemma each. -/
namespace Sys2Proof.Machine

/-- Changing the host alone. -/
def State.withHost (s : State) (h : HostSide) : State := { s with host := h }

/-- Everything a host step can do to the DTC, given the host it leaves (20_memory.md rules R37 to R43): nothing; a write of
`ILEN`, of a key word, of half the seed, of `IBUF`; a refused illegal word; the issue attempt of a command. -/
inductive HostEffect (s : State) (h : HostSide) : State → Prop where
  | quiet : HostEffect s h (s.withHost h)
  | ilen (v : Word) (hb : s.ph.busy = false) : HostEffect s h { s.withHost h with ilen := v }
  | key (j : Fin 4) (v : Word) (hp : s.ph = .unkeyed) :
      HostEffect s h { s.withHost h with key := setKeyWord s.key j v }
  | seedLow (v : Word) (hp : s.ph = .unkeyed) : HostEffect s h { s.withHost h with seed := setSeedLow s.seed v }
  | seedHigh (v : Word) (hp : s.ph = .unkeyed) : HostEffect s h { s.withHost h with seed := setSeedHigh s.seed v }
  | input (b : Nat) (n : Width) (v : DWord) (hb : s.ph.busy = false) :
      HostEffect s h { s.withHost h with ibuf := s.ibuf.store b (leBytes n.bytes v) }
  | illegal (hb : s.ph.busy = false) : HostEffect s h ((s.withHost h).raiseCmdError eOpcode)
  | issued (i : Instr) (hb : s.ph.busy = false) : HostEffect s h (issue i (s.withHost h))

@[simp] theorem isStatusRead_write (o : Nat) (n : Width) : isStatusRead false o n = false := rfl

theorem regionAt_ne_outside (c : Config) (o : Nat) (n : Width) : regionAt c o n ≠ .outside := by
  unfold regionAt
  split_ifs <;> simp

/-- Inside the window an access is row 2's bus error while busy, else where its offset lies. -/
theorem classify_inside {s : State} {o : Nat} {n : Width} (h : o + n.bytes ≤ 0x40000) (r : Bool) :
    classify s r (s.cfg.base + o) n =
      if s.ph.busy && !isStatusRead r o n then .error else regionAt s.cfg o n := by
  have e : s.cfg.base + o - s.cfg.base = o := by omega
  rw [classify, e, if_neg (by omega)]

/-- Inside the window and not busy, an access is where its offset lies. -/
theorem classify_of_not_busy {s : State} {o : Nat} {n : Width} (h : o + n.bytes ≤ 0x40000)
    (hb : s.ph.busy = false) (r : Bool) : classify s r (s.cfg.base + o) n = regionAt s.cfg o n := by
  simp [classify_inside h, hb]

/-- While busy no access but the `STATUS` read reaches a region (rule R35 row 2). -/
theorem classify_write_of_busy {s : State} (h : s.ph.busy = true) (a : Nat) (n : Width) :
    classify s false a n = .outside ∨ classify s false a n = .error := by
  unfold classify
  split_ifs <;> simp_all

/-- A read that is answered changes the bus's answer alone (rule R43). -/
theorem busRead_next {a : Nat} {n : Width} {s t : State} (h : busRead a n s = .next t) :
    t = s.answer (readReply s n (classify s true a n)) := by
  unfold busRead at h
  split_ifs at h
  exact (Host.Outcome.next.inj h).symm

/-- A bus access never faults. -/
theorem busRead_ne_fault (a : Nat) (n : Width) (s : State) (f : Fault) : busRead a n s ≠ .fault f := by
  unfold busRead
  split_ifs <;> simp

/-- A read is refused only outside the window. -/
theorem busRead_refused {a : Nat} {n : Width} {s : State} {r : Refusal} (h : busRead a n s = .refused r) :
    r = .outsideWindow a := by
  unfold busRead at h
  split_ifs at h
  exact (Host.Outcome.refused.inj h).symm

/-- Everything an issue attempt with a word can do while not busy. -/
theorem issueWord_of_not_busy {s : State} (hb : s.ph.busy = false) (w : Word) :
    issueWord w s = .next (s.raiseCmdError eOpcode) ∨ ∃ i, issueWord w s = .next (issue i s) := by
  unfold issueWord
  rcases decode w with e | i
  · exact .inl rfl
  · exact .inr ⟨i, exec_of_not_busy hb i⟩

/-- Everything a register write can do while not busy. -/
theorem writeReg_effect {s : State} (hb : s.ph.busy = false) (o : Nat) (v : Word) :
    ∃ h t, writeReg s o v = .next t ∧ HostEffect s h t := by
  have still : HostEffect s _ s.raiseBusError := .quiet
  unfold writeReg
  split
  · rcases issueWord_of_not_busy (s := s.answer .ack) hb v with e | ⟨i, e⟩
    · exact ⟨_, _, e, .illegal hb⟩
    · exact ⟨_, _, e, .issued i hb⟩
  · exact ⟨_, _, rfl, .ilen v hb⟩
  · split_ifs with hp
    · exact ⟨_, _, rfl, .key _ v hp⟩
    · exact ⟨_, _, rfl, still⟩
  · split_ifs with hp
    · exact ⟨_, _, rfl, .seedLow v hp⟩
    · exact ⟨_, _, rfl, still⟩
  · split_ifs with hp
    · exact ⟨_, _, rfl, .seedHigh v hp⟩
    · exact ⟨_, _, rfl, still⟩
  all_goals exact ⟨_, _, rfl, still⟩

/-- Everything a bus write can do: refused outside the window, or a host effect. -/
theorem busWrite_cases (a : Nat) (n : Width) (v : DWord) (s : State) :
    (classify s false a n = .outside ∧ busWrite a n v s = .refused (.outsideWindow a)) ∨
      ∃ h t, busWrite a n v s = .next t ∧ HostEffect s h t := by
  have still : HostEffect s _ s.raiseBusError := .quiet
  rcases hb : s.ph.busy with _ | _
  · unfold busWrite
    split
    · exact .inl ⟨by assumption, rfl⟩
    · exact .inr ⟨_, _, rfl, still⟩
    · split_ifs
      · exact .inr (writeReg_effect hb _ _)
      · exact .inr ⟨_, _, rfl, still⟩
    · exact .inr ⟨_, _, rfl, .input _ _ _ hb⟩
    · exact .inr ⟨_, _, rfl, still⟩
  · rcases classify_write_of_busy hb a n with e | e
    · exact .inl ⟨e, by simp [busWrite, e]⟩
    · exact .inr ⟨_, _, by simp [busWrite, e], still⟩

/-- A host effect seen from the state before the host moved past its access. -/
theorem HostEffect.of_withHost {s t : State} {g h : HostSide} (e : HostEffect (s.withHost g) h t) :
    HostEffect s h t := by
  cases e with
  | quiet => exact .quiet
  | ilen v hb => exact .ilen v hb
  | key j v hp => exact .key j v hp
  | seedLow v hp => exact .seedLow v hp
  | seedHigh v hp => exact .seedHigh v hp
  | input b n v hb => exact .input b n v hb
  | illegal hb => exact .illegal hb
  | issued i hb => exact .issued i hb

/-- Everything a host turn can do: a host effect, or a refusal of its access or its jump. -/
theorem hostTurn_cases (s : State) :
    (∃ h t, hostTurn s = .next t ∧ HostEffect s h t) ∨
      (∃ a, hostTurn s = .refused (.outsideWindow a)) ∨ ∃ l, hostTurn s = .refused (.noSuchLabel l) := by
  have still : ∀ h, HostEffect s h (s.withHost h) := fun _ => .quiet
  have jump : ∀ taken label,
      (∃ h t, jumpIf taken label s = .next t ∧ HostEffect s h t) ∨
        (∃ a, jumpIf taken label s = .refused (.outsideWindow a)) ∨
          ∃ l, jumpIf taken label s = .refused (.noSuchLabel l) := by
    intro taken label
    unfold jumpIf
    split
    · split
      · exact .inl ⟨_, _, rfl, still _⟩
      · exact .inr (.inr ⟨_, rfl⟩)
    · exact .inl ⟨_, _, rfl, still _⟩
  unfold hostTurn
  split
  · exact .inl ⟨_, _, rfl, still s.host⟩
  · split
    · unfold silentLine
      split
      · exact jump _ _
      · exact jump _ _
      · exact .inl ⟨_, _, rfl, still s.host⟩
      · exact .inl ⟨_, _, rfl, still _⟩
    · rename_i l _ _ a n v _
      rcases busWrite_cases a n v (s.hostProgress l) with ⟨-, e⟩ | ⟨h, t, e, he⟩
      · exact .inr (.inl ⟨a, e⟩)
      · exact .inl ⟨h, t, e, HostEffect.of_withHost he⟩
    · rename_i l _ _ a n _
      rcases hr : busRead a n (s.hostProgress l) with t | f | r
      · rw [busRead_next hr]
        exact .inl ⟨_, _, rfl, still _⟩
      · exact absurd hr (busRead_ne_fault _ _ _ _)
      · rw [busRead_refused hr]
        exact .inr (.inl ⟨a, rfl⟩)

/-- A line without an access that goes on changes the host alone, and not the bus's last answer. -/
theorem silentLine_next {l : Line} {s t : State} (h : silentLine l s = .next t) :
    ∃ g, t = s.withHost g ∧ g.reply = s.host.reply := by
  have jump : ∀ taken label, jumpIf taken label s = .next t → ∃ g, t = s.withHost g ∧ g.reply = s.host.reply := by
    intro taken label h
    unfold jumpIf at h
    split at h
    · split at h
      · exact ⟨_, (Host.Outcome.next.inj h).symm, rfl⟩
      · cases h
    · exact ⟨_, (Host.Outcome.next.inj h).symm, rfl⟩
  unfold silentLine at h
  split at h
  · exact jump _ _ h
  · exact jump _ _ h
  · exact ⟨s.host, (Host.Outcome.next.inj h).symm, rfl⟩
  · refine ⟨_, (Host.Outcome.next.inj h).symm, ?_⟩
    simp only [HostSide.nextLine]
    unfold HostSide.startLine
    split <;> (try split) <;> rfl

@[simp] theorem capture_reply (g : HostSide) (l : Line) : (g.capture l).reply = g.reply := by
  unfold HostSide.capture
  split <;> rfl

/-- Everything a host turn that goes on can do, by the access it makes. -/
theorem hostTurn_next {s t : State} (h : hostTurn s = .next t) :
    (nextAccess s = none ∧ ∃ g, t = s.withHost g ∧ g.reply = s.host.reply) ∨
      (∃ l a n v, nextAccess s = some (.write a n v) ∧ busWrite a n v (s.hostProgress l) = .next t) ∨
      ∃ l a n, nextAccess s = some (.read a n) ∧
        t = captureReply l ((s.hostProgress l).answer (readReply (s.hostProgress l) n (classify s true a n))) := by
  unfold hostTurn at h
  unfold nextAccess
  split at h <;> rename_i hl
  · cases h
    exact .inl ⟨by rw [hl], s.host, rfl, rfl⟩
  · rw [hl]
    split at h <;> rename_i ha
    · exact .inl ⟨ha, silentLine_next h⟩
    · exact .inr (.inl ⟨_, _, _, _, ha, h⟩)
    · rename_i l _ a n
      refine .inr (.inr ⟨l, _, _, ha, ?_⟩)
      rcases hr : busRead a n (s.hostProgress l) with u | f | r <;> rw [hr] at h
      · rw [busRead_next hr] at h
        exact (Host.Outcome.next.inj h).symm
      · cases h
      · cases h

/-- Everything a step can do, by the agent that moves. -/
theorem step_cases {s t : State} (h : step s = .next t) :
    (s.nextAgent = .env ∧ t = s.popSched.envReset) ∨
      (s.nextAgent = .core ∧ s.ph.busy = false ∧ t = s.popSched) ∨
      (s.nextAgent = .core ∧ ∃ i, s.ph = busyPhase i ∧ exec i s.popSched = .next t) ∨
      (s.nextAgent = .host ∧ ∃ g, HostEffect s.popSched g t) := by
  unfold step takeTurn at h
  rcases ha : s.nextAgent with _ | _ | _ <;> rw [ha] at h <;> simp only [agentMove] at h
  · rcases hostTurn_cases s.popSched with ⟨g, u, e, he⟩ | ⟨a, e⟩ | ⟨l, e⟩ <;> rw [e] at h
    · cases h
      exact .inr (.inr (.inr ⟨rfl, g, he⟩))
    · cases h
    · cases h
  · unfold coreTurn at h
    rcases hb : s.ph.busy with _ | _
    · rw [popSched_ph, pending_of_not_busy hb] at h
      exact .inr (.inl ⟨rfl, rfl, (Host.Outcome.next.inj h).symm⟩)
    · obtain ⟨i, hi⟩ := busy_iff.mp hb
      rw [popSched_ph, hi, pending_busyPhase] at h
      exact .inr (.inr (.inl ⟨rfl, i, hi, h⟩))
  · exact .inl ⟨rfl, (Host.Outcome.next.inj h).symm⟩

/-- What no host effect touches. -/
theorem HostEffect.frame {s t : State} {g : HostSide} (e : HostEffect s g t) :
    t.cfg = s.cfg ∧ t.ctr = s.ctr ∧ t.olen = s.olen ∧ t.obuf = s.obuf ∧ t.epoch = s.epoch ∧
      t.sched = s.sched ∧ t.wc = s.wc ∧ t.ax = s.ax ∧ t.ay = s.ay ∧ t.wrem = s.wrem ∧ t.bi = s.bi ∧
      t.host = g := by
  cases e with
  | issued i hb =>
    rcases issue_cases i (s.withHost g) with ⟨c, -, -, e⟩ | ⟨-, -, e⟩ <;> rw [e] <;> simp [State.withHost]
  | _ => simp [State.withHost]

/-- A host effect keeps the phase or enters a busy phase from the phase the command is issued from. -/
theorem HostEffect.phase {s t : State} {g : HostSide} (e : HostEffect s g t) :
    t.ph = s.ph ∨ ∃ i, s.ph = issuePhase i ∧ t.ph = busyPhase i := by
  cases e with
  | issued i hb =>
    rcases issue_cases i (s.withHost g) with ⟨c, -, -, e⟩ | ⟨h, -, e⟩ <;> rw [e]
    · exact .inl rfl
    · exact .inr ⟨i, h, rfl⟩
  | _ => exact .inl rfl

/-- A host effect keeps the key and the seed unless the phase is UNKEYED. -/
theorem HostEffect.locked {s t : State} {g : HostSide} (e : HostEffect s g t) :
    (t.key = s.key ∧ t.seed = s.seed) ∨ s.ph = .unkeyed := by
  cases e with
  | issued i hb =>
    left
    rcases issue_cases i (s.withHost g) with ⟨c, -, -, e⟩ | ⟨h, -, e⟩ <;> rw [e] <;> simp [State.withHost]
  | key => exact .inr (by assumption)
  | seedLow => exact .inr (by assumption)
  | seedHigh => exact .inr (by assumption)
  | _ => exact .inl ⟨rfl, rfl⟩

/-- No register stands from offset 0x28 on (10_state.md rule R19). -/
theorem Reg.ofOffset_high {o : Nat} (h : 0x28 ≤ o) : Reg.ofOffset o = none := by
  unfold Reg.ofOffset
  split_ifs <;> first | omega | rfl

/-- `CMD` stands at offset 0 only. -/
theorem Reg.ofOffset_cmd {o : Nat} (h : Reg.ofOffset o = some .cmd) : o = 0 := by
  unfold Reg.ofOffset at h
  split_ifs at h <;> first | assumption | (cases h)

theorem Width.bytes_pos (n : Width) : 0 < n.bytes := by cases n <;> simp [Width.bytes]

theorem Width.bytes_le (n : Width) : n.bytes ≤ 8 := by cases n <;> simp [Width.bytes]

/-- The ranges of 00_scope.md rule R5, one by one. -/
theorem config_wf_iff {c : Config} :
    c.wf = true ↔ c.bufsz % 8 = 0 ∧ 24 ≤ c.bufsz ∧ c.bufsz ≤ 65536 ∧ c.base % 0x40000 = 0 := by
  simp [Config.wf, and_assoc]

/-- An aligned access inside `IBUF` is one. -/
theorem regionAt_input {c : Config} {b : Nat} {n : Width} (hb : b + n.bytes ≤ c.bufsz)
    (ha : b % n.bytes = 0) : regionAt c (0x10000 + b) n = .input b := by
  have := n.bytes_pos
  have h4 : (0x10000 + b) % n.bytes = 0 := by cases n <;> simp only [Width.bytes] at ha ⊢ <;> omega
  unfold regionAt
  split_ifs <;> first | omega | (simp only [Region.input.injEq]; omega)

/-- An aligned access inside `OBUF` is one. -/
theorem regionAt_output {c : Config} {b : Nat} {n : Width} (hc : c.wf = true) (hb : b + n.bytes ≤ c.bufsz)
    (ha : b % n.bytes = 0) : regionAt c (0x20000 + b) n = .output b := by
  have := n.bytes_pos
  have := config_wf_iff.mp hc
  have h4 : (0x20000 + b) % n.bytes = 0 := by cases n <;> simp only [Width.bytes] at ha ⊢ <;> omega
  unfold regionAt
  split_ifs <;> first | omega | (simp only [Region.output.injEq]; omega)

/-- Byte `k` of a buffer read (20_memory.md rule R39), and its range. -/
theorem readBytes_byte (byte : Nat → Byte) (b n k : Nat) (hk : k < n) (hn : n ≤ 8) :
    (readBytes byte b n).extractLsb' (8 * k) 8 = byte (b + k) := by
  rw [readBytes, leValue_byte _ _ (by omega)]
  simp [hk]

theorem readBytes_lt (byte : Nat → Byte) (b n : Nat) (hn : n ≤ 8) :
    (readBytes byte b n).toNat < 2 ^ (8 * n) := by
  have := leValue_lt ((List.range n).map (fun k => byte (b + k))) (by simpa using hn)
  simpa [readBytes] using this

/-- A 4-byte write that reaches a register is that register's. -/
theorem busWrite_register {s : State} {a o : Nat} {n : Width} {v : DWord}
    (hc : classify s false a n = .register o) (h4 : n = .four) :
    busWrite a n v s = writeReg s o (v.setWidth 32) := by
  unfold busWrite
  rw [hc]
  simp [h4]

/-- No two registers share an address. -/
theorem targetAddress_reg_inj {c : Config} {r r' : Reg}
    (h : targetAddress c (.reg r) = targetAddress c (.reg r')) : r = r' := by
  have h : r.offset = r'.offset := Nat.add_left_cancel h
  rcases r with _ | _ | _ | _ | j | _ | _ <;> rcases r' with _ | _ | _ | _ | j' | _ | _ <;>
    simp only [Reg.offset] at h <;>
    first | rfl | omega | (congr 1; apply Fin.ext; omega)

/-- While not busy, a 4-byte write at a register's address is that register's write. -/
theorem busWrite_reg {s : State} (r : Reg) (v : Word) (hb : s.ph.busy = false) :
    busWrite (targetAddress s.cfg (.reg r)) .four (v.setWidth 64) s = writeReg s r.offset v := by
  have hr : r.offset % 4 = 0 ∧ r.offset ≤ 0x24 := by
    rcases r with _ | _ | _ | _ | j | _ | _ <;> first | decide | (simp only [Reg.offset]; omega)
  have e : classify s false (s.cfg.base + r.offset) .four = .register r.offset := by
    rw [classify_of_not_busy (by simp only [Width.bytes]; omega) hb, regionAt,
      if_neg (by simp only [Width.bytes]; omega), if_pos (by omega)]
  rw [targetAddress, busWrite_register e rfl]
  congr 1
  simp

/-- A 4-byte write to `BASE` while not busy is an issue attempt. -/
theorem busWrite_cmd {s : State} (h : s.ph.busy = false) (v : DWord) :
    busWrite s.cfg.base .four v s = issueWord (v.setWidth 32) (s.answer .ack) := by
  simp [busWrite, classify, regionAt, h, Width.bytes, writeReg, Reg.ofOffset]

end Sys2Proof.Machine
end

