-- ==== Sys2Proof/Laws/Memory.lean ====
section
/-! SUPPORT. What the buffer operations do: a read after a write, and the canonical form. -/
namespace Sys2Proof.Machine

@[simp] theorem get?_nil (a : Nat) : Memory.get? [] a = none := rfl

/-- A byte read after one byte was written. -/
@[simp] theorem get?_set (m : Memory) (a b : Nat) (v : Byte) :
    (m.set a v).get? b = if b = a then some v else m.get? b := by
  induction m with
  | nil => simp [Memory.set, Memory.get?]
  | cons c m ih =>
    obtain ⟨k, w⟩ := c
    simp only [Memory.set]
    split_ifs <;> grind [Memory.get?]

/-- A byte read after a byte string was written. -/
theorem get?_store (m : Memory) (a b : Nat) (vs : List Byte) :
    (m.store a vs).get? b =
      if a ≤ b ∧ b < a + vs.length then vs[b - a]? else m.get? b := by
  induction vs generalizing m a with
  | nil => simp [Memory.store]
  | cons v vs ih =>
    simp only [Memory.store, ih, get?_set, List.length_cons]
    by_cases h1 : b = a
    · subst h1; simp
    · by_cases h2 : a + 1 ≤ b ∧ b < a + 1 + vs.length
      · have h3 : a ≤ b ∧ b < a + (vs.length + 1) := by omega
        have h4 : b - a = (b - (a + 1)) + 1 := by omega
        simp [h2, h3, h4]
      · have h3 : ¬ (a ≤ b ∧ b < a + (vs.length + 1)) := by omega
        rw [if_neg h2, if_neg h1, if_neg h3]

/-- A write leaves every offset outside the written bytes alone. -/
theorem get?_store_outside {m : Memory} {a b : Nat} {vs : List Byte} (h : b < a ∨ a + vs.length ≤ b) :
    (m.store a vs).get? b = m.get? b := by
  rw [get?_store, if_neg (by omega)]

/-- A write lists every offset it writes. -/
theorem get?_store_inside {m : Memory} {a b : Nat} {vs : List Byte} (h : a ≤ b) (h' : b < a + vs.length) :
    (m.store a vs).get? b = vs[b - a]? := by
  rw [get?_store, if_pos ⟨h, h'⟩]

theorem wf_nil : Memory.wf [] := List.Pairwise.nil

/-- The offsets a memory lists after one write. -/
theorem mem_keys_set {m : Memory} {a k : Nat} {v : Byte} (h : k ∈ (m.set a v).map Prod.fst) :
    k = a ∨ k ∈ m.map Prod.fst := by
  induction m with
  | nil => simpa [Memory.set] using h
  | cons c m ih =>
    obtain ⟨j, w⟩ := c
    simp only [Memory.set] at h
    split_ifs at h
    · simpa using h
    · simp at h ⊢; tauto
    · simp only [List.map_cons, List.mem_cons] at h ⊢
      rcases h with h | h
      · exact Or.inr (Or.inl h)
      · rcases ih h with h | h
        · exact Or.inl h
        · exact Or.inr (Or.inr h)

/-- One write keeps the canonical form. -/
theorem wf_set {m : Memory} (h : m.wf) (a : Nat) (v : Byte) : (m.set a v).wf := by
  induction m with
  | nil => simp [Memory.set, Memory.wf]
  | cons c m ih =>
    obtain ⟨k, w⟩ := c
    simp only [Memory.wf, List.map_cons, List.pairwise_cons] at h
    simp only [Memory.set]
    split_ifs with h1 h2
    · simp only [Memory.wf, List.map_cons, List.pairwise_cons, List.mem_cons]
      refine ⟨?_, h⟩
      rintro x (rfl | hx)
      · exact h1
      · exact Nat.lt_trans h1 (h.1 x hx)
    · subst h2
      simpa [Memory.wf] using h
    · simp only [Memory.wf, List.map_cons, List.pairwise_cons]
      refine ⟨fun x hx => ?_, ih h.2⟩
      rcases mem_keys_set hx with rfl | hx
      · omega
      · exact h.1 x hx

/-- Writing a byte string keeps the canonical form. -/
theorem wf_store {m : Memory} (h : m.wf) (a : Nat) (vs : List Byte) : (m.store a vs).wf := by
  induction vs generalizing m a with
  | nil => exact h
  | cons v vs ih => exact ih (wf_set h a v) (a + 1)

/-- The same byte written twice: the second value stays. -/
theorem set_set (m : Memory) (a : Nat) (v w : Byte) : (m.set a v).set a w = m.set a w := by
  induction m with
  | nil => simp [Memory.set]
  | cons c m ih =>
    obtain ⟨k, x⟩ := c
    simp only [Memory.set]
    split_ifs with h1 h2 <;> simp [Memory.set, *]

/-- Writes to two offsets commute. -/
theorem set_comm (m : Memory) (a b : Nat) (v w : Byte) (h : a < b) :
    (m.set b w).set a v = (m.set a v).set b w := by
  induction m with
  | nil => simp [Memory.set, h, show ¬ b < a by omega, show ¬ b = a by omega]
  | cons c m ih =>
    obtain ⟨k, x⟩ := c
    simp only [Memory.set]
    split_ifs <;> simp only [Memory.set] <;> grind

/-- A byte below a stored byte string can be written before it. -/
theorem store_set_comm (m : Memory) (a b : Nat) (v : Byte) (vs : List Byte) (h : a < b) :
    (m.store b vs).set a v = (m.set a v).store b vs := by
  induction vs generalizing m b with
  | nil => rfl
  | cons w vs ih =>
    simp only [Memory.store]
    rw [ih _ _ (by omega), set_comm _ _ _ _ _ h]

/-- A byte string written twice to the same place is written once. -/
theorem store_store (m : Memory) (a : Nat) (vs : List Byte) : (m.store a vs).store a vs = m.store a vs := by
  induction vs generalizing m a with
  | nil => rfl
  | cons v vs ih =>
    simp only [Memory.store]
    rw [store_set_comm _ _ _ _ _ (by omega), set_set, ih]

end Sys2Proof.Machine
end

