-- ==== Sys2Proof/Laws/PerInstr.lean ====
section
/-! SUPPORT. Facts about every command as syntax, one lemma per constructor. -/
namespace Sys2Proof.Laws.FormatC

/-- Format C (30_encoding.md rule R50): the word of a command has zeros in bits 31:8 and its opcode in bits 7:0, and is a legal
command word. -/
def Statement (i : Instr) : Prop :=
  zeroField (encode i) = 0 ∧ opField (encode i) = opcode i ∧ commandWordWf (encode i) = true ∧ i.wf = true

theorem init : Statement .init := by unfold Statement; decide

theorem encode : Statement .encode := by unfold Statement; decide

theorem decode : Statement .decode := by unfold Statement; decide

end Sys2Proof.Laws.FormatC
end

