-- ==== Sys2Proof/Laws/Pipeline.lean ====
section
/-! SUPPORT. The block loop of ENCODE and DECODE: what it leaves alone, its counters, and which bytes of OBUF it stores to. -/
namespace Sys2Proof.Machine

/-! ### The loop -/

/-- One more block, taken last. -/
theorem repeatBlocks_succ (f : State → State) (n : Nat) (s : State) :
    repeatBlocks f (n + 1) s = f (repeatBlocks f n s) := by
  induction n generalizing s with
  | zero => rfl
  | succ n ih => exact ih (f s)

/-- What a block step keeps, the loop keeps. -/
theorem repeatBlocks_keeps {α : Type} {f : State → State} (g : State → α) (h : ∀ s, g (f s) = g s) (n : Nat)
    (s : State) : g (repeatBlocks f n s) = g s := by
  induction n generalizing s with
  | zero => rfl
  | succ n ih => exact (ih (f s)).trans (h s)

/-! ### What a loop leaves alone: everything but OBUF, `AX`, `AY`, `WC` and `BI` -/

@[simp] theorem encLoop_cfg (h : BlockFn) (n : Nat) (s : State) : (repeatBlocks (encBlock h) n s).cfg = s.cfg :=
  repeatBlocks_keeps (f := encBlock h) State.cfg (fun _ => rfl) n s
@[simp] theorem encLoop_key (h : BlockFn) (n : Nat) (s : State) : (repeatBlocks (encBlock h) n s).key = s.key :=
  repeatBlocks_keeps (f := encBlock h) State.key (fun _ => rfl) n s
@[simp] theorem encLoop_ctr (h : BlockFn) (n : Nat) (s : State) : (repeatBlocks (encBlock h) n s).ctr = s.ctr :=
  repeatBlocks_keeps (f := encBlock h) State.ctr (fun _ => rfl) n s
@[simp] theorem encLoop_seed (h : BlockFn) (n : Nat) (s : State) : (repeatBlocks (encBlock h) n s).seed = s.seed :=
  repeatBlocks_keeps (f := encBlock h) State.seed (fun _ => rfl) n s
@[simp] theorem encLoop_ilen (h : BlockFn) (n : Nat) (s : State) : (repeatBlocks (encBlock h) n s).ilen = s.ilen :=
  repeatBlocks_keeps (f := encBlock h) State.ilen (fun _ => rfl) n s
@[simp] theorem encLoop_olen (h : BlockFn) (n : Nat) (s : State) : (repeatBlocks (encBlock h) n s).olen = s.olen :=
  repeatBlocks_keeps (f := encBlock h) State.olen (fun _ => rfl) n s
@[simp] theorem encLoop_ph (h : BlockFn) (n : Nat) (s : State) : (repeatBlocks (encBlock h) n s).ph = s.ph :=
  repeatBlocks_keeps (f := encBlock h) State.ph (fun _ => rfl) n s
@[simp] theorem encLoop_done (h : BlockFn) (n : Nat) (s : State) : (repeatBlocks (encBlock h) n s).done = s.done :=
  repeatBlocks_keeps (f := encBlock h) State.done (fun _ => rfl) n s
@[simp] theorem encLoop_rej (h : BlockFn) (n : Nat) (s : State) : (repeatBlocks (encBlock h) n s).rej = s.rej :=
  repeatBlocks_keeps (f := encBlock h) State.rej (fun _ => rfl) n s
@[simp] theorem encLoop_err (h : BlockFn) (n : Nat) (s : State) : (repeatBlocks (encBlock h) n s).err = s.err :=
  repeatBlocks_keeps (f := encBlock h) State.err (fun _ => rfl) n s
@[simp] theorem encLoop_ecode (h : BlockFn) (n : Nat) (s : State) : (repeatBlocks (encBlock h) n s).ecode = s.ecode :=
  repeatBlocks_keeps (f := encBlock h) State.ecode (fun _ => rfl) n s
@[simp] theorem encLoop_ibuf (h : BlockFn) (n : Nat) (s : State) : (repeatBlocks (encBlock h) n s).ibuf = s.ibuf :=
  repeatBlocks_keeps (f := encBlock h) State.ibuf (fun _ => rfl) n s
@[simp] theorem encLoop_wrem (h : BlockFn) (n : Nat) (s : State) : (repeatBlocks (encBlock h) n s).wrem = s.wrem :=
  repeatBlocks_keeps (f := encBlock h) State.wrem (fun _ => rfl) n s
@[simp] theorem encLoop_epoch (h : BlockFn) (n : Nat) (s : State) : (repeatBlocks (encBlock h) n s).epoch = s.epoch :=
  repeatBlocks_keeps (f := encBlock h) State.epoch (fun _ => rfl) n s
@[simp] theorem encLoop_sched (h : BlockFn) (n : Nat) (s : State) : (repeatBlocks (encBlock h) n s).sched = s.sched :=
  repeatBlocks_keeps (f := encBlock h) State.sched (fun _ => rfl) n s
@[simp] theorem encLoop_host (h : BlockFn) (n : Nat) (s : State) : (repeatBlocks (encBlock h) n s).host = s.host :=
  repeatBlocks_keeps (f := encBlock h) State.host (fun _ => rfl) n s

@[simp] theorem decLoop_cfg (h : BlockFn) (n : Nat) (s : State) : (repeatBlocks (decBlock h) n s).cfg = s.cfg :=
  repeatBlocks_keeps (f := decBlock h) State.cfg (fun _ => rfl) n s
@[simp] theorem decLoop_key (h : BlockFn) (n : Nat) (s : State) : (repeatBlocks (decBlock h) n s).key = s.key :=
  repeatBlocks_keeps (f := decBlock h) State.key (fun _ => rfl) n s
@[simp] theorem decLoop_ctr (h : BlockFn) (n : Nat) (s : State) : (repeatBlocks (decBlock h) n s).ctr = s.ctr :=
  repeatBlocks_keeps (f := decBlock h) State.ctr (fun _ => rfl) n s
@[simp] theorem decLoop_seed (h : BlockFn) (n : Nat) (s : State) : (repeatBlocks (decBlock h) n s).seed = s.seed :=
  repeatBlocks_keeps (f := decBlock h) State.seed (fun _ => rfl) n s
@[simp] theorem decLoop_ilen (h : BlockFn) (n : Nat) (s : State) : (repeatBlocks (decBlock h) n s).ilen = s.ilen :=
  repeatBlocks_keeps (f := decBlock h) State.ilen (fun _ => rfl) n s
@[simp] theorem decLoop_olen (h : BlockFn) (n : Nat) (s : State) : (repeatBlocks (decBlock h) n s).olen = s.olen :=
  repeatBlocks_keeps (f := decBlock h) State.olen (fun _ => rfl) n s
@[simp] theorem decLoop_ph (h : BlockFn) (n : Nat) (s : State) : (repeatBlocks (decBlock h) n s).ph = s.ph :=
  repeatBlocks_keeps (f := decBlock h) State.ph (fun _ => rfl) n s
@[simp] theorem decLoop_done (h : BlockFn) (n : Nat) (s : State) : (repeatBlocks (decBlock h) n s).done = s.done :=
  repeatBlocks_keeps (f := decBlock h) State.done (fun _ => rfl) n s
@[simp] theorem decLoop_rej (h : BlockFn) (n : Nat) (s : State) : (repeatBlocks (decBlock h) n s).rej = s.rej :=
  repeatBlocks_keeps (f := decBlock h) State.rej (fun _ => rfl) n s
@[simp] theorem decLoop_err (h : BlockFn) (n : Nat) (s : State) : (repeatBlocks (decBlock h) n s).err = s.err :=
  repeatBlocks_keeps (f := decBlock h) State.err (fun _ => rfl) n s
@[simp] theorem decLoop_ecode (h : BlockFn) (n : Nat) (s : State) : (repeatBlocks (decBlock h) n s).ecode = s.ecode :=
  repeatBlocks_keeps (f := decBlock h) State.ecode (fun _ => rfl) n s
@[simp] theorem decLoop_ibuf (h : BlockFn) (n : Nat) (s : State) : (repeatBlocks (decBlock h) n s).ibuf = s.ibuf :=
  repeatBlocks_keeps (f := decBlock h) State.ibuf (fun _ => rfl) n s
@[simp] theorem decLoop_wrem (h : BlockFn) (n : Nat) (s : State) : (repeatBlocks (decBlock h) n s).wrem = s.wrem :=
  repeatBlocks_keeps (f := decBlock h) State.wrem (fun _ => rfl) n s
@[simp] theorem decLoop_epoch (h : BlockFn) (n : Nat) (s : State) : (repeatBlocks (decBlock h) n s).epoch = s.epoch :=
  repeatBlocks_keeps (f := decBlock h) State.epoch (fun _ => rfl) n s
@[simp] theorem decLoop_sched (h : BlockFn) (n : Nat) (s : State) : (repeatBlocks (decBlock h) n s).sched = s.sched :=
  repeatBlocks_keeps (f := decBlock h) State.sched (fun _ => rfl) n s
@[simp] theorem decLoop_host (h : BlockFn) (n : Nat) (s : State) : (repeatBlocks (decBlock h) n s).host = s.host :=
  repeatBlocks_keeps (f := decBlock h) State.host (fun _ => rfl) n s

/-! ### The loop's counters -/

theorem encLoop_bi (h : BlockFn) (n : Nat) (s : State) : (repeatBlocks (encBlock h) n s).bi = s.bi + n := by
  induction n with
  | zero => rfl
  | succ n ih => rw [repeatBlocks_succ, encBlock_bi, ih]; rfl

theorem encLoop_wc (h : BlockFn) (n : Nat) (s : State) :
    (repeatBlocks (encBlock h) n s).wc = s.wc + BitVec.ofNat 64 n := by
  induction n with
  | zero => simp [repeatBlocks]
  | succ n ih =>
    rw [repeatBlocks_succ, encBlock_wc, ih, BitVec.add_assoc]
    congr 1
    apply BitVec.eq_of_toNat_eq
    simp

theorem decLoop_bi (h : BlockFn) (n : Nat) (s : State) : (repeatBlocks (decBlock h) n s).bi = s.bi + n := by
  induction n with
  | zero => rfl
  | succ n ih => rw [repeatBlocks_succ, decBlock_bi, ih]; rfl

theorem decLoop_wc (h : BlockFn) (n : Nat) (s : State) :
    (repeatBlocks (decBlock h) n s).wc = s.wc + BitVec.ofNat 64 n := by
  induction n with
  | zero => simp [repeatBlocks]
  | succ n ih =>
    rw [repeatBlocks_succ, decBlock_wc, ih, BitVec.add_assoc]
    congr 1
    apply BitVec.eq_of_toNat_eq
    simp

/-! ### Which bytes of OBUF the loops store to -/

/-- ENCODE's loop, from block 0, stores to offsets 8 to 8 + 8n - 1 only. -/
theorem encLoop_obuf_outside (h : BlockFn) (n : Nat) (s : State) (hb : s.bi = 0) (a : Nat)
    (ha : a < 8 ∨ 8 + 8 * n ≤ a) : (repeatBlocks (encBlock h) n s).obuf.get? a = s.obuf.get? a := by
  induction n with
  | zero => rfl
  | succ n ih =>
    rw [repeatBlocks_succ, encBlock_obuf, encLoop_bi, hb, get?_store_outside (by simp; omega)]
    exact ih (by omega)

/-- DECODE's loop, from block 0, stores to offsets 0 to 8n - 1 only. -/
theorem decLoop_obuf_outside (h : BlockFn) (n : Nat) (s : State) (hb : s.bi = 0) (a : Nat) (ha : 8 * n ≤ a) :
    (repeatBlocks (decBlock h) n s).obuf.get? a = s.obuf.get? a := by
  induction n with
  | zero => rfl
  | succ n ih =>
    rw [repeatBlocks_succ, decBlock_obuf, decLoop_bi, hb, get?_store_outside (by simp; omega)]
    exact ih (by omega)

/-- ENCODE's loop lists every byte it stores. -/
theorem encLoop_obuf_listed (h : BlockFn) (n : Nat) (s : State) (hb : s.bi = 0) (a : Nat) (ha : 8 ≤ a)
    (ha' : a < 8 + 8 * n) : ((repeatBlocks (encBlock h) n s).obuf.get? a).isSome = true := by
  induction n with
  | zero => omega
  | succ n ih =>
    rw [repeatBlocks_succ, encBlock_obuf, encLoop_bi, hb]
    rcases Nat.lt_or_ge a (8 + 8 * n) with hlt | hge
    · rw [get?_store_outside (by omega)]
      exact ih hlt
    · rw [get?_store_inside (by omega) (by simp; omega), leBytes_getElem? _ _ _ (by omega)]
      rfl

/-- DECODE's loop lists every byte it stores. -/
theorem decLoop_obuf_listed (h : BlockFn) (n : Nat) (s : State) (hb : s.bi = 0) (a : Nat) (ha : a < 8 * n) :
    ((repeatBlocks (decBlock h) n s).obuf.get? a).isSome = true := by
  induction n with
  | zero => omega
  | succ n ih =>
    rw [repeatBlocks_succ, decBlock_obuf, decLoop_bi, hb]
    rcases Nat.lt_or_ge a (8 * n) with hlt | hge
    · rw [get?_store_outside (by omega)]
      exact ih hlt
    · rw [get?_store_inside (by omega) (by simp; omega), leBytes_getElem? _ _ _ (by omega)]
      rfl

/-- Both loops keep OBUF canonical. -/
theorem encLoop_obuf_wf (h : BlockFn) (n : Nat) (s : State) (hw : s.obuf.wf) :
    (repeatBlocks (encBlock h) n s).obuf.wf := by
  induction n with
  | zero => exact hw
  | succ n ih => rw [repeatBlocks_succ, encBlock_obuf]; exact wf_store ih _ _

theorem decLoop_obuf_wf (h : BlockFn) (n : Nat) (s : State) (hw : s.obuf.wf) :
    (repeatBlocks (decBlock h) n s).obuf.wf := by
  induction n with
  | zero => exact hw
  | succ n ih => rw [repeatBlocks_succ, decBlock_obuf]; exact wf_store ih _ _

/-! ### ENCODE's completion, field by field -/

section
variable (h : BlockFn) (s : State)

@[simp] theorem encodeComplete_cfg : (encodeComplete h s).cfg = s.cfg := encLoop_cfg h _ (encStart s)
@[simp] theorem encodeComplete_key : (encodeComplete h s).key = s.key := encLoop_key h _ (encStart s)
@[simp] theorem encodeComplete_seed : (encodeComplete h s).seed = s.seed := encLoop_seed h _ (encStart s)
@[simp] theorem encodeComplete_ilen : (encodeComplete h s).ilen = s.ilen := encLoop_ilen h _ (encStart s)
@[simp] theorem encodeComplete_rej : (encodeComplete h s).rej = s.rej := encLoop_rej h _ (encStart s)
@[simp] theorem encodeComplete_err : (encodeComplete h s).err = s.err := encLoop_err h _ (encStart s)
@[simp] theorem encodeComplete_ecode : (encodeComplete h s).ecode = s.ecode := encLoop_ecode h _ (encStart s)
@[simp] theorem encodeComplete_ibuf : (encodeComplete h s).ibuf = s.ibuf := encLoop_ibuf h _ (encStart s)
@[simp] theorem encodeComplete_epoch : (encodeComplete h s).epoch = s.epoch := encLoop_epoch h _ (encStart s)
@[simp] theorem encodeComplete_sched : (encodeComplete h s).sched = s.sched := encLoop_sched h _ (encStart s)
@[simp] theorem encodeComplete_host : (encodeComplete h s).host = s.host := encLoop_host h _ (encStart s)
@[simp] theorem encodeComplete_ph : (encodeComplete h s).ph = .idle := rfl
@[simp] theorem encodeComplete_done : (encodeComplete h s).done = true := rfl

@[simp] theorem encodeComplete_ctr :
    (encodeComplete h s).ctr = maskCounter s.ctr + BitVec.ofNat 64 (encBlocks s) :=
  encLoop_wc h _ _

@[simp] theorem encodeComplete_olen :
    (encodeComplete h s).olen = BitVec.ofNat 32 (frameLength s.ilen.toNat) := by
  simp [encodeComplete, encBlocks, frameLength]

theorem encodeComplete_obuf :
    (encodeComplete h s).obuf =
      (repeatBlocks (encBlock h) (encBlocks s) (encStart s)).obuf.store (8 + 8 * encBlocks s)
        (leBytes 8 (join s.cfg.pairOrder
          ((repeatBlocks (encBlock h) (encBlocks s) (encStart s)).ax,
            (repeatBlocks (encBlock h) (encBlocks s) (encStart s)).ay))) := by
  simp [encodeComplete, encBlocks]

end

/-! ### DECODE's completion, field by field -/

section
variable (h : BlockFn) (s : State)

@[simp] theorem decRun_cfg : (decRun h s).cfg = s.cfg := decLoop_cfg h _ _
@[simp] theorem decRun_key : (decRun h s).key = s.key := decLoop_key h _ _
@[simp] theorem decRun_ctr : (decRun h s).ctr = s.ctr := decLoop_ctr h _ _
@[simp] theorem decRun_seed : (decRun h s).seed = s.seed := decLoop_seed h _ _
@[simp] theorem decRun_ilen : (decRun h s).ilen = s.ilen := decLoop_ilen h _ _
@[simp] theorem decRun_olen : (decRun h s).olen = s.olen := decLoop_olen h _ _
@[simp] theorem decRun_ph : (decRun h s).ph = s.ph := decLoop_ph h _ _
@[simp] theorem decRun_done : (decRun h s).done = s.done := decLoop_done h _ _
@[simp] theorem decRun_rej : (decRun h s).rej = s.rej := decLoop_rej h _ _
@[simp] theorem decRun_err : (decRun h s).err = s.err := decLoop_err h _ _
@[simp] theorem decRun_ecode : (decRun h s).ecode = s.ecode := decLoop_ecode h _ _
@[simp] theorem decRun_ibuf : (decRun h s).ibuf = s.ibuf := decLoop_ibuf h _ _
@[simp] theorem decRun_epoch : (decRun h s).epoch = s.epoch := decLoop_epoch h _ _
@[simp] theorem decRun_sched : (decRun h s).sched = s.sched := decLoop_sched h _ _
@[simp] theorem decRun_host : (decRun h s).host = s.host := decLoop_host h _ _
@[simp] theorem decRun_wrem : (decRun h s).wrem = headerRem (s.memReadDWord 0) := decLoop_wrem h _ _

/-- DECODE's completion accepts after its run, rejects after its run, or rejects at once for the length. -/
theorem decodeComplete_cases :
    (decCheck s = true ∧ decTagCompare (decRun h s) = true ∧ decodeComplete h s = decAccept (decRun h s)) ∨
      (decCheck s = true ∧ decTagCompare (decRun h s) = false ∧
        decodeComplete h s = (decRun h s).raiseReject) ∨
      (decCheck s = false ∧ decodeComplete h s = s.raiseReject) := by
  unfold decodeComplete
  rcases hc : decCheck s with _ | _ <;> rcases ht : decTagCompare (decRun h s) with _ | _ <;> simp

@[simp] theorem decodeComplete_ph : (decodeComplete h s).ph = .idle := by
  rcases decodeComplete_cases h s with ⟨-, -, e⟩ | ⟨-, -, e⟩ | ⟨-, e⟩ <;> rw [e] <;> rfl

@[simp] theorem decodeComplete_done : (decodeComplete h s).done = true := by
  rcases decodeComplete_cases h s with ⟨-, -, e⟩ | ⟨-, -, e⟩ | ⟨-, e⟩ <;> rw [e] <;> rfl

/-- What DECODE's completion never writes. -/
theorem decodeComplete_unwritten :
    (decodeComplete h s).cfg = s.cfg ∧ (decodeComplete h s).key = s.key ∧ (decodeComplete h s).ctr = s.ctr ∧
      (decodeComplete h s).seed = s.seed ∧ (decodeComplete h s).ilen = s.ilen ∧
      (decodeComplete h s).err = s.err ∧ (decodeComplete h s).ecode = s.ecode ∧
      (decodeComplete h s).ibuf = s.ibuf ∧ (decodeComplete h s).epoch = s.epoch ∧
      (decodeComplete h s).sched = s.sched ∧ (decodeComplete h s).host = s.host := by
  rcases decodeComplete_cases h s with ⟨-, -, e⟩ | ⟨-, -, e⟩ | ⟨-, e⟩ <;> simp [e]

end

/-- Both completions keep OBUF canonical. -/
theorem encodeComplete_obuf_wf (h : BlockFn) {s : State} (hw : s.obuf.wf) : (encodeComplete h s).obuf.wf := by
  rw [encodeComplete_obuf]
  exact wf_store (encLoop_obuf_wf h _ (encStart s) (wf_store hw _ _)) _ _

theorem decodeComplete_obuf_wf (h : BlockFn) {s : State} (hw : s.obuf.wf) : (decodeComplete h s).obuf.wf := by
  rcases decodeComplete_cases h s with ⟨-, -, e⟩ | ⟨-, -, e⟩ | ⟨-, e⟩ <;> rw [e]
  · exact decLoop_obuf_wf h _ _ hw
  · exact decLoop_obuf_wf h _ _ hw
  · exact hw

/-- The length check as two facts about `ILEN` (43_decode.md rule R101). -/
theorem decCheck_iff {s : State} : decCheck s = true ↔ 24 ≤ s.ilen.toNat ∧ s.ilen.toNat % 8 = 0 := by
  simp [decCheck]

end Sys2Proof.Machine
end

