-- ==== Sys2Proof/Laws/Reference.lean ====
section
/-! SUPPORT. The cipher on byte strings block by block, and what the loops of ENCODE and DECODE compute in its terms. -/
namespace Sys2Proof.Machine

/-! ### The cipher on lists -/

/-- The ciphertext of blocks numbered from 0, block by block. -/
theorem refCiphertext_eq_map (h : BlockFn) (o : PairOrder) (k : Key) (c : DWord) (n : Nat) (p : Nat → DWord) :
    refCiphertext h o k c ((List.range n).map p) =
      (List.range n).map
        (fun i => join o (xorPair (refKeystream h k (c + BitVec.ofNat 64 i)) (pair o (p i)))) := by
  induction n generalizing c p with
  | zero => rfl
  | succ n ih =>
    have e : ∀ i, c + 1 + BitVec.ofNat 64 i = c + BitVec.ofNat 64 (i + 1) := by
      intro i
      apply BitVec.eq_of_toNat_eq
      simp only [BitVec.toNat_add, BitVec.toNat_ofNat, show (1 : DWord).toNat = 1 from rfl]
      omega
    simp only [List.range_succ_eq_map, List.map_cons, List.map_map, refCiphertext]
    rw [show List.map (p ∘ Nat.succ) (List.range n) = List.map (fun i => p (i + 1)) (List.range n) from rfl, ih]
    simp only [e]
    simp [Function.comp_def]

@[simp] theorem refCiphertext_length (h : BlockFn) (o : PairOrder) (k : Key) (c : DWord) (ps : List DWord) :
    (refCiphertext h o k c ps).length = ps.length := by
  induction ps generalizing c with
  | nil => rfl
  | cons p ps ih => simp [refCiphertext, ih]

/-- Enciphering twice from the same counter gives the blocks back. -/
theorem refCiphertext_involutive (h : BlockFn) (o : PairOrder) (k : Key) (c : DWord) (ps : List DWord) :
    refCiphertext h o k c (refCiphertext h o k c ps) = ps := by
  induction ps generalizing c with
  | nil => rfl
  | cons p ps ih => simp [refCiphertext, ih, xorPair_xorPair_cancel]

/-- The tag of one block more. -/
theorem refTag_append (h : BlockFn) (o : PairOrder) (k : Key) (a : Word × Word) (es : List DWord) (e : DWord) :
    refTag h o k a (es ++ [e]) = refFold h k (refTag h o k a es) (pair o e) := by
  induction es generalizing a with
  | nil => rfl
  | cons x es ih => exact ih _

/-- The chunks of a byte string, chunk by chunk. -/
theorem chunkValues_eq_map (n : Nat) (bytes : List Byte) :
    chunkValues n bytes =
      (List.range n).map (fun i => leValue (padChunk ((bytes.drop (8 * i)).take 8))) := by
  induction n generalizing bytes with
  | zero => rfl
  | succ n ih =>
    simp only [List.range_succ_eq_map, List.map_cons, List.map_map, chunkValues, ih, List.drop_drop]
    simp [Function.comp_def, Nat.mul_add, Nat.add_comm]

@[simp] theorem chunkValues_length (n : Nat) (bytes : List Byte) : (chunkValues n bytes).length = n := by
  simp [chunkValues_eq_map]

/-- The chunks of the bytes of 8-byte values are the values. -/
theorem chunkValues_flatMap (es : List DWord) (tail : List Byte) :
    chunkValues es.length (es.flatMap (leBytes 8) ++ tail) = es := by
  induction es with
  | nil => rfl
  | cons e es ih =>
    simp only [List.length_cons, chunkValues, List.flatMap_cons, List.append_assoc]
    have h1 : List.take 8 (leBytes 8 e ++ (es.flatMap (leBytes 8) ++ tail)) = leBytes 8 e := by
      rw [List.take_append_of_le_length (by simp)]
      exact List.take_of_length_le (by simp)
    have h2 : List.drop 8 (leBytes 8 e ++ (es.flatMap (leBytes 8) ++ tail)) =
        es.flatMap (leBytes 8) ++ tail := by
      rw [List.drop_append_of_le_length (by simp), List.drop_of_length_le (by simp)]
      rfl
    rw [h1, h2, ih, padChunk_full _ (by simp), leValue_leBytes]

/-- The bytes of the chunks of a byte string start with the string; zeros follow. -/
theorem flatMap_chunkValues (n : Nat) (bs : List Byte) (hn : bs.length ≤ 8 * n) :
    ((chunkValues n bs).flatMap (leBytes 8)).take bs.length = bs := by
  induction n generalizing bs with
  | zero =>
    have : bs = [] := by simpa using hn
    subst this
    rfl
  | succ n ih =>
    simp only [chunkValues, List.flatMap_cons]
    rw [leBytes_leValue _ (by simp [padChunk])]
    rcases Nat.lt_or_ge bs.length 8 with h | h
    · have : padChunk (bs.take 8) = bs ++ List.replicate (8 - bs.length) 0 := by
        rw [List.take_of_length_le (by omega)]
        rfl
      rw [this, List.append_assoc, List.take_append_of_le_length (by simp)]
      simp
    · have : padChunk (bs.take 8) = bs.take 8 := padChunk_full _ (by simp; omega)
      rw [this, List.take_append, List.take_of_length_le (by simp)]
      have := ih (bs.drop 8) (by simp; omega)
      simp only [List.length_drop] at this
      rw [List.length_take, Nat.min_eq_left h, this]
      simp

/-- A frame's length (30_encoding.md rule R58). -/
@[simp] theorem refEncode_length (h : BlockFn) (o : PairOrder) (k : Key) (c : DWord) (bs : List Byte) :
    (refEncode h o k c bs).length = frameLength bs.length := by
  simp only [refEncode, List.length_append, flatMap_leBytes_length, leBytes_length, refCiphertext_length,
    chunkValues_length, frameLength]
  omega

/-! ### Reads of IBUF as byte strings -/

theorem memRead_drop_take (s : State) (m a j : Nat) :
    ((s.memRead 0 m).drop a).take j = s.memRead a (min j (m - a)) := by
  apply List.ext_getElem?
  intro k
  simp [State.memRead, List.getElem?_take]
  grind

theorem memRead_take (s : State) (m j : Nat) : (s.memRead 0 m).take j = s.memRead 0 (min j m) := by
  simpa using memRead_drop_take s m 0 j

theorem memRead_drop (s : State) (m a : Nat) : (s.memRead 0 m).drop a = s.memRead a (m - a) := by
  have := memRead_drop_take s m a m
  rw [List.take_of_length_le (by simp)] at this
  rw [this]
  congr 1
  omega

/-- The chunks of the plaintext are the ones ENCODE fetches (42_encode.md rule R92). -/
theorem chunkValues_memRead (s : State) (n m : Nat) :
    chunkValues n (s.memRead 0 m) =
      (List.range n).map (fun i => leValue (padChunk (s.memRead (8 * i) (chunkLength m i)))) := by
  simp [chunkValues_eq_map, memRead_drop_take, chunkLength]

/-- Byte `k` of the header of the frame in `IBUF`. -/
theorem memReadDWord_byte (s : State) (k : Nat) (hk : k < 8) :
    (s.memReadDWord 0).extractLsb' (8 * k) 8 = s.ibufByte k := by
  rw [State.memReadDWord, leValue_byte _ _ hk]
  simp [State.memRead, hk]

/-! ### ENCODE's loop -/

/-- The ciphertext of block `i` of an ENCODE about to complete. -/
def encBlockValue (h : BlockFn) (s : State) (i : Nat) : DWord :=
  join s.cfg.pairOrder
    (xorPair (refKeystream h s.key (maskCounter s.ctr + BitVec.ofNat 64 i))
      (pair s.cfg.pairOrder (leValue (padChunk (s.memRead (8 * i) (chunkLength s.ilen.toNat i))))))

/-- ENCODE's loop after `n` blocks: the accumulator, and the ciphertext bytes in `OBUF`. -/
theorem encLoop_spec (h : BlockFn) (s : State) (n : Nat) :
    let t := repeatBlocks (encBlock h) n (encStart s)
    (t.ax, t.ay) =
        refTag h s.cfg.pairOrder s.key (halves (maskCounter s.ctr)) ((List.range n).map (encBlockValue h s)) ∧
      ∀ i j, i < n → j < 8 →
        t.obuf.get? (8 + 8 * i + j) = some ((encBlockValue h s i).extractLsb' (8 * j) 8) := by
  induction n with
  | zero => simp [repeatBlocks, refTag, encStart]
  | succ n ih =>
    obtain ⟨ih1, ih2⟩ := ih
    have hm := memRead_congr (s := repeatBlocks (encBlock h) n (encStart s)) (t := s) (by simp) (by simp)
    have hc : encCipher h (repeatBlocks (encBlock h) n (encStart s)) =
        pair s.cfg.pairOrder (encBlockValue h s n) := by
      simp [encCipher, encBlockValue, keystream, refKeystream, encLoop_wc, encChunk, encLoop_bi, hm]
    simp only [repeatBlocks_succ]
    constructor
    · rw [List.range_succ, List.map_append, List.map_singleton, refTag_append, ← ih1]
      simp [foldTag, refFold, hc]
    · intro i j hi hj
      rw [encBlock_obuf, encLoop_bi, hc]
      simp only [encStart_bi, Nat.zero_add]
      rcases Nat.lt_or_ge i n with hlt | hge
      · rw [get?_store_outside (by omega)]
        exact ih2 i j hlt hj
      · obtain rfl : i = n := by omega
        rw [get?_store_inside (by omega) (by simp; omega), show 8 + 8 * i + j - (8 + 8 * i) = j by omega,
          leBytes_getElem? _ _ _ hj]
        simp

/-! ### DECODE's loop -/

/-- The ciphertext block `i` of the frame in `IBUF` (43_decode.md rule R104). -/
def decBlockValue (s : State) (i : Nat) : DWord := s.memReadDWord (8 + 8 * i)

/-- The plaintext of block `i` of a DECODE about to complete. -/
def decPlainValue (h : BlockFn) (s : State) (i : Nat) : DWord :=
  join s.cfg.pairOrder
    (xorPair (refKeystream h s.key (headerCounter (s.memReadDWord 0) + BitVec.ofNat 64 i))
      (pair s.cfg.pairOrder (decBlockValue s i)))

/-- DECODE's loop after `n` blocks: the accumulator, and the plaintext bytes in `OBUF`. -/
theorem decLoop_spec (h : BlockFn) (s : State) (n : Nat) :
    let t := repeatBlocks (decBlock h) n (decStart (decHeader s))
    (t.ax, t.ay) =
        refTag h s.cfg.pairOrder s.key (halves (headerCounter (s.memReadDWord 0)))
          ((List.range n).map (decBlockValue s)) ∧
      ∀ i j, i < n → j < 8 →
        t.obuf.get? (8 * i + j) = some ((decPlainValue h s i).extractLsb' (8 * j) 8) := by
  induction n with
  | zero => simp [repeatBlocks, refTag, decStart, decHeader]
  | succ n ih =>
    obtain ⟨ih1, ih2⟩ := ih
    have hm := memRead_congr (s := repeatBlocks (decBlock h) n (decStart (decHeader s))) (t := s) (by simp)
      (by simp)
    have hc : decCipher (repeatBlocks (decBlock h) n (decStart (decHeader s))) =
        pair s.cfg.pairOrder (decBlockValue s n) := by
      simp [decCipher, decBlockValue, decLoop_bi, State.memReadDWord, hm]
    simp only [repeatBlocks_succ]
    constructor
    · rw [List.range_succ, List.map_append, List.map_singleton, refTag_append, ← ih1]
      simp [foldTag, refFold, hc]
    · intro i j hi hj
      rw [decBlock_obuf, decLoop_bi, hc]
      simp only [decStart_bi, Nat.zero_add]
      rcases Nat.lt_or_ge i n with hlt | hge
      · rw [get?_store_outside (by omega)]
        exact ih2 i j hlt hj
      · obtain rfl : i = n := by omega
        rw [get?_store_inside (by omega) (by simp; omega), show 8 * i + j - 8 * i = j by omega,
          leBytes_getElem? _ _ _ hj]
        simp [decPlainValue, keystream, refKeystream, decLoop_wc]

end Sys2Proof.Machine
end

