-- ==== Sys2Proof/Laws/Runs.lean ====
section
/-! SUPPORT. Runs: what one more step makes of a run and of what is counted along it, how two runs join, and what the access of one
step can do. -/
namespace Sys2Proof.Machine

/-! ### One step more -/

theorem run_succ_of_next {s t : State} (h : step s = .next t) (k : Nat) :
    Host.Core.run core (k + 1) s = Host.Core.run core k t := by
  have hs : core.step s = .next t := h
  simp only [Host.Core.run, hs]

/-- A run that ends in a state has a first step. -/
theorem run_succ_next {k : Nat} {s t : State} (h : Host.Core.run core (k + 1) s = .next t) :
    ∃ u, step s = .next u ∧ Host.Core.run core k u = .next t := by
  have hs : core.step s = step s := rfl
  simp only [Host.Core.run, hs] at h
  rcases hu : step s with u | f | r <;> rw [hu] at h
  · exact ⟨u, rfl, h⟩
  · cases h
  · cases h

theorem noResetAlong_succ {s t : State} (h : step s = .next t) (k : Nat) :
    noResetAlong (k + 1) s ↔ s.resetsNow = false ∧ noResetAlong k t := by
  simp only [noResetAlong, h]

theorem blocksAlong_succ {s t : State} (h : step s = .next t) (k : Nat) :
    blocksAlong (k + 1) s = s.blocksNow + blocksAlong k t := by
  simp only [blocksAlong, h]

theorem accessesAlong_succ {s t : State} (h : step s = .next t) (k : Nat) :
    accessesAlong (k + 1) s = s.accessNow ++ accessesAlong k t := by
  simp only [accessesAlong, h]

theorem countAlong_succ {s t : State} (h : step s = .next t) (n : Option Nat) (k : Nat) :
    countAlong n (k + 1) s = countAlong (s.countNow n) k t := by
  simp only [countAlong, h]

/-! ### Two runs in a row -/

theorem run_add {k : Nat} {s t : State} (h : Host.Core.run core k s = .next t) (j : Nat) :
    Host.Core.run core (k + j) s = Host.Core.run core j t := by
  induction k generalizing s with
  | zero =>
    cases h
    rw [Nat.zero_add]
  | succ k ih =>
    obtain ⟨u, hu, hr⟩ := run_succ_next h
    rw [Nat.succ_add, run_succ_of_next hu, ih hr]

theorem countAlong_add {k : Nat} {s t : State} (h : Host.Core.run core k s = .next t) (n : Option Nat) (j : Nat) :
    countAlong n (k + j) s = countAlong (countAlong n k s) j t := by
  induction k generalizing s n with
  | zero =>
    cases h
    rw [Nat.zero_add, countAlong]
  | succ k ih =>
    obtain ⟨u, hu, hr⟩ := run_succ_next h
    rw [Nat.succ_add, countAlong_succ hu, countAlong_succ hu, ih hr]

/-! ### What one step's access can do -/

/-- Everything a step that is no reset can do, by the access the host makes in it. -/
theorem step_access {s t : State} (hn : s.resetsNow = false) (h : step s = .next t) :
    (s.accessNow = [] ∧ ((∃ g, t = s.popSched.withHost g ∧ g.reply = s.host.reply) ∨
        (s.ph.busy = true ∧ coreTurn s.popSched = .next t))) ∨
      (∃ l a n v, s.accessNow = [.write a n v] ∧ busWrite a n v (s.popSched.hostProgress l) = .next t) ∨
      ∃ l a n, s.accessNow = [.read a n] ∧ ∃ g, t = s.popSched.withHost g ∧
        g.reply = readReply (s.popSched.hostProgress l) n (classify s true a n) := by
  have hne : s.nextAgent ≠ .env := by simpa [State.resetsNow] using hn
  unfold step takeTurn at h
  rcases ha : s.nextAgent with _ | _ | _ <;> rw [ha] at h <;> simp only [agentMove] at h
  · simp only [State.accessNow, ha, if_true]
    rcases hostTurn_next h with ⟨h1, h2⟩ | ⟨l, a, n, v, h1, h2⟩ | ⟨l, a, n, h1, h2⟩ <;>
      rw [show nextAccess s.popSched = nextAccess s from rfl] at h1 <;> rw [h1]
    · exact .inl ⟨rfl, .inl h2⟩
    · exact .inr (.inl ⟨l, a, n, v, rfl, h2⟩)
    · exact .inr (.inr ⟨l, a, n, rfl, _, h2, capture_reply _ _⟩)
  · refine .inl ⟨by simp [State.accessNow, ha], ?_⟩
    rcases hb : s.ph.busy with _ | _
    · rw [coreTurn, popSched_ph, pending_of_not_busy hb] at h
      exact .inl ⟨s.host, (Host.Outcome.next.inj h).symm, rfl⟩
    · exact .inr ⟨rfl, h⟩
  · exact absurd ha hne

/-- A step makes at most one access. -/
theorem accessNow_cases (s : State) : s.accessNow = [] ∨ ∃ a, s.accessNow = [a] := by
  unfold State.accessNow
  split
  · rcases nextAccess s with _ | a
    · exact .inl rfl
    · exact .inr ⟨a, rfl⟩
  · exact .inl rfl

theorem regWrite_inj {c : Config} {r r' : Reg} {v v' : Word} :
    regWrite c r v = regWrite c r' v' ↔ r = r' ∧ v = v' := by
  refine ⟨fun h => ?_, by rintro ⟨rfl, rfl⟩; rfl⟩
  simp only [regWrite, Access.write.injEq, true_and] at h
  exact ⟨targetAddress_reg_inj h.1, by simpa using congrArg (BitVec.setWidth 32) h.2⟩

/-- A register write is no input write unless the register is `ILEN`. -/
theorem regWrite_writesInput {c : Config} {r : Reg} (hr : r ≠ .ilen) (v : Word) :
    (regWrite c r v).writesInput c = false := by
  have h1 : targetAddress c (.reg r) ≠ targetAddress c (.reg .ilen) := fun h => hr (targetAddress_reg_inj h)
  have h2 : targetAddress c (.reg r) < ibufAddress c 0 := by
    rcases r with _ | _ | _ | _ | j | _ | _ <;> simp only [targetAddress, ibufAddress, Reg.offset] <;> omega
  simp only [regWrite, Access.writesInput, Bool.or_eq_false_iff, Bool.and_eq_false_iff, beq_eq_false_iff_ne,
    decide_eq_false_iff_not]
  exact ⟨.inl h1, .inl (by omega)⟩

/-- An input write changes `ILEN` and `IBUF` at most, and its answer is no value. -/
theorem busWrite_input {s t : State} {a : Nat} {n : Width} {v : DWord}
    (hw : (Access.write a n v).writesInput s.cfg = true) (h : busWrite a n v s = .next t) :
    ∃ l b g, t = { s with ilen := l, ibuf := b, host := g } ∧ ∀ v, g.reply ≠ .value v := by
  have still : ∃ l b g, s.raiseBusError = { s with ilen := l, ibuf := b, host := g } ∧ ∀ v, g.reply ≠ .value v :=
    ⟨s.ilen, s.ibuf, _, rfl, by intro v; simp⟩
  unfold busWrite at h
  split at h
  · cases h
  · cases h
    exact still
  · rename_i o hc
    split_ifs at h
    · have : o = 8 := by
        unfold classify at hc
        split_ifs at hc
        unfold regionAt at hc
        split_ifs at hc
        simp only [Region.register.injEq] at hc
        simp [Access.writesInput, targetAddress, Reg.offset, ibufAddress] at hw
        omega
      subst this
      exact ⟨v.setWidth 32, s.ibuf, _, (Host.Outcome.next.inj h).symm, by intro v; simp [State.answer]⟩
    · cases h
      exact still
  · cases h
    exact ⟨s.ilen, _, _, rfl, by intro v; simp [State.answer]⟩
  · cases h
    exact still

/-! ### Keyed runs without a reset -/

/-- While keyed, a step that is no reset leaves the machine keyed and keeps the key and the seed. -/
theorem keyed_step {s t : State} (hk : s.ph.keyed = true) (hr : s.resetsNow = false) (h : step s = .next t) :
    t.ph.keyed = true ∧ t.key = s.key ∧ t.seed = s.seed := by
  have hne : s.nextAgent ≠ .env := by simpa [State.resetsNow] using hr
  rcases step_cases h with ⟨ha, -⟩ | ⟨-, -, rfl⟩ | ⟨-, i, hi, he⟩ | ⟨-, g, he⟩
  · exact absurd ha hne
  · exact ⟨hk, rfl, rfl⟩
  · rcases exec_next_cases he with ⟨h1, -⟩ | ⟨-, h1, -⟩ | ⟨-, h1, -⟩ | ⟨-, -, -, rfl⟩ | ⟨-, -, -, rfl⟩
    · simp [hi] at h1
    · exact absurd hi h1
    · rw [show s.ph = .busyInit from h1] at hk
      cases hk
    · simp [Phase.keyed]
    · obtain ⟨-, h2, -, h4, -⟩ := decodeComplete_unwritten (applyPrimitive s.popSched.cfg.prim) s.popSched
      exact ⟨by simp [Phase.keyed], h2, h4⟩
  · refine ⟨?_, ?_⟩
    · rcases he.phase with h1 | ⟨i, h1, h2⟩
      · exact (congrArg Phase.keyed h1).trans hk
      · rw [show s.ph = issuePhase i from h1] at hk
        cases i
        · cases hk
        · simp [h2, busyPhase, Phase.keyed]
        · simp [h2, busyPhase, Phase.keyed]
    · rcases he.locked with h1 | h1
      · exact h1
      · rw [show s.ph = .unkeyed from h1] at hk
        cases hk

/-- While keyed no INIT completes, so without a reset the blocks since INIT are the blocks of the run added. -/
theorem countAlong_of_keyed {k : Nat} {s t : State} (hk : s.ph.keyed = true) (hn : noResetAlong k s)
    (h : Host.Core.run core k s = .next t) (n : Option Nat) :
    countAlong n k s = n.map (· + blocksAlong k s) := by
  induction k generalizing s n with
  | zero => cases n <;> rfl
  | succ k ih =>
    obtain ⟨u, hu, hr⟩ := run_succ_next h
    obtain ⟨hn1, hn2⟩ := (noResetAlong_succ hu k).mp hn
    rw [countAlong_succ hu, ih (keyed_step hk hn1 hu).1 hn2 hr, blocksAlong_succ hu]
    have hp : s.ph ≠ .busyInit := by
      intro hp
      rw [hp] at hk
      cases hk
    have e : s.countNow n = n.map (· + s.blocksNow) := by
      rcases ha : s.nextAgent with _ | _ | _
      · simp [State.countNow, State.blocksNow, ha]
      · simp [State.countNow, ha, hp]
      · simp [State.resetsNow, ha] at hn1
    rw [e, Option.map_map]
    congr 1
    funext x
    exact Nat.add_assoc x _ _

end Sys2Proof.Machine
end

