-- ==== Sys2Proof/Tests/Slice0.lean ====
section
/-! SUPPORT. Small tests with expected results from the spec's examples (95_test_vectors.md), and for every obligation with
hypotheses a state and operands that meet them. -/
namespace Sys2Proof.Machine

/-! ### Helpers -/

/-- A property of the next state, false of a stop. -/
def after (o : Host.Outcome State Fault Refusal) (p : State → Bool) : Bool :=
  match o with
  | .next s => p s
  | .fault _ => false
  | .refused _ => false

/-- `K8` of 95_test_vectors.md. -/
def testKey : Key := { k0 := 0x12931133, k1 := 0x94813456, k2 := 0x19293456, k3 := 0x9911AACC }

/-- "Hello, World!" (V6). -/
def helloBytes : List Byte := [0x48, 0x65, 0x6C, 0x6C, 0x6F, 0x2C, 0x20, 0x57, 0x6F, 0x72, 0x6C, 0x64, 0x21]

/-- `F20`, the frame of V20. -/
def frame20 : List Byte :=
  [0x85, 0x90, 0xA1, 0xB2, 0xC3, 0xD4, 0xE5, 0xF6, 0xB3, 0x06, 0xF1, 0xC9, 0xB7, 0xE1, 0xAD, 0x88,
    0x12, 0x2B, 0xF4, 0x18, 0x31, 0x80, 0xE0, 0x71, 0x2C, 0x54, 0x3F, 0x1A, 0x6B, 0xD0, 0xA4, 0xCF]

/-- A keyed state with an input, in a phase. -/
def keyedState (p : Phase) (input : List Byte) : State :=
  { State.reset with
    ph := p
    key := testKey
    ctr := 0xFEDCBA9876543210
    ilen := BitVec.ofNat 32 input.length
    ibuf := Memory.store [] 0 input }

/-- ENCODE of V20, about to complete. -/
def encState : State := keyedState .busyEnc helloBytes

/-- DECODE of V35, about to complete. -/
def decState : State := keyedState .busyDec frame20

/-- A state whose host runs a script, from its first line. -/
def withScript (s : State) (lines : List Line) : State :=
  { s with host := { HostSide.start with script := lines } }

/-- A state in which a given agent moves next. -/
def turnOf (a : Agent) (s : State) : State := { s with sched := [a] }

/-- The first `n` bytes a host can read of OBUF. -/
def shown (s : State) (n : Nat) : List Byte := (List.range n).map s.gatedByte

/-! ### Well-formedness: an ill-formed term for each check -/

/-- 30_encoding.md rule R51: op 5, and op 2 with a bit of 31:8 set. -/
theorem test_commandWordWf : commandWordWf 3 = true ∧ commandWordWf 5 = false ∧ commandWordWf 0x102 = false := by decide

/-- 00_scope.md rule R5: BUFSZ 28, 16, 65544 and BASE 0x1000 are out of range. -/
theorem test_configWf :
    Config.default.wf = true ∧ { Config.default with bufsz := 28 }.wf = false ∧
      { Config.default with bufsz := 16 }.wf = false ∧ { Config.default with bufsz := 65544 }.wf = false ∧
      { Config.default with base := 0x1000 }.wf = false := by decide

/-- 20_memory.md rule R35: a 1-byte write of 0x100. -/
theorem test_accessWf : (Access.write 0 .one 0xFF).wf = true ∧ (Access.write 0 .one 0x100).wf = false := by decide

/-- 30_encoding.md rule R64: a jump with no label, an ill-formed access, and a script with no HALT. -/
theorem test_scriptWf :
    scriptWf [.label 1, .jset 2 1, .jclr 2 1, .halt] = true ∧ scriptWf [.jset 2 1, .halt] = false ∧
      scriptWf [.jclr 2 1, .halt] = false ∧ scriptWf [.bus (.write 0 .one 0x100), .halt] = false ∧
      scriptWf [.cmd .init] = false := by decide

/-! ### Decoding: words written bit by bit from rule R50 (bits 31:8 zero, `op` in bits 7:0) -/

theorem test_decode_init : decode 0b00000000000000000000000000000001 = .ok .init := by decide
theorem test_decode_encode : decode 0b00000000000000000000000000000010 = .ok .encode := by decide
theorem test_decode_decode : decode 0b00000000000000000000000000000011 = .ok .decode := by decide

/-- Rule R51 on words of V16, and three bytes only. -/
theorem test_decode_illegal :
    decode 0b00000000000000000000000100000010 = .error .reservedBits ∧
      decode 0b00000000000000000000000000000000 = .error .illegalOpcode ∧
      decodeBytes [0x01, 0x00, 0x00] = .error .truncated := by decide

/-- The bytes of a command word, lowest address first (20_memory.md rule R33). -/
theorem test_decode_bytes :
    decodeBytes [0x02, 0, 0, 0, 0xAA] = .ok (.encode, [0xAA]) ∧ encodeBytes .decode = [0x03, 0, 0, 0] ∧
      decodeTableWord 32 1 = some .init ∧ decodeTableWord 32 4 = none := by decide

/-! ### Operands (V1 to V7) -/

/-- V1 and V2. -/
theorem test_header :
    packHeader 0x0123456789ABCDEF 3 = 0x091A2B3C4D5E6F7B ∧
      leBytes 8 (packHeader 0x1EDCBA9876543210 5) = frame20.take 8 ∧
      headerCounter 0xFFFFFFFFFFFFFFFF = 0x1FFFFFFFFFFFFFFF ∧ headerRem 0xF6E5D4C3B2A19085 = 5 := by decide

/-- V3 and V4. -/
theorem test_lengths :
    frameLength 0 = 16 ∧ frameLength 8 = 24 ∧ frameLength 9 = 32 ∧ frameLength 65521 = 65544 ∧
      plainLength 24 0 = 8 ∧ plainLength 32 5 = 13 ∧ plainLength 65536 7 = 65519 := by decide

/-- V5. -/
theorem test_pairs :
    halves 0x0123456789ABCDEF = (0x01234567, 0x89ABCDEF) ∧
      pair .loHi 0x0123456789ABCDEF = (0x89ABCDEF, 0x01234567) ∧
      join .loHi (0x01234567, 0x89ABCDEF) = 0x89ABCDEF01234567 := by decide

/-- V6: the second chunk of "Hello, World!". -/
theorem test_chunk : encChunk { encState with bi := 1 } = 0x00000021646C726F := by decide +kernel

/-! ### The primitive -/

/-- V10, fifth row. -/
theorem test_hRef : hRef 0x01234567 0x89ABCDEF testKey = (0xEE2EE677, 0xA8360BEF) := by decide +kernel

/-- V11, the state and the subkeys after round 1. -/
theorem test_rounds :
    refRounds 2 testKey 0x01234567 0x89ABCDEF = (0xC0E5518C, 0x11549007) ∧
      subkeysAfter 2 testKey = { k0 := 0x4F0204A5, k1 := 0x93162C80, k2 := 0x97D9C330, k3 := 0xC2B23E42 } := by
  decide +kernel

/-- V12. -/
theorem test_hRefInv : hRefInv 0xEE2EE677 0xA8360BEF testKey = (0x01234567, 0x89ABCDEF) := by decide +kernel

/-! ### The commands, one step each -/

/-- V17: INIT's completion takes the seed unmasked. -/
theorem test_init :
    after (exec .init { State.reset with ph := .busyInit, key := testKey, seed := 0xFEDCBA9876543210 })
      (fun t => t.ctr == 0xFEDCBA9876543210 && t.key == testKey && t.olen == 0 && t.status == 0x00000005) =
        true := by decide

/-- V15: INIT written in IDLE. -/
theorem test_init_twice :
    after (exec .init (keyedState .idle [])) (fun t => t.status == 0x00000211) = true := by decide

/-- V20. -/
theorem test_encode :
    after (exec .encode encState)
      (fun t => shown t 32 == frame20 && t.olen == 32 && t.ctr == 0x1EDCBA9876543212 && t.status == 5) = true := by
  decide +kernel

/-- V16: ENCODE of 0xFFFFFFFF bytes; the frame length does not wrap. -/
theorem test_encode_length :
    after (exec .encode { keyedState .idle [] with ilen := 0xFFFFFFFF }) (fun t => t.status == 0x00000311) =
      true := by decide

/-- V35: DECODE accepts, and its output past OLEN is gated. -/
theorem test_decode_accept :
    after (exec .decode decState)
      (fun t => shown t 16 == helloBytes ++ [0, 0, 0] && t.ctr == decState.ctr && t.status == 5) = true := by
  decide +kernel

/-- V30, first row: one ciphertext bit changed. -/
theorem test_decode_reject :
    after (exec .decode { decState with ibuf := decState.ibuf.set 8 0xB2 })
      (fun t => t.status == 0x0000000D && t.olen == 0 && shown t 16 == List.replicate 16 0) = true := by
  decide +kernel

/-! ### The bus -/

/-- V42. -/
theorem test_input_widths :
    after (busWrite 0x10000 .eight 0x0807060504030201 State.reset) (fun s =>
      after (busRead 0x10002 .two s) (fun t => t.host.reply == .value 0x0403) &&
        after (busRead 0x10004 .four s) (fun t => t.host.reply == .value 0x08070605)) = true := by decide

/-- V40: rows 1, 4 and 7, and the gap above a buffer of 4096 bytes. -/
theorem test_busErrors :
    after (busRead 0x10 .four State.reset) (fun t => t.host.reply == .busError) = true ∧
      after (busRead 0x10001 .two State.reset) (fun t => t.host.reply == .busError) = true ∧
      after (busWrite 0x10 .four 0 (keyedState .idle [])) (fun t => t.host.reply == .busError) = true ∧
      after (busRead 0x11000 .one { State.reset with cfg := { Config.default with bufsz := 4096 } })
        (fun t => t.host.reply == .busError) = true := by decide

/-- V41: a read across OLEN (bytes 13 to 15 gated). -/
theorem test_gate :
    after (busRead 0x20008 .eight { keyedState .idle [] with olen := 13, obuf := Memory.store [] 0 helloBytes })
      (fun t => t.host.reply == .value 0x00000021646C726F) = true := by decide

/-- P4: `WR OLEN, 7` is a bus error and the script goes on. -/
theorem test_script_busError :
    after (step (withScript State.reset [.wr (.reg .olen) 7, .halt]))
      (fun t => t.olen == 0 && t.host.reply == .busError && t.host.pc == 1) = true := by decide

/-- A word placed for the fetch: ENCODE right after reset is refused with `E_STATE` (V15). -/
theorem test_fetch :
    after (step (State.reset.withFetchWord 32 1)) (fun t => t.ph == .busyInit && t.status == 2) = true ∧
      after (step (State.reset.withFetchWord 32 2)) (fun t => t.status == 0x00000210) = true := by decide

/-! ### Witnesses: states and operands that meet the hypotheses of each obligation, clause by clause -/

theorem test_witness_HeaderPackUnpack : (0x1FFFFFFFFFFFFFFF : DWord).toNat < 2 ^ 61 := by decide

theorem test_witness_PlainLengthInvertsFrameLength :
    (24 ≤ 24 ∧ 24 % 8 = 0) ∧ (24 ≤ 65536 ∧ 65536 % 8 = 0) ∧ 1 ≤ 1 := by decide

theorem test_witness_ResetEventFromEveryState : (turnOf .env decState).nextAgent = .env := by decide

/-- One step of each agent, and each issue. -/
theorem test_witness_PhaseTransitions :
    after (step (turnOf .env encState)) (fun t => t.ph == .unkeyed) = true ∧
      after (step (turnOf .core State.reset)) (fun t => t.ph == .unkeyed) = true ∧
      after (step (turnOf .core { encState with ilen := 0 })) (fun t => t.ph == .idle) = true ∧
      after (step (withScript State.reset [.cmd .init])) (fun t => t.ph == .busyInit) = true ∧
      after (step (withScript (keyedState .idle []) [.cmd .encode])) (fun t => t.ph == .busyEnc) = true ∧
      after (step (withScript (keyedState .idle []) [.cmd .decode])) (fun t => t.ph == .busyDec) = true := by
  decide +kernel

/-- Each flag rises. -/
theorem test_witness_FlagsSetOnlyByTheirEvents :
    (encState.done = false ∧ after (step { encState with ilen := 0 }) (fun t => t.done) = true) ∧
      (decState.rej = false ∧ after (step { decState with ilen := 23 }) (fun t => t.rej) = true) ∧
      (State.reset.err = false ∧ after (step (withScript State.reset [.wr (.reg .cmd) 0])) (fun t => t.err) = true) := by
  decide +kernel

/-- Not busy, with every outcome: `E_OPCODE`, `E_STATE` twice, `E_LEN` twice, the three busy phases (V15, V16). -/
theorem test_witness_IssueAttemptOutcome :
    State.reset.ph.busy = false ∧ (keyedState .idle []).ph.busy = false ∧
      after (busWrite 0 .four 5 State.reset) (fun t => t.status == 0x110) = true ∧
      after (busWrite 0 .four 3 State.reset) (fun t => t.status == 0x210) = true ∧
      after (busWrite 0 .four 1 (keyedState .idle [])) (fun t => t.status == 0x211) = true ∧
      after (busWrite 0 .four 2 { keyedState .idle [] with ilen := 65521 }) (fun t => t.status == 0x311) = true ∧
      after (busWrite 0 .four 3 { keyedState .idle [] with ilen := 65537 }) (fun t => t.status == 0x311) = true ∧
      after (busWrite 0 .four 1 State.reset) (fun t => t.status == 0x2) = true ∧
      after (busWrite 0 .four 2 { keyedState .idle [] with ilen := 65520 }) (fun t => t.status == 0x3) = true ∧
      after (busWrite 0 .four 3 { keyedState .idle [] with ilen := 65536 }) (fun t => t.status == 0x3) = true := by
  decide

/-- Not busy, refused and accepted. -/
theorem test_witness_IssueFrame :
    State.reset.ph.busy = false ∧ after (exec .decode State.reset) (fun t => t.err) = true ∧
      after (exec .init State.reset) (fun t => !t.err) = true := by decide

theorem test_witness_CommandWhileOtherPending :
    encState.ph.busy = true ∧ encState.ph ≠ busyPhase .init := by decide

theorem test_witness_OversizedCompletionFaults :
    (encState.ph = .busyEnc ∧ Config.default.bufsz < frameLength (65521 : Word).toNat) ∧
      (decState.ph = .busyDec ∧ 24 ≤ (65544 : Word).toNat ∧ (65544 : Word).toNat % 8 = 0 ∧
        Config.default.bufsz < (65544 : Word).toNat) := by decide

theorem test_witness_InitCompletes :
    (keyedState .busyInit []).ph = .busyInit ∧ (keyedState .idle []).ph = .idle := by decide

/-- Also the longest plaintext. -/
theorem test_witness_EncodeCompletesWithFrame :
    encState.cfg.wf = true ∧ encState.ph = .busyEnc ∧ frameLength encState.ilen.toNat ≤ encState.cfg.bufsz ∧
      frameLength (65520 : Word).toNat ≤ encState.cfg.bufsz := by decide

/-- The step answers, and offset 32 is past the frame. -/
theorem test_witness_EncodeFrame :
    encState.ph = .busyEnc ∧ after (exec .encode encState) (fun _ => true) = true ∧
      frameLength encState.ilen.toNat ≤ 32 := by decide +kernel

theorem test_witness_EncodeCounterArithmetic :
    encState.cfg.wf = true ∧ encState.ph = .busyEnc ∧ frameLength encState.ilen.toNat ≤ encState.cfg.bufsz ∧
      2 ≤ encBlocks encState := by decide

theorem test_witness_EncodeEmptyPlaintext :
    (keyedState .busyEnc []).cfg.wf = true ∧ (keyedState .busyEnc []).ph = .busyEnc ∧
      (keyedState .busyEnc []).ilen = 0 := by decide

/-- The two blocks of one ENCODE, issued by the first step. -/
theorem test_witness_CounterNeverReused :
    (keyedState .idle helloBytes).ph.keyed = true ∧
      noResetAlong 1 (withScript (keyedState .idle helloBytes) [.cmd .encode]) ∧
      after (Host.Core.run core 1 (withScript (keyedState .idle helloBytes) [.cmd .encode]))
        (fun t => t.ph == .busyEnc && decide (1 < encBlocks t)) = true ∧
      blocksAlong 1 (withScript (keyedState .idle helloBytes) [.cmd .encode]) + 0 <
        blocksAlong 1 (withScript (keyedState .idle helloBytes) [.cmd .encode]) + 1 ∧
      (1 : Nat) < 0 + 2 ^ 61 :=
  ⟨rfl, ⟨rfl, trivial⟩, rfl, by omega, by decide⟩

/-- A frame that is accepted, and one for which the evaluator gives no result. -/
theorem test_witness_DecodeCompletesAsReference :
    decState.cfg.wf = true ∧ decState.ph = .busyDec ∧ decState.ilen.toNat ≤ decState.cfg.bufsz ∧
      refDecode hRef .hiLo testKey frame20 = some helloBytes ∧
      refDecode hRef .hiLo testKey (frame20.take 16) = none := by decide +kernel

/-- 23 and 25 bytes (V34). -/
theorem test_witness_DecodeRejectsBadLength :
    decState.ph = .busyDec ∧ ((23 : Word).toNat < 24 ∨ (23 : Word).toNat % 8 ≠ 0) ∧
      ((25 : Word).toNat < 24 ∨ (25 : Word).toNat % 8 ≠ 0) := by decide

/-- A completed DECODE, offset 16 past its blocks, and a frame that fails the length check. -/
theorem test_witness_DecodeFrame :
    decState.ph = .busyDec ∧ after (exec .decode decState) (fun _ => true) = true ∧
      8 * decBlocks decState ≤ 16 ∧
      after (exec .decode { decState with ilen := 31 }) (fun _ => true) = true ∧
      decCheck { decState with ilen := 31 } = false := by decide +kernel

/-- Two counters, the same inputs. -/
theorem test_witness_DecodeIgnoresCounter :
    ({ decState with ctr := 7 } : State).ctr ≠ decState.ctr ∧
      (∀ a, ({ decState with ctr := 7 } : State).ibufByte a = decState.ibufByte a) ∧
      after (exec .decode decState) (fun _ => true) = true ∧
      after (exec .decode { decState with ctr := 7 }) (fun _ => true) = true :=
  ⟨by decide, fun _ => rfl, by decide +kernel, by decide +kernel⟩

theorem test_witness_DecodeCounterFollowsHeader :
    decState.cfg.wf = true ∧ decState.ilen.toNat ≤ decState.cfg.bufsz ∧ 2 ≤ decBlocks decState := by decide

/-- A rejection by the tag, and one by the length. -/
theorem test_witness_RejectionReleasesNothing :
    after (exec .decode { decState with ibuf := decState.ibuf.set 8 0xB2 }) (fun t => t.rej) = true ∧
      after (exec .decode { decState with ilen := 16 }) (fun t => t.rej) = true := by decide +kernel

/-- V31: byte 0 changed from 0x85 to 0x80. -/
theorem test_witness_RemainderBitsAreNotCovered :
    (∀ a, a ≠ 0 →
        ({ decState with ibuf := decState.ibuf.set 0 0x80 } : State).ibufByte a = decState.ibufByte a) ∧
      ({ decState with ibuf := decState.ibuf.set 0 0x80 } : State).ibufByte 0 >>> 3 =
        decState.ibufByte 0 >>> 3 ∧
      decState.ilen.toNat ≤ decState.cfg.bufsz ∧
      after (exec .decode decState) (fun t => !t.rej && t.olen == 13) = true ∧
      after (exec .decode { decState with ibuf := decState.ibuf.set 0 0x80 }) (fun t => t.olen == 16) = true :=
  ⟨fun a ha => by simp [State.ibufByte, ha], by decide, by decide, by decide +kernel, by decide +kernel⟩

theorem test_witness_ReferenceRoundTrip : helloBytes ≠ [] := by decide

/-- The frame of V20 copied to the input buffer; and an empty plaintext. -/
theorem test_witness_EncodeDecodeRoundTrip :
    encState.cfg.wf = true ∧ encState.ph = .busyEnc ∧ encState.ilen.toNat + 16 ≤ encState.cfg.bufsz ∧
      decState.ph = .busyDec ∧ decState.cfg = encState.cfg ∧ decState.key = encState.key ∧
      decState.ilen.toNat = frameLength encState.ilen.toNat ∧
      after (exec .encode encState)
        (fun t => decide (∀ a, a < frameLength encState.ilen.toNat → decState.ibufByte a = t.obufByte a)) = true ∧
      1 ≤ encState.ilen.toNat ∧ (keyedState .busyEnc []).ilen.toNat = 0 ∧
      after (exec .encode (keyedState .busyEnc []))
        (fun t => decide (∀ a : Nat, a < 16 →
          (keyedState .busyDec (leBytes 8 0xF6E5D4C3B2A19080 ++ leBytes 8 0x1EDCBA9876543210)).ibufByte a =
            t.obufByte a)) = true := by decide +kernel

/-- A refused command, an accepted one, and an illegal word. -/
theorem test_witness_CommandsKeepInput :
    after (exec .encode State.reset) (fun _ => true) = true ∧ after (exec .init State.reset) (fun _ => true) = true ∧
      after (issueWord 5 State.reset) (fun _ => true) = true := by decide

/-- Not busy with the first and the last offset of the block and the registers' edges; another width; busy. -/
theorem test_witness_RegisterAccesses :
    State.reset.ph.busy = false ∧ (0 : Nat) % 4 = 0 ∧ 0xFFFC < 0x10000 ∧ 0xFFFC % 4 = 0 ∧
      after (busWrite 0x24 .four 0xFEDCBA98 State.reset) (fun t => t.seed == 0xFEDCBA9800000000) = true ∧
      after (busWrite 0x20 .four 0x76543210 State.reset) (fun t => t.seed == 0x76543210) = true ∧
      after (busWrite 0x10 .four 9 State.reset) (fun t => t.key.k0 == 9) = true ∧
      after (busWrite 0x1C .four 9 State.reset) (fun t => t.key.k3 == 9) = true ∧
      after (busWrite 0x28 .four 9 State.reset) (fun t => t.host.reply == .busError) = true ∧
      Width.one ≠ Width.four ∧ encState.ph.busy = true := by decide

/-- Each condition at an edge of its range, and no legal access beside them. -/
theorem test_witness_BusErrorConditions :
    Config.default.wf = true ∧ { Config.default with bufsz := 4096 }.wf = true ∧
      (0x3FFFF + Width.one.bytes ≤ 0x40000 ∧ 0x20000 + Config.default.bufsz ≤ 0x3FFFF) ∧
      (0x10001 % Width.two.bytes ≠ 0) ∧ (0x28 ≤ 0x28 ∧ 0x28 < 0x10000) ∧ (0x28 ≤ 0xFFFF ∧ 0xFFFF < 0x10000) ∧
      (0x10000 + 4096 ≤ 0x11000 ∧ 0x11000 < 0x20000) ∧ (0x10000 + 4096 ≤ 0x1FFFF ∧ 0x1FFFF < 0x20000) ∧
      0x20000 + Config.default.bufsz ≤ 0x30000 ∧ (0x04 < 0x10000 ∧ Width.two ≠ Width.four) ∧
      0x20000 ≤ 0x20000 := by decide

theorem test_witness_BusyLockout :
    encState.ph.busy = true ∧ 0x3FFFF + Width.one.bytes ≤ 0x40000 ∧ ¬ (0x08 = 0x04 ∧ Width.four = Width.four) ∧
      ¬ (0x04 = 0x04 ∧ Width.one = Width.four) := by decide

/-- The first and the last 8 bytes. -/
theorem test_witness_InputBufferAccesses :
    Config.default.wf = true ∧ State.reset.ph.busy = false ∧
      (0 + Width.eight.bytes ≤ Config.default.bufsz ∧ 0 % Width.eight.bytes = 0) ∧
      65528 + Width.eight.bytes ≤ Config.default.bufsz ∧ 65528 % Width.eight.bytes = 0 := by decide

/-- Eight bytes across `OLEN = 13`. -/
theorem test_witness_OutputBufferGate :
    Config.default.wf = true ∧ (keyedState .idle []).ph.busy = false ∧
      8 + Width.eight.bytes ≤ Config.default.bufsz ∧ 8 % Width.eight.bytes = 0 ∧ 8 + 4 < (13 : Word).toNat ∧
      ¬ 8 + 5 < (13 : Word).toNat := by decide

/-- A read; and writes to `ILEN`, `KEY0`, `IBUF` and a read-only register, none of them to `CMD`. -/
theorem test_witness_ReadsPureWritesIdempotent :
    after (busRead 0x04 .four State.reset) (fun _ => true) = true ∧
      (0x08 ≠ State.reset.cfg.base ∧ after (busWrite 0x08 .four 5 State.reset) (fun _ => true) = true) ∧
      (0x10 ≠ State.reset.cfg.base ∧ after (busWrite 0x10 .four 5 State.reset) (fun _ => true) = true) ∧
      (0x10000 ≠ State.reset.cfg.base ∧ after (busWrite 0x10000 .two 5 State.reset) (fun _ => true) = true) ∧
      (0x0C ≠ State.reset.cfg.base ∧ after (busWrite 0x0C .four 5 State.reset) (fun _ => true) = true) := by decide

/-- Above the window, across its end, and below it. -/
theorem test_witness_OutsideWindowRefused :
    0 + 0x40000 < 0x40000 + Width.one.bytes ∧ 0 + 0x40000 < 0x3FFFF + Width.two.bytes ∧ 0x3FFFF < 0x40000 := by
  decide

theorem test_witness_StepRunsWrittenCommand :
    (withScript State.reset [.cmd .init]).nextAgent = .host ∧ State.reset.ph.busy = false ∧
      (withScript State.reset [.cmd .init]).host.script[0]? = some (.cmd .init) ∧
      lineAccess State.reset.cfg (withScript State.reset [.cmd .init]).host (.cmd .init) =
        some (.write State.reset.cfg.base .four 1) ∧
      decode ((1 : DWord).setWidth 32) = .ok .init := by decide

theorem test_witness_StepCompletesPendingCommand :
    encState.nextAgent = .core ∧ encState.ph = busyPhase .encode ∧ (turnOf .core State.reset).nextAgent = .core ∧
      State.reset.ph.busy = false := by decide

/-- A poll while busy; a jump taken and one not taken. -/
theorem test_witness_PollingLines :
    (turnOf .host (withScript encState [.rd (.reg .status)])).nextAgent = .host ∧
      after (step (turnOf .host (withScript encState [.rd (.reg .status)]))) (fun t => t.host.acc == 3) = true ∧
      findLabel 7 [.label 7, .jset 2 7] = some 0 ∧
      (withScript State.reset [.jset 2 7, .label 7]).nextAgent = .host := by decide

theorem test_witness_WriteBytesLine :
    State.reset.ph.busy = false ∧ State.reset.sched = [] ∧
      (withScript State.reset [.wrb 65523 helloBytes]).host.script[0]? = some (.wrb 65523 helloBytes) ∧
      helloBytes ≠ [] ∧ 65523 + helloBytes.length ≤ State.reset.cfg.bufsz ∧ State.reset.cfg.wf = true := by decide

theorem test_witness_ReadBytesLine :
    (keyedState .idle []).ph.busy = false ∧ (keyedState .idle []).sched = [] ∧
      0 < countValue HostSide.start (.lit 16) ∧ 65520 + countValue HostSide.start (.lit 16) ≤ Config.default.bufsz ∧
      0 < countValue { HostSide.start with acc := 13 } .acc := by decide

theorem test_witness_ConstructScriptConstructs :
    (withScript State.reset (pseudoConstruct 1 testKey 5 ++ [.halt])).AfterReset ∧ State.reset.sched = [] :=
  ⟨rfl, rfl⟩

/-- A pending INIT with two host turns before the core's. -/
def pendingInit : State := { State.reset with ph := .busyInit, sched := [.host, .host] }

theorem test_witness_PendingCommandCompletes :
    pendingInit.Inv ∧ pendingInit.ph.busy = true ∧ pendingInit.sched = List.replicate 2 .host := by
  refine ⟨⟨by decide, ?_, ?_, ?_, ?_⟩, rfl, rfl⟩
  · constructor <;> simp [pendingInit, State.reset]
  · constructor <;> simp [pendingInit]
  · intro a ha
    simp [pendingInit, State.reset] at ha
  · exact ⟨List.Pairwise.nil, List.Pairwise.nil⟩

/-- `pendingInit` has the invariant; a host turn of it, and the keyed half. -/
theorem test_witness_StepKeepsInvariant :
    after (step pendingInit) (fun t => t.sched == [.host]) = true ∧ (keyedState .idle []).ph.keyed = true ∧
      (keyedState .idle []).nextAgent ≠ .env := by decide

/-- A refusal of each kind, and a core turn while busy. -/
theorem test_witness_NoStepFaults :
    step (withScript State.reset [.bus (.read 0x40000 .one)]) = .refused (.outsideWindow 0x40000) ∧
      step (withScript State.reset [.jclr 1 5]) = .refused (.noSuchLabel 5) ∧
      (turnOf .core pendingInit).nextAgent = .core ∧ pendingInit.ph.busy = true :=
  ⟨rfl, rfl, by decide, by decide⟩

theorem test_witness_StepKeepsMemoryCanonical :
    encState.MemoryWf ∧ after (step encState) (fun _ => true) = true :=
  ⟨⟨by decide, List.Pairwise.nil⟩, by decide +kernel⟩

theorem test_witness_StepKeepsParameters : after (step State.reset) (fun _ => true) = true := by decide

theorem test_witness_ConstructionLock :
    after (step (withScript (keyedState .idle []) [.wr (.reg (.key 0)) 1])) (fun t => t.host.reply == .busError) =
        true ∧
      (withScript (keyedState .idle []) [.wr (.reg (.key 0)) 1]).nextAgent ≠ .env ∧
      (keyedState .idle []).ph ≠ .unkeyed := by decide

/-- A step of each clause: a host turn, a reset, INIT, ENCODE. -/
theorem test_witness_CounterWriters :
    after (step (keyedState .idle [])) (fun t => t.ctr == 0xFEDCBA9876543210) = true ∧
      after (step (turnOf .env (keyedState .idle []))) (fun t => t.ctr == 0) = true ∧
      after (step { keyedState .busyInit [] with seed := 9 }) (fun t => t.ctr == 9) = true ∧
      after (step encState) (fun t => t.ctr == 0x1EDCBA9876543212) = true := by decide +kernel

/-- Two states with different keys, counters and seeds, about to read `OBUF`. -/
theorem test_witness_HostStepsRevealNoSecret :
    (withScript (keyedState .idle []) [.rdb 0 (.lit 1)]).PublicEq
        { withScript (keyedState .idle []) [.rdb 0 (.lit 1)] with key := State.reset.key, ctr := 1, seed := 2 } ∧
      (withScript (keyedState .idle []) [.rdb 0 (.lit 1)]).nextAgent = .host :=
  ⟨⟨rfl, rfl, rfl, rfl, rfl, rfl, rfl, rfl, rfl, rfl, rfl, rfl, fun _ => rfl⟩, rfl⟩

/-! ### Launch premises -/

/-- The script `CONSTRUCT` with the key of V20 and the seed 5, then a write of `ILEN`. -/
def constructState : State :=
  withScript State.reset (pseudoConstruct 1 testKey 5 ++ [.wr (.reg .ilen) 13, .halt])

/-- Eleven steps construct; the twelfth writes `ILEN`. -/
theorem test_witness_ConstructionSequenceConstructs :
    ∃ u t, ConstructionRun testKey 5 11 constructState u ∧ InputRun 1 u t :=
  ⟨_, _,
    ⟨rfl, ⟨rfl, rfl, rfl, rfl, rfl, rfl, rfl, rfl, rfl, rfl, rfl, trivial⟩, rfl,
      ⟨constructionWrites Config.default testKey 5, [statusPoll Config.default], by decide, List.Perm.refl _,
        by decide, by decide⟩, 5, rfl, by decide⟩,
    ⟨⟨rfl, trivial⟩, rfl, by decide⟩⟩

/-- A pending INIT; then an ENCODE of 13 bytes, a poll, and an ENCODE of the same 13 bytes. -/
def encodeTwice : State :=
  withScript { keyedState .busyInit helloBytes with seed := 9 } [.cmd .encode, .rd (.reg .status), .cmd .encode, .halt]

/-- INIT completes, ENCODE is issued: no block has been encoded since INIT. -/
theorem test_witness_CounterFollowsSeed :
    after (Host.Core.run core 2 encodeTwice) (fun t => t.ph == .busyEnc && decide (1 < encBlocks t)) = true ∧
      blocksSinceInit 2 encodeTwice = some 0 := by decide

/-- Two of the four blocks encoded since INIT, one of each ENCODE, and a run that stays `Fresh(5)`. -/
theorem test_witness_FreshCountersDiffer :
    (∃ t, Host.Core.run core 2 encodeTwice = .next t ∧ t.ph = .busyEnc ∧ 1 < encBlocks t ∧ noResetAlong 3 t ∧
        1 < blocksAlong 3 t + 0 ∧
        ∃ t', Host.Core.run core 3 t = .next t' ∧ t'.ph = .busyEnc ∧ t'.nextAgent = .core ∧ 0 < encBlocks t') ∧
      Fresh 5 (2 + 3 + 1) encodeTwice :=
  ⟨⟨_, rfl, rfl, by decide, ⟨rfl, rfl, rfl, trivial⟩, by decide +kernel, _, rfl, rfl, rfl, by decide +kernel⟩,
    by decide, 4, by decide +kernel, by decide⟩

end Sys2Proof.Machine
end

namespace Sys2Proof.Machine

/-! ### The invariant (10_state.md rule R28): what it says of a state that is not busy -/

/-- While no command is pending nothing is left of what issue checked. -/
theorem admitted_of_not_busy {s : State} (hb : s.ph.busy = false) : s.Admitted := by
  constructor <;> intro hp <;> rw [hp] at hb <;> cases hb

/-- `OLEN = 0` exposes no byte. -/
theorem exposedWritten_of_olen_zero {s : State} (ho : s.olen = 0) : s.ExposedWritten := by
  intro a ha
  simp [ho] at ha

/-- Rule R28 of a state in which a command has just completed: `IDLE` with `DONE`, `ERR` and `ECODE` clear (rule R75). -/
theorem rule28_of_completed {t : State} (hp : t.ph = .idle) (hd : t.done = true)
    (he : t.err = false ∧ t.ecode = 0) (hr : t.rej = true → t.olen = 0) (hb : t.olen.toNat ≤ t.cfg.bufsz)
    (hs : t.olen = 0 ∨ (t.olen.toNat % 8 = 0 ∧ 16 ≤ t.olen.toNat) ∨
      (1 ≤ t.olen.toNat ∧ t.olen.toNat + 16 ≤ t.cfg.bufsz)) : t.Rule28 where
  busyFlags h := by simp [hp, Phase.busy] at h
  rejected h := ⟨hd, hr h, hp⟩
  refusedCode h := by simp [he.1] at h
  noCode _ := he.2
  unkeyed h := by simp [hp] at h
  olenBound := hb
  olenShape := hs

/-! ### Host turns keep the invariant -/

/-- The invariant does not speak of the schedule. -/
theorem inv_popSched {s : State} (h : s.Inv) : s.popSched.Inv :=
  ⟨h.config, { h.rule28 with }, { h.admitted with }, h.exposed, h.memory⟩

/-- The invariant does not speak of the host. -/
theorem inv_withHost {s : State} (h : s.Inv) (g : HostSide) : (s.withHost g).Inv :=
  ⟨h.config, { h.rule28 with }, { h.admitted with }, h.exposed, h.memory⟩

/-- A refused issue attempt keeps the invariant (rule R28 item 3). -/
theorem inv_raiseCmdError {s : State} (h : s.Inv) (hb : s.ph.busy = false) {c : BitVec 4}
    (hc : c = eOpcode ∨ c = eState ∨ c = eLen) : (s.raiseCmdError c).Inv where
  config := h.config
  rule28 :=
    { busyFlags := fun hp => by simp [hb] at hp
      rejected := fun hr => by simp at hr
      refusedCode := fun _ => ⟨rfl, hc⟩
      noCode := fun he => by simp at he
      unkeyed := fun hp => by
        obtain ⟨hctr, holen, -⟩ := h.rule28.unkeyed hp
        exact ⟨hctr, holen, rfl⟩
      olenBound := h.rule28.olenBound
      olenShape := h.rule28.olenShape }
  admitted := admitted_of_not_busy hb
  exposed := h.exposed
  memory := h.memory

/-- Entering a busy phase keeps the invariant when the length check of rule R72 passed. -/
theorem inv_accept {s : State} (h : s.Inv) {i : Instr} (hl : lengthRefused s i = false) :
    State.Inv { s.clearFlags with ph := busyPhase i } where
  config := h.config
  rule28 :=
    { busyFlags := fun _ => ⟨rfl, rfl, rfl, rfl⟩
      rejected := fun hr => by simp at hr
      refusedCode := fun he => by simp at he
      noCode := fun _ => rfl
      unkeyed := fun hp => by cases i <;> cases hp
      olenBound := h.rule28.olenBound
      olenShape := h.rule28.olenShape }
  admitted := by
    cases i with
    | init => exact ⟨nofun, nofun⟩
    | encode => exact ⟨fun _ => by simpa [lengthRefused] using hl, nofun⟩
    | decode => exact ⟨nofun, fun _ => by simpa [lengthRefused] using hl⟩
  exposed := h.exposed
  memory := h.memory

/-- An issue attempt keeps the invariant, refused or accepted. -/
theorem inv_issue {s : State} (h : s.Inv) (hb : s.ph.busy = false) (i : Instr) : (issue i s).Inv := by
  rcases issue_cases i s with ⟨c, hc, -, e⟩ | ⟨-, hl, e⟩ <;> rw [e]
  · exact inv_raiseCmdError h hb (.inr hc)
  · exact inv_accept h hl

/-- Everything a host turn can do to the DTC keeps the invariant. -/
theorem HostEffect.keeps_inv {s t : State} {g : HostSide} (e : HostEffect s g t) (h : s.Inv) : t.Inv := by
  have h' := inv_withHost h g
  cases e with
  | quiet => exact h'
  | ilen v hb => exact ⟨h.config, { h.rule28 with }, admitted_of_not_busy hb, h.exposed, h.memory⟩
  | key | seedLow | seedHigh => exact ⟨h.config, { h.rule28 with }, { h.admitted with }, h.exposed, h.memory⟩
  | input b n v hb =>
    exact ⟨h.config, { h.rule28 with }, { h.admitted with }, h.exposed, wf_store h.memory.1 _ _, h.memory.2⟩
  | illegal hb => exact inv_raiseCmdError h' hb (.inl rfl)
  | issued i hb => exact inv_issue h' hb i

/-! ### The reset event keeps the invariant -/

theorem inv_envReset {s : State} (h : s.Inv) : s.envReset.Inv where
  config := h.config
  rule28 :=
    { busyFlags := nofun
      rejected := nofun
      refusedCode := nofun
      noCode := fun _ => rfl
      unkeyed := fun _ => ⟨rfl, rfl, rfl⟩
      olenBound := Nat.zero_le _
      olenShape := .inl rfl }
  admitted := admitted_of_not_busy rfl
  exposed := exposedWritten_of_olen_zero rfl
  memory := ⟨wf_nil, wf_nil⟩

/-! ### Completions: which bytes they list, and the lengths they write -/

/-- A stored byte is listed. -/
theorem get?_store_isSome {m : Memory} {a b : Nat} {vs : List Byte} (h : a ≤ b) (h' : b < a + vs.length) :
    ((m.store a vs).get? b).isSome = true := by
  rw [get?_store_inside h h', List.getElem?_eq_getElem (by omega)]
  rfl

/-- ENCODE's completion lists every byte of the frame: header, blocks, tag (rule R90). -/
theorem encodeComplete_obuf_listed (h : BlockFn) (s : State) {a : Nat} (ha : a < frameLength s.ilen.toNat) :
    ((encodeComplete h s).obuf.get? a).isSome = true := by
  have hf : frameLength s.ilen.toNat = 16 + 8 * encBlocks s := rfl
  rw [encodeComplete_obuf]
  rcases Nat.lt_or_ge a (8 + 8 * encBlocks s) with hlt | htag
  · rw [get?_store_outside (.inl hlt)]
    rcases Nat.lt_or_ge a 8 with hhdr | hblock
    · rw [encLoop_obuf_outside h _ _ rfl a (.inl hhdr)]
      exact get?_store_isSome (Nat.zero_le a) (by simpa using hhdr)
    · exact encLoop_obuf_listed h _ _ rfl a hblock hlt
  · exact get?_store_isSome htag (by rw [leBytes_length]; omega)

/-- DECODE's blocks list every byte of the padded plaintext (rule R104). -/
theorem decRun_obuf_listed (h : BlockFn) (s : State) {a : Nat} (ha : a < 8 * decBlocks s) :
    ((decRun h s).obuf.get? a).isSome = true :=
  decLoop_obuf_listed h _ _ rfl a ha

/-- The plaintext of a frame of legal length is nonempty and lies within its blocks (30_encoding.md rule R59). -/
theorem plainLength_bounds {L : Nat} (hL : 24 ≤ L) (rem : BitVec 3) :
    1 ≤ plainLength L rem ∧ plainLength L rem ≤ 8 * blockCount L := by
  have hlt := rem.isLt
  have hn : 1 ≤ blockCount L := by unfold blockCount; omega
  unfold plainLength
  split_ifs with h0
  · omega
  · have hpos : 0 < rem.toNat := Nat.pos_of_ne_zero fun e => h0 (BitVec.eq_of_toNat_eq e)
    omega

/-- The blocks are what header and tag leave of a frame (rule R59). -/
theorem blockCount_le (L : Nat) : 8 * blockCount L ≤ L - 16 := by
  unfold blockCount
  omega

/-- A length of at most the greatest `BUFSZ` keeps its value in `OLEN`. -/
theorem ofNat_toNat_of_le {n : Nat} (h : n ≤ 65536) : (BitVec.ofNat 32 n).toNat = n := by
  rw [BitVec.toNat_ofNat, Nat.mod_eq_of_lt (by omega)]

theorem State.Inv.bufsz_le {s : State} (h : s.Inv) : s.cfg.bufsz ≤ 65536 := (config_wf_iff.mp h.config).2.2.1

/-! ### Completions keep the invariant -/

theorem inv_initComplete {s : State} (h : s.Inv) (hp : s.ph = .busyInit) : (initComplete s).Inv where
  config := h.config
  rule28 := by
    obtain ⟨-, -, he⟩ := h.rule28.busyFlags (by rw [hp]; rfl)
    exact rule28_of_completed rfl rfl he nofun (Nat.zero_le _) (.inl rfl)
  admitted := admitted_of_not_busy rfl
  exposed := exposedWritten_of_olen_zero rfl
  memory := h.memory

/-- ENCODE's completion: `OLEN` is the frame's length, which rule R72 checked at issue. -/
theorem inv_encodeComplete {s : State} (h : s.Inv) (hp : s.ph = .busyEnc) (f : BlockFn) :
    (encodeComplete f s).Inv := by
  obtain ⟨-, hrej, he⟩ := h.rule28.busyFlags (by rw [hp]; rfl)
  have hfit := h.admitted.encode hp
  have holen : (encodeComplete f s).olen.toNat = frameLength s.ilen.toNat := by
    rw [encodeComplete_olen, ofNat_toNat_of_le (hfit.trans h.bufsz_le)]
  refine ⟨by simpa using h.config, rule28_of_completed rfl rfl (by simpa using he) (by simp [hrej]) ?_ ?_,
    admitted_of_not_busy rfl, fun a ha => ?_, by simpa using h.memory.1, encodeComplete_obuf_wf f h.memory.2⟩
  · rwa [holen, encodeComplete_cfg]
  · rw [holen]
    exact .inr (.inl (by unfold frameLength; omega))
  · exact encodeComplete_obuf_listed f s (holen ▸ ha)

/-- A rejection exposes nothing, so it keeps the invariant whatever bytes the blocks have left in `OBUF` (rule R108). -/
theorem inv_raiseReject {s : State} (hc : s.cfg.wf = true) (he : s.err = false ∧ s.ecode = 0)
    (hm : s.MemoryWf) : s.raiseReject.Inv :=
  ⟨hc, rule28_of_completed rfl rfl he (fun _ => rfl) (Nat.zero_le _) (.inl rfl), admitted_of_not_busy rfl,
    exposedWritten_of_olen_zero rfl, hm⟩

/-- An accepted frame: `OLEN` is the plaintext's length, at most `BUFSZ - 16`, and within the blocks written. -/
theorem inv_decAccept {s : State} (h : s.Inv) (hp : s.ph = .busyDec) (hlen : 24 ≤ s.ilen.toNat)
    (f : BlockFn) : (decAccept (decRun f s)).Inv := by
  obtain ⟨-, -, he⟩ := h.rule28.busyFlags (by rw [hp]; rfl)
  have hfit := h.admitted.decode hp
  have hbuf := h.bufsz_le
  obtain ⟨hpos, hblocks⟩ := plainLength_bounds hlen (headerRem (s.memReadDWord 0))
  have hframe := blockCount_le s.ilen.toNat
  have holen : (decAccept (decRun f s)).olen.toNat =
      plainLength s.ilen.toNat (headerRem (s.memReadDWord 0)) := by
    rw [decAccept_olen, decRun_ilen, decRun_wrem, ofNat_toNat_of_le (by omega)]
  have hcfg : (decAccept (decRun f s)).cfg = s.cfg := by simp
  refine ⟨hcfg ▸ h.config, rule28_of_completed rfl rfl (by simpa using he) nofun ?_ (.inr (.inr ?_)),
    admitted_of_not_busy rfl, fun a ha => ?_, by simpa using h.memory.1, decLoop_obuf_wf f _ _ h.memory.2⟩
  · rw [holen, hcfg]
    omega
  · rw [holen, hcfg]
    omega
  · exact decRun_obuf_listed f s ((holen ▸ ha).trans_le hblocks)

/-- DECODE's completion keeps the invariant on each of its three outcomes. -/
theorem inv_decodeComplete {s : State} (h : s.Inv) (hp : s.ph = .busyDec) (f : BlockFn) :
    (decodeComplete f s).Inv := by
  obtain ⟨-, -, he⟩ := h.rule28.busyFlags (by rw [hp]; rfl)
  rcases decodeComplete_cases f s with ⟨hc, -, e⟩ | ⟨-, -, e⟩ | ⟨-, e⟩ <;> rw [e]
  · exact inv_decAccept h hp (decCheck_iff.mp hc).1 f
  · exact inv_raiseReject (by simpa using h.config) (by simpa using he)
      ⟨by simpa using h.memory.1, decLoop_obuf_wf f _ _ h.memory.2⟩
  · exact inv_raiseReject h.config he h.memory

/-! ### The core's step and the machine's -/

/-- The step of the pending command is its completion. -/
theorem exec_pending_next {i : Instr} {s t : State} (hp : s.ph = busyPhase i) (h : exec i s = .next t) :
    (s.ph = .busyInit ∧ t = initComplete s) ∨
      (s.ph = .busyEnc ∧ t = encodeComplete (applyPrimitive s.cfg.prim) s) ∨
      (s.ph = .busyDec ∧ t = decodeComplete (applyPrimitive s.cfg.prim) s) := by
  rcases exec_next_cases h with ⟨hb, -⟩ | ⟨-, hn, -⟩ | ⟨-, hi, e⟩ | ⟨-, hi, -, e⟩ | ⟨-, hi, -, e⟩
  · exact absurd hp (ne_busyPhase_of_not_busy hb i)
  · exact absurd hp hn
  · exact .inl ⟨hi, e⟩
  · exact .inr (.inl ⟨hi, e⟩)
  · exact .inr (.inr ⟨hi, e⟩)

/-- A completion ends in `IDLE` (rule R75). -/
theorem exec_pending_ph {i : Instr} {s t : State} (hp : s.ph = busyPhase i) (h : exec i s = .next t) :
    t.ph = .idle := by
  rcases exec_pending_next hp h with ⟨-, rfl⟩ | ⟨-, rfl⟩ | ⟨-, rfl⟩ <;> simp

/-- A completion keeps the invariant. -/
theorem inv_exec_pending {i : Instr} {s t : State} (h : s.Inv) (hp : s.ph = busyPhase i)
    (he : exec i s = .next t) : t.Inv := by
  rcases exec_pending_next hp he with ⟨hi, rfl⟩ | ⟨hi, rfl⟩ | ⟨hi, rfl⟩
  · exact inv_initComplete h hi
  · exact inv_encodeComplete h hi _
  · exact inv_decodeComplete h hi _

/-- Every agent's move keeps the invariant. -/
theorem inv_step {s t : State} (h : s.Inv) (hs : step s = .next t) : t.Inv := by
  have hpop := inv_popSched h
  rcases step_cases hs with ⟨-, rfl⟩ | ⟨-, -, rfl⟩ | ⟨-, i, hp, he⟩ | ⟨-, g, he⟩
  · exact inv_envReset hpop
  · exact hpop
  · exact inv_exec_pending hpop hp he
  · exact he.keeps_inv hpop

/-- Settles O50: the invariant by the agent that moves (`inv_step`), item 6 of rule R28 by `keyed_step`. -/
theorem stepKeepsInvariant : Obligations.StepKeepsInvariant := by
  intro s t hinv hs
  refine ⟨inv_step hinv hs, fun hk hne => ?_⟩
  obtain ⟨hk', hkey, -⟩ := keyed_step hk (by simpa [State.resetsNow] using hne) hs
  exact ⟨hk', hkey⟩

/-! ### The phase graph (rule R16) -/

/-- `keyed` holds of the phases rule R16 lists. -/
theorem keyed_iff {p : Phase} : p.keyed = true ↔ p = .idle ∨ p = .busyEnc ∨ p = .busyDec := by
  cases p <;> simp [Phase.keyed]

/-- `busy` holds of the phases rule R16 lists. -/
theorem busy_iff_phases {p : Phase} : p.busy = true ↔ p = .busyInit ∨ p = .busyEnc ∨ p = .busyDec := by
  cases p <;> simp [Phase.busy]

/-- Settles O12: the environment resets, the core completes, and a host effect enters a busy phase only from the phase its
command is issued from. -/
theorem phaseTransitions : Obligations.PhaseTransitions := by
  refine ⟨fun p => ⟨busy_iff_phases, keyed_iff⟩, fun s t hs => ?_⟩
  rcases step_cases hs with ⟨ha, rfl⟩ | ⟨ha, hb, rfl⟩ | ⟨ha, i, hp, he⟩ | ⟨ha, g, he⟩
  · exact .inl ⟨ha, rfl⟩
  · exact .inr (.inl ⟨ha, .inr ⟨hb, rfl⟩⟩)
  · exact .inr (.inl ⟨ha, .inl ⟨busy_iff.mpr ⟨i, hp⟩, exec_pending_ph (s := s.popSched) hp he⟩⟩)
  · refine .inr (.inr ⟨ha, ?_⟩)
    rcases he.phase with hsame | ⟨i, hfrom, hto⟩
    · exact .inl hsame
    · cases i with
      | init => exact .inr (.inl ⟨hfrom, hto⟩)
      | encode => exact .inr (.inr (.inl ⟨hfrom, hto⟩))
      | decode => exact .inr (.inr (.inr ⟨hfrom, hto⟩))

/-! ### The `STATUS` view (rule R18) -/

/-- A flag placed at bit `k` of a word stands there and nowhere else. -/
theorem flagBit_shiftLeft_getLsbD (b : Bool) {k : Nat} (hk : k < 32) (i : Nat) :
    (flagBit b <<< k).getLsbD i = (b && decide (i = k)) := by
  rw [BitVec.getLsbD_shiftLeft, flagBit_getLsbD]
  rcases Nat.lt_trichotomy i k with h | h | h
  · simp [h, h.ne]
  · simp [h, hk]
  · simp [h.ne', show i - k ≠ 0 by omega]

/-- A 4-bit code placed at bits 11:8 of a word. -/
theorem code_shiftLeft_getLsbD (c : BitVec 4) (i : Nat) :
    (c.setWidth 32 <<< 8).getLsbD i = (decide (8 ≤ i ∧ i ≤ 11) && c.getLsbD (i - 8)) := by
  rw [BitVec.getLsbD_shiftLeft, BitVec.getLsbD_setWidth]
  by_cases h : 8 ≤ i ∧ i ≤ 11
  · simp [h, show i < 32 by omega, show ¬ i < 8 by omega, show i - 8 < 32 by omega]
  · rcases Nat.lt_or_ge i 8 with hlt | hge
    · simp [hlt, show ¬ 8 ≤ i by omega]
    · simp [h, BitVec.getLsbD_of_ge c (i - 8) (by omega)]

/-- `STATUS` bit by bit, as the union of its fields. -/
theorem status_getLsbD (s : State) (i : Nat) :
    s.status.getLsbD i =
      ((s.ph.keyed && decide (i = 0)) || (s.ph.busy && decide (i = 1)) || (s.done && decide (i = 2)) ||
        (s.rej && decide (i = 3)) || (s.err && decide (i = 4)) ||
        (decide (8 ≤ i ∧ i ≤ 11) && s.ecode.getLsbD (i - 8))) := by
  simp only [State.status, BitVec.getLsbD_or, flagBit_getLsbD, code_shiftLeft_getLsbD]
  rw [flagBit_shiftLeft_getLsbD _ (by decide), flagBit_shiftLeft_getLsbD _ (by decide),
    flagBit_shiftLeft_getLsbD _ (by decide), flagBit_shiftLeft_getLsbD _ (by decide)]

/-- Settles O13: the fields of `STATUS` do not overlap, so at each bit at most one of them stands. -/
theorem statusBits : Obligations.StatusBits := by
  intro s i
  rw [status_getLsbD]
  split_ifs with h0 h1 h2 h3 h4 hc
  · simp [h0]
  · simp [h1]
  · simp [h2]
  · simp [h3]
  · simp [h4]
  · simp [h0, h1, h2, h3, h4, hc]
  · simp [h0, h1, h2, h3, h4, hc]

end Sys2Proof.Machine

namespace Sys2Proof.Machine

/-! ### Commands leave the input alone (20_memory.md rule R45) -/

/-- An issue attempt writes the flags and the phase only. -/
theorem issue_keeps_input (i : Instr) (s : State) :
    (issue i s).ibuf = s.ibuf ∧ (issue i s).ilen = s.ilen ∧ (issue i s).epoch = s.epoch := by
  rcases issue_cases i s with ⟨c, -, -, e⟩ | ⟨-, -, e⟩ <;> rw [e] <;> exact ⟨rfl, rfl, rfl⟩

/-- No step of a command writes `IBUF` or `ILEN`, or draws new bytes for what the host never wrote. -/
theorem exec_keeps_input {i : Instr} {s t : State} (h : exec i s = .next t) :
    t.ibuf = s.ibuf ∧ t.ilen = s.ilen ∧ t.epoch = s.epoch := by
  rcases exec_next_cases h with ⟨-, rfl⟩ | ⟨-, -, rfl⟩ | ⟨-, -, rfl⟩ | ⟨-, -, -, rfl⟩ | ⟨-, -, -, rfl⟩
  · exact issue_keeps_input i s
  · exact ⟨rfl, rfl, rfl⟩
  · exact ⟨rfl, rfl, rfl⟩
  · exact ⟨encodeComplete_ibuf _ s, encodeComplete_ilen _ s, encodeComplete_epoch _ s⟩
  · obtain ⟨-, -, -, -, hilen, -, -, hibuf, hepoch, -⟩ :=
      decodeComplete_unwritten (applyPrimitive s.cfg.prim) s
    exact ⟨hibuf, hilen, hepoch⟩

/-- An issue attempt with a word is the refusal of an illegal word or the step of a command. -/
theorem issueWord_next {w : Word} {s t : State} (h : issueWord w s = .next t) :
    t = s.raiseCmdError eOpcode ∨ ∃ i, exec i s = .next t := by
  unfold issueWord at h
  split at h
  · exact .inl (Host.Outcome.next.inj h).symm
  · exact .inr ⟨_, h⟩

/-- Settles O34: the cases of a command's step, then of a word; equal `IBUF` and reset count give equal bytes. -/
theorem commandsKeepInput : Obligations.CommandsKeepInput := by
  have keeps : ∀ (i : Instr) (s t : State), exec i s = .next t →
      t.ibuf = s.ibuf ∧ t.ilen = s.ilen ∧ ∀ a, t.ibufByte a = s.ibufByte a := by
    intro i s t h
    obtain ⟨hibuf, hilen, hepoch⟩ := exec_keeps_input h
    exact ⟨hibuf, hilen, ibufByte_congr hibuf hepoch⟩
  refine ⟨keeps, fun w s t h => ?_⟩
  rcases issueWord_next h with rfl | ⟨i, hi⟩
  · exact ⟨rfl, rfl, fun _ => rfl⟩
  · exact keeps i s t hi

/-! ### The regions of the window (rule R35 rows 2 to 7) -/

theorem regionAt_misaligned {c : Config} {o : Nat} {n : Width} (h : o % n.bytes ≠ 0) :
    regionAt c o n = .error := if_pos h

theorem regionAt_register {c : Config} {o : Nat} {n : Width} (ha : o % n.bytes = 0) (h : o < 0x10000) :
    regionAt c o n = .register o := by
  rw [regionAt, if_neg (not_not.mpr ha), if_pos h]

/-- Below the buffers an access reaches the register block or is misaligned. -/
theorem regionAt_low (c : Config) {o : Nat} (n : Width) (h : o < 0x10000) :
    regionAt c o n = .error ∨ regionAt c o n = .register o := by
  by_cases ha : o % n.bytes = 0
  · exact .inr (regionAt_register ha h)
  · exact .inl (regionAt_misaligned ha)

/-- No byte stands between the end of `IBUF` and the `OBUF` window. -/
theorem regionAt_input_gap {c : Config} {o : Nat} {n : Width} (h : 0x10000 + c.bufsz ≤ o) (h' : o < 0x20000) :
    regionAt c o n = .error := by
  unfold regionAt
  split_ifs with h1 h2 h3 h4
  · rfl
  · omega
  · omega
  · omega
  · rfl

/-- From the `OBUF` window on an access reaches `OBUF` or nothing. -/
theorem regionAt_high {c : Config} (hc : c.wf = true) {o : Nat} (n : Width) (h : 0x20000 ≤ o) :
    regionAt c o n = .error ∨ (o < 0x20000 + c.bufsz ∧ ∃ b, regionAt c o n = .output b) := by
  obtain ⟨-, -, hmax, -⟩ := config_wf_iff.mp hc
  unfold regionAt
  split_ifs with h1 h2 h3 h4
  · exact .inl rfl
  · omega
  · omega
  · exact .inr ⟨h4.2, _, rfl⟩
  · exact .inl rfl

/-- Inside the window an access is row 2's bus error or lies where its offset says. -/
theorem classify_error_or_regionAt {s : State} {o : Nat} {n : Width} (h : o + n.bytes ≤ 0x40000) (r : Bool) :
    classify s r (s.cfg.base + o) n = .error ∨
      classify s r (s.cfg.base + o) n = regionAt s.cfg o n := by
  rw [classify_inside h]
  split_ifs
  · exact .inl rfl
  · exact .inr rfl

/-- Rule R35 row 2: while busy, every access but the `STATUS` read. -/
theorem classify_of_busy {s : State} {o : Nat} {n : Width} {r : Bool} (h : o + n.bytes ≤ 0x40000)
    (hb : s.ph.busy = true) (hr : isStatusRead r o n = false) : classify s r (s.cfg.base + o) n = .error := by
  rw [classify_inside h, hb, hr]
  rfl

/-- The `STATUS` read reaches its register, busy or not. -/
theorem classify_statusRead (s : State) : classify s true (s.cfg.base + 0x04) .four = .register 0x04 := by
  rw [classify_inside (by decide), if_neg (by simp [isStatusRead])]
  exact regionAt_register rfl (by decide)

/-! ### The bus's answer in each region -/

/-- A read inside the window is answered by its region. -/
theorem busRead_of_region {s : State} {a : Nat} {n : Width} {g : Region} (h : classify s true a n = g)
    (hg : g ≠ .outside) : busRead a n s = .next (s.answer (readReply s n g)) := by
  rw [busRead, h, if_neg hg]

theorem busRead_of_error {s : State} {a : Nat} {n : Width} (h : classify s true a n = .error) :
    busRead a n s = .next s.raiseBusError := busRead_of_region h nofun

theorem busWrite_of_error {s : State} {a : Nat} {n : Width} {v : DWord} (h : classify s false a n = .error) :
    busWrite a n v s = .next s.raiseBusError := by
  simp only [busWrite, h]

theorem busWrite_of_input {s : State} {a b : Nat} {n : Width} {v : DWord}
    (h : classify s false a n = .input b) :
    busWrite a n v s = .next { s.answer .ack with ibuf := s.ibuf.store b (leBytes n.bytes v) } := by
  simp only [busWrite, h]

theorem busWrite_of_output {s : State} {a b : Nat} {n : Width} {v : DWord}
    (h : classify s false a n = .output b) : busWrite a n v s = .next s.raiseBusError := by
  simp only [busWrite, h]

/-- A read of the register block that is not 4 bytes wide, or where no register stands, is a bus error. -/
theorem readReply_register_unserved {s : State} {n : Width} {o : Nat} (h : n ≠ .four ∨ 0x28 ≤ o) :
    readReply s n (.register o) = .busError := by
  by_cases h4 : n = .four
  · have ho : 0x28 ≤ o := h.resolve_left (not_not.mpr h4)
    rw [readReply, if_pos h4, readReg, Reg.ofOffset_high ho]
  · rw [readReply, if_neg h4]

/-- So is such a write. -/
theorem busWrite_register_unserved {s : State} {a o : Nat} {n : Width} {v : DWord}
    (hc : classify s false a n = .register o) (h : n ≠ .four ∨ 0x28 ≤ o) :
    busWrite a n v s = .next s.raiseBusError := by
  by_cases h4 : n = .four
  · have ho : 0x28 ≤ o := h.resolve_left (not_not.mpr h4)
    rw [busWrite_register hc h4, writeReg, Reg.ofOffset_high ho]
  · simp only [busWrite, hc, if_neg h4]

/-- The `STATUS` read shows the view, busy or not (rules R37, R42). -/
theorem busRead_status (s : State) :
    busRead (s.cfg.base + 0x04) .four s = .next (s.answer (.value (s.status.setWidth 64))) :=
  busRead_of_region (classify_statusRead s) nofun

/-! ### Bus errors -/

/-- Settles O37: rule R35 row 2 for a write and for every other read; the `STATUS` read by `busRead_status`. -/
theorem busyLockout : Obligations.BusyLockout := by
  intro s o n v hb hin
  refine ⟨busWrite_of_error (classify_of_busy hin hb rfl), fun hne => ?_, busRead_status s⟩
  have hr : isStatusRead true o n = false := by
    simpa [isStatusRead] using hne
  exact busRead_of_error (classify_of_busy hin hb hr)

/-- No region serves the access: an error, or the register block with a width other than 4 or an offset past its last
register (rules R37, R38). -/
def Region.Unserved (n : Width) (g : Region) : Prop :=
  g = .error ∨ ∃ o, g = .register o ∧ (n ≠ .four ∨ 0x28 ≤ o)

/-- What lies in an unserved region is unserved inside the window, busy or not. -/
theorem classify_unserved {s : State} {o : Nat} {n : Width} (hin : o + n.bytes ≤ 0x40000)
    (h : (regionAt s.cfg o n).Unserved n) (r : Bool) : (classify s r (s.cfg.base + o) n).Unserved n := by
  rcases classify_error_or_regionAt hin r with e | e
  · exact .inl e
  · exact e ▸ h

theorem busRead_unserved {s : State} {a : Nat} {n : Width} (h : (classify s true a n).Unserved n) :
    busRead a n s = .next s.raiseBusError := by
  rcases h with e | ⟨o, e, hu⟩
  · exact busRead_of_error e
  · rw [busRead_of_region e nofun, readReply_register_unserved hu]
    rfl

theorem busWrite_unserved {s : State} {a : Nat} {n : Width} {v : DWord} (h : (classify s false a n).Unserved n) :
    busWrite a n v s = .next s.raiseBusError := by
  rcases h with e | ⟨o, e, hu⟩
  · exact busWrite_of_error e
  · exact busWrite_register_unserved e hu

/-- The register block serves no other width than 4 and nothing past its last register. -/
theorem regionAt_low_unserved (c : Config) {o : Nat} {n : Width} (ho : o < 0x10000) (h : n ≠ .four ∨ 0x28 ≤ o) :
    (regionAt c o n).Unserved n := by
  rcases regionAt_low c n ho with e | e
  · exact .inl e
  · exact .inr ⟨o, e, h⟩

/-- Settles O36: each condition of rule R38 puts the offset in an unserved region. -/
theorem busErrorConditions : Obligations.BusErrorConditions := by
  intro s o n v hwf hin
  refine ⟨fun h => ?_, fun h => ?_⟩
  · have hu : (regionAt s.cfg o n).Unserved n := by
      rcases h with hmis | ⟨hlo, hhi⟩ | ⟨hlo, hhi⟩ | habove | ⟨hhi, hwidth⟩
      · exact .inl (regionAt_misaligned hmis)
      · exact regionAt_low_unserved _ hhi (.inr hlo)
      · exact .inl (regionAt_input_gap hlo hhi)
      · rcases regionAt_high hwf n (show 0x20000 ≤ o by omega) with e | ⟨hlt, -⟩
        · exact .inl e
        · omega
      · exact regionAt_low_unserved _ hhi (.inl hwidth)
    exact ⟨busRead_unserved (classify_unserved hin hu true), busWrite_unserved (classify_unserved hin hu false)⟩
  · rcases classify_error_or_regionAt hin false with e | e
    · exact busWrite_of_error e
    · rcases regionAt_high hwf n h with he | ⟨-, b, hb⟩
      · exact busWrite_of_error (e.trans he)
      · exact busWrite_of_output (e.trans hb)

/-! ### The buffer windows (rules R39 to R41) -/

/-- While not busy an aligned access inside `IBUF` reaches it. -/
theorem classify_input {s : State} {b : Nat} {n : Width} (hwf : s.cfg.wf = true) (hb : s.ph.busy = false)
    (hin : b + n.bytes ≤ s.cfg.bufsz) (ha : b % n.bytes = 0) (r : Bool) :
    classify s r (s.cfg.base + 0x10000 + b) n = .input b := by
  obtain ⟨-, -, hmax, -⟩ := config_wf_iff.mp hwf
  rw [Nat.add_assoc, classify_of_not_busy (by omega) hb, regionAt_input hin ha]

/-- While not busy an aligned access inside `OBUF` reaches it. -/
theorem classify_output {s : State} {b : Nat} {n : Width} (hwf : s.cfg.wf = true) (hb : s.ph.busy = false)
    (hin : b + n.bytes ≤ s.cfg.bufsz) (ha : b % n.bytes = 0) (r : Bool) :
    classify s r (s.cfg.base + 0x20000 + b) n = .output b := by
  obtain ⟨-, -, hmax, -⟩ := config_wf_iff.mp hwf
  rw [Nat.add_assoc, classify_of_not_busy (by omega) hb, regionAt_output hwf hin ha]

/-- `IBUF` after bytes were stored: a stored byte. -/
theorem ibufByte_store_inside (s : State) (b n : Nat) (v : DWord) {k : Nat} (hk : k < n) :
    State.ibufByte { s.answer .ack with ibuf := s.ibuf.store b (leBytes n v) } (b + k) =
      v.extractLsb' (8 * k) 8 := by
  simp only [State.ibufByte]
  rw [get?_store_inside (by omega) (by rw [leBytes_length]; omega), Nat.add_sub_cancel_left,
    leBytes_getElem? _ _ _ hk, Option.getD_some]

/-- `IBUF` after bytes were stored: a byte left alone, also one the host never wrote. -/
theorem ibufByte_store_outside (s : State) (b n : Nat) (v : DWord) {a : Nat} (ha : a < b ∨ b + n ≤ a) :
    State.ibufByte { s.answer .ack with ibuf := s.ibuf.store b (leBytes n v) } a = s.ibufByte a := by
  simp only [State.ibufByte]
  rw [get?_store_outside (by rwa [leBytes_length])]
  rfl

/-- Settles O38: the access reaches `IBUF`; the write stores the bytes of `v`, the read assembles the buffer's. -/
theorem inputBufferAccesses : Obligations.InputBufferAccesses := by
  intro s b n v hwf hb hin ha
  have hreach := classify_input hwf hb hin ha
  refine ⟨⟨_, busWrite_of_input (hreach false), rfl, fun k hk => ibufByte_store_inside s b _ v hk,
    fun a ha => ibufByte_store_outside s b _ v ha⟩, ?_⟩
  exact ⟨_, busRead_of_region (hreach true) nofun, fun k hk => readBytes_byte _ b _ k hk n.bytes_le,
    readBytes_lt _ b _ n.bytes_le⟩

/-- Settles O39: the access reaches `OBUF`, where a write is a bus error and a read assembles the gated bytes. -/
theorem outputBufferGate : Obligations.OutputBufferGate := by
  intro s b n v hwf hb hin ha
  have hreach := classify_output hwf hb hin ha
  exact ⟨busWrite_of_output (hreach false), _, busRead_of_region (hreach true) nofun,
    readBytes_lt _ b _ n.bytes_le, fun k hk => readBytes_byte s.gatedByte b _ k hk n.bytes_le⟩

/-! ### The registers (rules R19, R22, R37) -/

/-- Where a register stands, it is the one of that offset. -/
theorem Reg.offset_of_ofOffset {o : Nat} {r : Reg} (h : Reg.ofOffset o = some r) : o = r.offset := by
  unfold Reg.ofOffset at h
  split_ifs at h <;> cases h <;> assumption

/-- Where no register stands, the offset is none of the map's. -/
theorem Reg.not_mem_of_ofOffset {o : Nat} (h : Reg.ofOffset o = none) :
    o ∉ [0x00, 0x04, 0x08, 0x0C, 0x10, 0x14, 0x18, 0x1C, 0x20, 0x24] := by
  intro hm
  fin_cases hm <;> cases h

/-- `x ‖ y` as a number (00_scope.md rule R7). -/
theorem concatWords_eq_ofNat (x y : Word) :
    concatWords x y = BitVec.ofNat 64 (x.toNat * 2 ^ 32 + y.toNat) := by
  have e : concatWords x y = x ++ y := by
    ext i hi
    simp [concatWords]
    grind
  apply BitVec.eq_of_toNat_eq
  rw [e, BitVec.toNat_append, ← Nat.shiftLeft_add_eq_or_of_lt y.isLt, Nat.shiftLeft_eq, BitVec.toNat_ofNat,
    Nat.mod_eq_of_lt (by omega)]

theorem setSeedLow_eq_ofNat (seed : DWord) (v : Word) :
    setSeedLow seed v = BitVec.ofNat 64 (seed.toNat / 2 ^ 32 * 2 ^ 32 + v.toNat) := by
  rw [setSeedLow, concatWords_eq_ofNat, highWord, BitVec.extractLsb'_toNat, Nat.shiftRight_eq_div_pow,
    Nat.mod_eq_of_lt (by omega)]

theorem setSeedHigh_eq_ofNat (seed : DWord) (v : Word) :
    setSeedHigh seed v = BitVec.ofNat 64 (v.toNat * 2 ^ 32 + seed.toNat % 2 ^ 32) := by
  rw [setSeedHigh, concatWords_eq_ofNat, lowWord, BitVec.extractLsb'_toNat, Nat.shiftRight_zero]

/-- The column "Read" of rule R37's table as a chain over the offsets. -/
theorem readReg_eq_chain (s : State) (o : Nat) :
    readReg s o =
      if o = 0x04 then .value (s.status.setWidth 64)
      else if o = 0x08 then .value (s.ilen.setWidth 64)
      else if o = 0x0C then .value (s.olen.setWidth 64)
      else .busError := by
  rcases h : Reg.ofOffset o with _ | r
  · have hne := Reg.not_mem_of_ofOffset h
    simp only [List.mem_cons, not_or] at hne
    simp only [readReg, h, hne, if_false]
  · obtain rfl := Reg.offset_of_ofOffset h
    cases r with
    | key j => fin_cases j <;> rfl
    | _ => rfl

/-- The column "Write" of rule R37's table as a chain over the offsets. -/
theorem writeReg_eq_chain (s : State) (o : Nat) (v : Word) :
    writeReg s o v =
      if o = 0x00 then issueWord v (s.answer .ack)
      else if o = 0x08 then .next { s.answer .ack with ilen := v }
      else if s.ph = .unkeyed ∧ o = 0x10 then .next { s.answer .ack with key := { s.key with k0 := v } }
      else if s.ph = .unkeyed ∧ o = 0x14 then .next { s.answer .ack with key := { s.key with k1 := v } }
      else if s.ph = .unkeyed ∧ o = 0x18 then .next { s.answer .ack with key := { s.key with k2 := v } }
      else if s.ph = .unkeyed ∧ o = 0x1C then .next { s.answer .ack with key := { s.key with k3 := v } }
      else if s.ph = .unkeyed ∧ o = 0x20 then .next { s.answer .ack with seed := setSeedLow s.seed v }
      else if s.ph = .unkeyed ∧ o = 0x24 then .next { s.answer .ack with seed := setSeedHigh s.seed v }
      else .next s.raiseBusError := by
  rcases h : Reg.ofOffset o with _ | r
  · have hne := Reg.not_mem_of_ofOffset h
    simp only [List.mem_cons, not_or] at hne
    simp only [writeReg, h, hne, and_false, if_false]
  · obtain rfl := Reg.offset_of_ofOffset h
    unfold writeReg
    by_cases hp : s.ph = .unkeyed <;> simp only [hp, true_and, false_and, if_true, if_false]
    · cases r with
      | key j => fin_cases j <;> rfl
      | _ => rfl
    · cases r with
      | key j => fin_cases j <;> rfl
      | _ => rfl

/-- While not busy an aligned 4-byte access below the buffers reaches the register block. -/
theorem classify_register {s : State} {o : Nat} (hb : s.ph.busy = false) (ho : o < 0x10000) (ha : o % 4 = 0)
    (r : Bool) : classify s r (s.cfg.base + o) .four = .register o := by
  rw [classify_of_not_busy (by simp only [Width.bytes]; omega) hb]
  exact regionAt_register ha ho

/-- Settles O35: the chains of rule R37's two columns; another width is unserved; the busy read by `busRead_status`. -/
theorem registerAccesses : Obligations.RegisterAccesses := by
  intro s o w ho reply
  refine ⟨fun hb ha => ⟨?_, ?_⟩, fun n v hn => ?_, fun hb => ⟨busRead_status s, ?_⟩⟩
  · rw [busRead_of_region (classify_register hb ho ha true) nofun, readReply, if_pos rfl, readReg_eq_chain]
    split_ifs <;> rfl
  · rw [busWrite_register (classify_register hb ho ha false) rfl, BitVec.setWidth_setWidth_of_le w (by decide),
      BitVec.setWidth_eq, writeReg_eq_chain, setSeedLow_eq_ofNat, setSeedHigh_eq_ofNat]
    rfl
  · have hin : o + n.bytes ≤ 0x40000 := by
      have := n.bytes_le
      omega
    have hu := classify_unserved hin (regionAt_low_unserved s.cfg ho (.inl hn))
    exact ⟨busRead_unserved (hu true), busWrite_unserved (hu false)⟩
  · simp [status_getLsbD, hb]

end Sys2Proof.Machine

namespace Sys2Proof.Machine

/-! ### Command words (30_encoding.md rules R50 and R66) -/

theorem zeroField_toNat (w : Word) : (zeroField w).toNat = w.toNat / 256 := by
  have hw := w.isLt
  simp only [zeroField, BitVec.extractLsb'_toNat, Nat.shiftRight_eq_div_pow]
  omega

theorem opField_toNat (w : Word) : (opField w).toNat = w.toNat % 256 := by
  simp [opField]

/-- A word with a command's two fields is the command's word (format C, rule R50). -/
theorem eq_encode_of_fields {w : Word} {i : Instr} (hz : zeroField w = 0) (hop : opField w = opcode i) :
    w = encode i := by
  have hhigh : w.toNat / 256 = 0 := by rw [← zeroField_toNat, hz]; rfl
  have hlow : w.toNat % 256 = (opcode i).toNat := by rw [← opField_toNat, hop]
  apply BitVec.eq_of_toNat_eq
  rw [encode, BitVec.toNat_setWidth_of_le (by decide)]
  omega

@[simp] theorem decode_encode (i : Instr) : decode (encode i) = .ok i := by cases i <;> rfl

theorem eq_encode_of_decode {w : Word} {i : Instr} (h : decode w = .ok i) : w = encode i := by
  unfold decode at h
  split_ifs at h with hz h1 h2 h3 <;> cases h
  · exact eq_encode_of_fields (not_not.mp hz) h1
  · exact eq_encode_of_fields (not_not.mp hz) h2
  · exact eq_encode_of_fields (not_not.mp hz) h3

/-- The decoder reads exactly the encoder's words (rule R66). -/
theorem decode_eq_ok_iff {w : Word} {i : Instr} : decode w = .ok i ↔ w = encode i :=
  ⟨eq_encode_of_decode, fun h => h ▸ decode_encode i⟩

/-- Settles O1: the word of each command, by `decode_eq_ok_iff`. -/
theorem decoderReadsExactlyThreeWords : Obligations.DecoderReadsExactlyThreeWords := by
  intro w i
  rw [decode_eq_ok_iff]
  cases i <;> simp [encode, opcode]

/-! ### The frame header (30_encoding.md rules R54 and R55) -/

/-- The shift loses no bit of a counter below `2^61` and leaves bits 2:0 to the remainder (rule R54). -/
theorem packHeader_toNat {c : DWord} (hc : c.toNat < 2 ^ 61) (rem : BitVec 3) :
    (packHeader c rem).toNat = c.toNat * 8 + rem.toNat := by
  have hrem : rem.toNat < 2 ^ 3 := rem.isLt
  have hshift : (c <<< 3).toNat = c.toNat <<< 3 := by
    rw [BitVec.toNat_shiftLeft, Nat.shiftLeft_eq, Nat.mod_eq_of_lt (by omega)]
  have hfield : (rem.setWidth 64).toNat = rem.toNat := BitVec.toNat_setWidth_of_le (by decide)
  rw [packHeader, BitVec.toNat_or, hshift, hfield, ← Nat.shiftLeft_add_eq_or_of_lt hrem, Nat.shiftLeft_eq]

theorem headerCounter_toNat (hdr : DWord) : (headerCounter hdr).toNat = hdr.toNat / 8 := by
  simp [headerCounter, Nat.shiftRight_eq_div_pow]

theorem headerRem_toNat (hdr : DWord) : (headerRem hdr).toNat = hdr.toNat % 8 := by
  simp [headerRem]

theorem headerCounter_lt (hdr : DWord) : (headerCounter hdr).toNat < 2 ^ 61 := by
  have hhdr := hdr.isLt
  rw [headerCounter_toNat]
  omega

theorem headerCounter_packHeader {c : DWord} (hc : c.toNat < 2 ^ 61) (rem : BitVec 3) :
    headerCounter (packHeader c rem) = c := by
  have hrem := rem.isLt
  apply BitVec.eq_of_toNat_eq
  rw [headerCounter_toNat, packHeader_toNat hc]
  omega

theorem headerRem_packHeader {c : DWord} (hc : c.toNat < 2 ^ 61) (rem : BitVec 3) :
    headerRem (packHeader c rem) = rem := by
  have hrem := rem.isLt
  apply BitVec.eq_of_toNat_eq
  rw [headerRem_toNat, packHeader_toNat hc]
  omega

theorem packHeader_headerCounter_headerRem (hdr : DWord) : packHeader (headerCounter hdr) (headerRem hdr) = hdr := by
  apply BitVec.eq_of_toNat_eq
  rw [packHeader_toNat (headerCounter_lt hdr), headerCounter_toNat, headerRem_toNat]
  omega

/-- Settles O4: the value of each field as a quotient or remainder by 8, and the two inverses that follow. -/
theorem headerPackUnpack : Obligations.HeaderPackUnpack :=
  ⟨fun _ rem hc => ⟨packHeader_toNat hc rem, headerCounter_packHeader hc rem, headerRem_packHeader hc rem⟩,
    fun hdr => ⟨headerCounter_toNat hdr, headerRem_toNat hdr, headerCounter_lt hdr,
      packHeader_headerCounter_headerRem hdr⟩⟩

/-! ### Frame and plaintext lengths (30_encoding.md rules R58 and R59) -/

theorem eight_mul_ceil8 (m : Nat) : 8 * ceil8 m = if m % 8 = 0 then m else m - m % 8 + 8 := by
  unfold ceil8
  split_ifs <;> omega

/-- Settles O5: `frameLength` is 16 more than the padded length, which is the next multiple of 8. -/
theorem frameLengthForms : Obligations.FrameLengthForms := by
  intro m
  rw [frameLength, eight_mul_ceil8]
  split_ifs <;> omega

/-- A frame of whole blocks holds no byte outside header, blocks and tag. -/
theorem eight_mul_blockCount {L : Nat} (h : L % 8 = 0) : 8 * blockCount L = L - 16 := by
  unfold blockCount
  omega

/-- The frame of `m` bytes holds the blocks they fill. -/
@[simp] theorem blockCount_frameLength (m : Nat) : blockCount (frameLength m) = ceil8 m := by
  unfold blockCount frameLength
  omega

/-- The two forms of `PL` in the frame's length (rule R59). -/
theorem plainLength_eq {L : Nat} (h : L % 8 = 0) (rem : BitVec 3) :
    plainLength L rem = if rem = 0 then L - 16 else L - 24 + rem.toNat := by
  have hblocks := eight_mul_blockCount h
  unfold plainLength
  split_ifs <;> omega

/-- `PL` undoes `FL` (rule R59): a zero remainder means a full last block, any other the bytes of a last block cut short. -/
theorem plainLength_frameLength {m : Nat} (hm : 1 ≤ m) :
    plainLength (frameLength m) (BitVec.ofNat 3 m) = m := by
  have hrem : BitVec.ofNat 3 m = 0 ↔ m % 8 = 0 := by
    rw [← BitVec.toNat_inj, BitVec.toNat_ofNat]
    rfl
  have hblocks := eight_mul_ceil8 m
  rw [plainLength, blockCount_frameLength, BitVec.toNat_ofNat]
  simp only [hrem]
  split_ifs at hblocks ⊢ <;> omega

/-- Settles O6: the forms by `plainLength_eq`, the range by `plainLength_bounds`, the inverse by `plainLength_frameLength`. -/
theorem plainLengthInvertsFrameLength : Obligations.PlainLengthInvertsFrameLength := by
  refine ⟨fun L rem hL hmod => ?_, fun _ hm => plainLength_frameLength hm⟩
  obtain ⟨hpos, hle⟩ := plainLength_bounds hL rem
  exact ⟨plainLength_eq hmod rem, hpos, hle.trans (blockCount_le L)⟩

end Sys2Proof.Machine

namespace Sys2Proof.Machine

/-! ### Issue of a command word and INIT (40_command_issue_and_init.md rules R71, R72, R77) -/

/-- Rows 2 and 3 of `IssueCheck` in their order, each with what it does (rules R71, R72). -/
theorem issue_eq_chain (i : Instr) (s : State) :
    issue i s =
      if s.ph ≠ issuePhase i then s.raiseCmdError eState
      else if lengthRefused s i then s.raiseCmdError eLen
      else { s.clearFlags with ph := busyPhase i } := by
  unfold issue issueCheckInstr
  split_ifs <;> rfl

theorem issueWord_encode {s : State} (hb : s.ph.busy = false) (i : Instr) :
    issueWord (encode i) s = .next (issue i s) := by
  rw [issueWord, decode_encode]
  exact exec_of_not_busy hb i

/-- Row 1 of rule R72, in every state. -/
theorem issueWord_of_no_command {w : Word} (hw : ∀ i, w ≠ encode i) (s : State) :
    issueWord w s = .next (s.raiseCmdError eOpcode) := by
  unfold issueWord
  split
  · rfl
  · next i hd => exact absurd (eq_encode_of_decode hd) (hw i)

theorem no_command_iff {w : Word} :
    (∀ i, w ≠ encode i) ↔ w ≠ 0x00000001 ∧ w ≠ 0x00000002 ∧ w ≠ 0x00000003 := by
  constructor
  · exact fun h => ⟨h .init, h .encode, h .decode⟩
  · rintro ⟨h1, h2, h3⟩ (_ | _ | _)
    · exact h1
    · exact h2
    · exact h3

/-! The rows of rule R72 name the command by its word. -/

theorem ne_issuePhase_iff (i : Instr) (p : Phase) :
    p ≠ issuePhase i ↔ (encode i = 0x00000001 ∧ p ≠ .unkeyed) ∨ (encode i ≠ 0x00000001 ∧ p ≠ .idle) := by
  cases i <;> simp [encode, opcode, issuePhase]

theorem lengthRefused_iff (s : State) (i : Instr) :
    lengthRefused s i = true ↔
      (encode i = 0x00000002 ∧ s.cfg.bufsz < frameLength s.ilen.toNat) ∨
        (encode i = 0x00000003 ∧ s.cfg.bufsz < s.ilen.toNat) := by
  cases i <;> simp [encode, opcode, lengthRefused]

theorem busyPhase_eq_chain (i : Instr) :
    busyPhase i =
      if encode i = 0x00000001 then .busyInit else if encode i = 0x00000002 then .busyEnc else .busyDec := by
  cases i <;> rfl

/-- Settles O15: row 1 of rule R72 by `issueWord_of_no_command`, rows 2 and 3 by `issue_eq_chain`, condition by condition. -/
theorem issueAttemptOutcome : Obligations.IssueAttemptOutcome := by
  intro s w hb
  rw [busWrite_cmd hb, BitVec.setWidth_setWidth_of_le w (by decide), BitVec.setWidth_eq]
  by_cases hw : ∀ i, w ≠ encode i
  · rw [issueWord_of_no_command hw, if_pos (no_command_iff.mp hw)]
    rfl
  · obtain ⟨i, rfl⟩ : ∃ i, w = encode i := by simpa using hw
    have hans : (s.answer .ack).ph.busy = false := hb
    rw [issueWord_encode hans, issue_eq_chain, if_neg (mt no_command_iff.mpr hw), ← busyPhase_eq_chain]
    exact congrArg _ (if_congr (ne_issuePhase_iff i s.ph) rfl (if_congr (lengthRefused_iff s i) rfl rfl))

/-- Settles O19: the completion by `exec_init_of_pending`; in IDLE the issue attempt stands in the wrong phase. -/
theorem initCompletes : Obligations.InitCompletes := by
  refine fun s => ⟨exec_init_of_pending, fun hp => ?_⟩
  have hb : s.ph.busy = false := not_busy_iff.mpr (.inr hp)
  have hne : s.ph ≠ issuePhase .init := by simp [hp, issuePhase]
  rw [exec_of_not_busy hb, issue_eq_chain, if_pos hne]
  rfl

end Sys2Proof.Machine

namespace Sys2Proof.Machine

/-! ### The reference primitive and its inverse (41_primitive_h.md rules R83 and R84) -/

/-! One round and one advance of the subkeys, each taken back. -/

@[simp] theorem unroundY_round (k : Key) (x y : Word) : unroundY k (roundX k x y) (roundY k x y) = y :=
  add_sub_cancel_right y _

@[simp] theorem unroundX_round (k : Key) (x y : Word) : unroundX k (roundX k x y) (roundY k x y) = x := by
  rw [unroundX, unroundY_round]
  exact add_sub_cancel_right x _

@[simp] theorem roundX_unround (k : Key) (x y : Word) : roundX k (unroundX k x y) (unroundY k x y) = x :=
  sub_add_cancel x _

@[simp] theorem roundY_unround (k : Key) (x y : Word) : roundY k (unroundX k x y) (unroundY k x y) = y := by
  rw [roundY, roundX_unround]
  exact sub_add_cancel y _

@[simp] theorem retreatSubkeys_advanceSubkeys (k : Key) : retreatSubkeys (advanceSubkeys k) = k := by
  simp [retreatSubkeys, advanceSubkeys]

@[simp] theorem subkeysAfter_zero (k : Key) : subkeysAfter 0 k = k := by
  simp [subkeysAfter]

theorem ofNat_succ_mul (n : Nat) (d : Word) : BitVec.ofNat 32 (n + 1) * d = BitVec.ofNat 32 n * d + d := by
  rw [BitVec.ofNat_add, add_mul]
  exact congrArg _ (one_mul d)

theorem subkeysAfter_succ (n : Nat) (k : Key) : subkeysAfter (n + 1) k = advanceSubkeys (subkeysAfter n k) := by
  simp only [subkeysAfter, advanceSubkeys, ofNat_succ_mul, add_assoc]

/-- An advance before `n` advances is one more advance, as the order of the summands is free. -/
theorem subkeysAfter_advanceSubkeys (n : Nat) (k : Key) :
    subkeysAfter n (advanceSubkeys k) = subkeysAfter (n + 1) k := by
  simp only [subkeysAfter, advanceSubkeys, ofNat_succ_mul, add_assoc, add_comm]

/-- `refUnrounds` takes back the last round first; seen from the other end, its last step takes back the first round,
with the subkeys `k` the rounds began with. -/
theorem refUnrounds_succ_first (n : Nat) (k : Key) (x y : Word) :
    refUnrounds (n + 1) (subkeysAfter (n + 1) k) x y =
      let p := refUnrounds n (subkeysAfter (n + 1) k) x y
      (unroundX k p.1 p.2, unroundY k p.1 p.2) := by
  induction n generalizing x y with
  | zero => simp [refUnrounds, subkeysAfter_succ]
  | succ n ih =>
    rw [refUnrounds, subkeysAfter_succ (n + 1), retreatSubkeys_advanceSubkeys, ih, refUnrounds,
      retreatSubkeys_advanceSubkeys]

/-- The rounds taken back are the rounds' left inverse, for any number of rounds. -/
theorem refUnrounds_refRounds (n : Nat) (k : Key) (x y : Word) :
    refUnrounds n (subkeysAfter n k) (refRounds n k x y).1 (refRounds n k x y).2 = (x, y) := by
  induction n generalizing k x y with
  | zero => rfl
  | succ n ih =>
    rw [refUnrounds_succ_first, refRounds, ← subkeysAfter_advanceSubkeys, ih]
    simp

/-- The rounds taken back are the rounds' right inverse, for any number of rounds. -/
theorem refRounds_refUnrounds (n : Nat) (k : Key) (x y : Word) :
    refRounds n k (refUnrounds n (subkeysAfter n k) x y).1 (refUnrounds n (subkeysAfter n k) x y).2 = (x, y) := by
  induction n generalizing k x y with
  | zero => rfl
  | succ n ih =>
    rw [refUnrounds_succ_first, refRounds, roundX_unround, roundY_unround, ← subkeysAfter_advanceSubkeys, ih]

/-- Settles O7: the two inverses of `n` rounds, at the 32 rounds of `H_ref`. -/
theorem referencePrimitiveInverse : Obligations.ReferencePrimitiveInverse :=
  fun x y k => ⟨refUnrounds_refRounds 32 k x y, refRounds_refUnrounds 32 k x y⟩

end Sys2Proof.Machine

namespace Sys2Proof.Machine

/-! ### Counter arithmetic in ENCODE (42_encode.md rule R96) -/

theorem maskCounter_eq_ofNat (c : DWord) : maskCounter c = BitVec.ofNat 64 (c.toNat % 2 ^ 61) := by
  rw [← maskCounter_toNat, BitVec.ofNat_toNat, BitVec.setWidth_eq]

/-- The working counter before block `i`: the masked counter, advanced `i` times (rules R91, R93). -/
theorem encLoop_encStart_wc (h : BlockFn) (i : Nat) (s : State) :
    (repeatBlocks (encBlock h) i (encStart s)).wc = BitVec.ofNat 64 (s.ctr.toNat % 2 ^ 61 + i) := by
  rw [encLoop_wc, encStart_wc, maskCounter_eq_ofNat, BitVec.ofNat_add]

/-- Up to 8192 advances of a masked counter do not wrap modulo 2^64 (rule R96 item 1). -/
theorem ofNat_maskedCounter_toNat (c : Nat) {n : Nat} (hn : n ≤ 8192) :
    (BitVec.ofNat 64 (c % 2 ^ 61 + n)).toNat = c % 2 ^ 61 + n := by
  rw [BitVec.toNat_ofNat, Nat.mod_eq_of_lt (by omega)]

/-- A pipeline's keystream is the cipher's for its working counter (rule R86). -/
theorem keystream_eq_refKeystream (h : BlockFn) (s : State) : keystream h s = refKeystream h s.key s.wc := rfl

/-- The blocks of a frame that fits take no more than the buffer. -/
theorem encBlocks_le_of_fits {s : State} (hfit : frameLength s.ilen.toNat ≤ s.cfg.bufsz) :
    encBlocks s ≤ s.cfg.bufsz / 8 := by
  have hlen : frameLength s.ilen.toNat = 16 + 8 * encBlocks s := rfl
  omega

/-- The counter a completed ENCODE stores is the working counter after its last block (rule R95). -/
theorem encodeComplete_ctr_eq_ofNat (h : BlockFn) (s : State) :
    (encodeComplete h s).ctr = BitVec.ofNat 64 (s.ctr.toNat % 2 ^ 61 + encBlocks s) :=
  encLoop_encStart_wc h (encBlocks s) s

/-- Settles O22: the working counter by `encLoop_encStart_wc`, which the bound on the blocks keeps from wrapping. -/
theorem encodeCounterArithmetic : Obligations.EncodeCounterArithmetic := by
  intro s hwf hp hfit
  have hblocks := encBlocks_le_of_fits hfit
  obtain ⟨-, -, hmax, -⟩ := config_wf_iff.mp hwf
  have hbuf : s.cfg.bufsz / 8 ≤ 8192 := Nat.div_le_of_le_mul hmax
  have hmask : s.ctr.toNat % 2 ^ 61 < 2 ^ 61 := Nat.mod_lt _ (by decide)
  refine ⟨fun h i hi => ?_, hblocks, hbuf, encodeComplete (applyPrimitive s.cfg.prim) s, ?_⟩
  · have hn : i ≤ 8192 := by omega
    rw [keystream_eq_refKeystream, encLoop_key, encStart_key, encLoop_encStart_wc, ofNat_maskedCounter_toNat _ hn]
    exact ⟨rfl, by omega, rfl⟩
  · have hn : encBlocks s ≤ 8192 := hblocks.trans hbuf
    rw [encStart_wc, maskCounter_toNat, encodeComplete_ctr_eq_ofNat, ofNat_maskedCounter_toNat _ hn]
    exact ⟨by rw [exec_encode_of_pending hp, if_pos hfit], rfl, by omega, rfl⟩

end Sys2Proof.Machine

namespace Sys2Proof.Machine

/-! ### DECODE's working counter (43_decode.md rule R105) -/

/-- The working counter before block `i`: the header's counter, advanced `i` times (rules R102, R104). -/
theorem decLoop_decStart_wc (h : BlockFn) (i : Nat) (s : State) :
    (repeatBlocks (decBlock h) i (decStart (decHeader s))).wc =
      BitVec.ofNat 64 ((s.memReadDWord 0).toNat / 8 + i) := by
  rw [decLoop_wc, decStart_wc, decHeader_wc, BitVec.ofNat_add, ← headerCounter_toNat, BitVec.ofNat_toNat,
    BitVec.setWidth_eq]

/-- Settles O29: the working counter by `decLoop_decStart_wc`; `hdr >> 3` is below `2^61` and the blocks are at most
8192, so it does not wrap. -/
theorem decodeCounterFollowsHeader : Obligations.DecodeCounterFollowsHeader := by
  intro h s i hwf hfit hi
  obtain ⟨-, -, hmax, -⟩ := config_wf_iff.mp hwf
  have hblocks : 8 * decBlocks s ≤ s.ilen.toNat - 16 := blockCount_le s.ilen.toNat
  have hhdr := (s.memReadDWord 0).isLt
  refine ⟨?_, ?_⟩
  · rw [decLoop_decStart_wc, BitVec.toNat_ofNat, Nat.mod_eq_of_lt (by omega)]
  · rw [keystream_eq_refKeystream, decLoop_key, decStart_key, decHeader_key, decLoop_decStart_wc]

/-! ### Rejection (43_decode.md rule R108) -/

/-- The step of a pending DECODE is its completion. -/
theorem exec_decode_next {s t : State} (hp : s.ph = .busyDec) (h : exec .decode s = .next t) :
    t = decodeComplete (applyPrimitive s.cfg.prim) s := by
  rw [exec_decode_of_pending hp] at h
  split_ifs at h
  exact (Host.Outcome.next.inj h).symm

/-- Of the three ends of a DECODE, the two that set `REJ` clear `OLEN`. -/
theorem decodeComplete_olen_of_rej {h : BlockFn} {s : State} (hr : (decodeComplete h s).rej = true) :
    (decodeComplete h s).olen = 0 := by
  rcases decodeComplete_cases h s with ⟨-, -, e⟩ | ⟨-, -, e⟩ | ⟨-, e⟩ <;> rw [e] at hr ⊢
  · cases hr
  · rfl
  · rfl

/-- With `OLEN = 0` the gate of rule R41 is shut at every offset. -/
theorem gatedByte_of_olen_zero {s : State} (ho : s.olen = 0) (a : Nat) : s.gatedByte a = 0 := by
  simp [State.gatedByte, ho]

theorem leValue_replicate_zero (n : Nat) : leValue (List.replicate n 0) = 0 := by
  induction n with
  | zero => rfl
  | succ n ih => rw [List.replicate_succ, leValue, ih]; rfl

/-- A bus read of zero bytes, of any width, answers 0. -/
theorem readBytes_of_zero {byte : Nat → Byte} (hz : ∀ a, byte a = 0) (b n : Nat) : readBytes byte b n = 0 := by
  simp only [readBytes, hz, List.map_const', List.length_range, leValue_replicate_zero]

/-- Settles O30: a set `REJ` means `OLEN = 0`, which shuts the gate; the rest is what no completion of DECODE writes. -/
theorem rejectionReleasesNothing : Obligations.RejectionReleasesNothing := by
  intro s t hp he hrej
  obtain rfl := exec_decode_next hp he
  obtain ⟨-, hkey, hctr, hseed, hilen, herr, hecode, hibuf, hepoch, -⟩ :=
    decodeComplete_unwritten (applyPrimitive s.cfg.prim) s
  have holen := decodeComplete_olen_of_rej hrej
  have hgate := gatedByte_of_olen_zero holen
  exact ⟨decodeComplete_done _ s, decodeComplete_ph _ s, holen, herr, hecode, hkey, hctr, hseed, hilen,
    ibufByte_congr hibuf hepoch, hgate, fun n b => congrArg BusReply.value (readBytes_of_zero hgate b n.bytes)⟩

end Sys2Proof.Machine

namespace Sys2Proof.Machine

/-! ### The 64-bit fields of a frame in `OBUF`, and in an `IBUF` it was copied to (30_encoding.md rule R53) -/

/-- `OBUF` lists the eight bytes of `v` from offset `a` on. -/
def State.ListsDWord (t : State) (a : Nat) (v : DWord) : Prop :=
  ∀ j, j < 8 → t.obuf.get? (a + j) = some (v.extractLsb' (8 * j) 8)

/-- A 64-bit field just stored is listed. -/
theorem listsDWord_of_store {t : State} {m : Memory} {a : Nat} {v : DWord}
    (ht : t.obuf = m.store a (leBytes 8 v)) : t.ListsDWord a v := by
  intro j hj
  rw [ht, get?_store_inside (Nat.le_add_right a j) (by rw [leBytes_length]; omega), Nat.add_sub_cancel_left,
    leBytes_getElem? 8 v j hj]

/-- `OBUF` shows the bytes of a 64-bit field it lists. -/
theorem State.ListsDWord.obufByte {t : State} {a : Nat} {v : DWord} (h : t.ListsDWord a v) {j : Nat} (hj : j < 8) :
    t.obufByte (a + j) = v.extractLsb' (8 * j) 8 := by
  rw [State.obufByte, h j hj, Option.getD_some]

/-- `LE64` of the eight bytes of a value is the value. -/
theorem memReadDWord_of_bytes {d : State} {a : Nat} {v : DWord}
    (h : ∀ j, j < 8 → d.ibufByte (a + j) = v.extractLsb' (8 * j) 8) : d.memReadDWord a = v := by
  have hbytes : d.memRead a 8 = leBytes 8 v := by
    apply List.ext_getElem?
    intro j
    rcases Nat.lt_or_ge j 8 with hj | hj
    · rw [leBytes_getElem? 8 v j hj]
      simp [State.memRead, hj, h j hj]
    · rw [List.getElem?_eq_none (by simpa [State.memRead] using hj), List.getElem?_eq_none (by simpa using hj)]
  rw [State.memReadDWord, hbytes, leValue_leBytes]

/-- The tag of an ENCODE about to complete (42_encode.md rule R94). -/
def encTagValue (h : BlockFn) (s : State) : DWord :=
  join s.cfg.pairOrder
    (refTag h s.cfg.pairOrder s.key (halves (maskCounter s.ctr))
      ((List.range (encBlocks s)).map (encBlockValue h s)))

/-- The tag is stored past header and blocks, which stay. -/
theorem encodeComplete_obuf_before_tag (h : BlockFn) (s : State) {a : Nat} (ha : a < 8 + 8 * encBlocks s) :
    (encodeComplete h s).obuf.get? a =
      (repeatBlocks (encBlock h) (encBlocks s) (encStart s)).obuf.get? a := by
  rw [encodeComplete_obuf, get?_store_outside (.inl ha)]

/-- The frame starts with the header of rule R91: the blocks are stored past it. -/
theorem encodeComplete_lists_header (h : BlockFn) (s : State) :
    (encodeComplete h s).ListsDWord 0 (packHeader (maskCounter s.ctr) (lengthRem s.ilen)) := by
  intro j hj
  have hstart : (encStart s).ListsDWord 0 (packHeader (maskCounter s.ctr) (lengthRem s.ilen)) :=
    listsDWord_of_store (m := s.obuf) rfl
  rw [encodeComplete_obuf_before_tag h s (by omega), encLoop_obuf_outside h _ _ rfl _ (.inl (by omega))]
  exact hstart j hj

theorem encodeComplete_lists_block (h : BlockFn) (s : State) {i : Nat} (hi : i < encBlocks s) :
    (encodeComplete h s).ListsDWord (8 + 8 * i) (encBlockValue h s i) := by
  intro j hj
  rw [encodeComplete_obuf_before_tag h s (by omega)]
  exact (encLoop_spec h s (encBlocks s)).2 i j hi hj

/-- The frame ends with the tag over its blocks (rule R94). -/
theorem encodeComplete_lists_tag (h : BlockFn) (s : State) :
    (encodeComplete h s).ListsDWord (8 + 8 * encBlocks s) (encTagValue h s) := by
  apply listsDWord_of_store
  rw [encodeComplete_obuf, (encLoop_spec h s (encBlocks s)).1]
  rfl

/-! ### DECODE of the frame an ENCODE left (43_decode.md rule R110) -/

/-- `d` has the parameters and the key of `s`, and the frame of the ENCODE pending in `s` as its input. -/
structure CarriesFrame (h : BlockFn) (s d : State) : Prop where
  cfg : d.cfg = s.cfg
  key : d.key = s.key
  ilen : d.ilen.toNat = frameLength s.ilen.toNat
  header : d.memReadDWord 0 = packHeader (maskCounter s.ctr) (lengthRem s.ilen)
  block : ∀ i, i < encBlocks s → d.memReadDWord (8 + 8 * i) = encBlockValue h s i
  tag : d.memReadDWord (8 + 8 * encBlocks s) = encTagValue h s

/-- A frame copied byte by byte from `OBUF` to `IBUF` is carried. -/
theorem carriesFrame_of_copied {h : BlockFn} {s d : State} (hcfg : d.cfg = s.cfg) (hkey : d.key = s.key)
    (hilen : d.ilen.toNat = frameLength s.ilen.toNat)
    (hcopy : ∀ a, a < frameLength s.ilen.toNat → d.ibufByte a = (encodeComplete h s).obufByte a) :
    CarriesFrame h s d := by
  have hlen : frameLength s.ilen.toNat = 16 + 8 * encBlocks s := rfl
  have hread {a : Nat} {v : DWord} (hv : (encodeComplete h s).ListsDWord a v)
      (ha : a + 8 ≤ 16 + 8 * encBlocks s) : d.memReadDWord a = v :=
    memReadDWord_of_bytes fun j hj => (hcopy (a + j) (by omega)).trans (hv.obufByte hj)
  exact ⟨hcfg, hkey, hilen, hread (encodeComplete_lists_header h s) (by omega),
    fun i hi => hread (encodeComplete_lists_block h s hi) (by omega),
    hread (encodeComplete_lists_tag h s) (by omega)⟩

theorem maskCounter_lt (c : DWord) : (maskCounter c).toNat < 2 ^ 61 := by
  rw [maskCounter_toNat]
  exact Nat.mod_lt _ (by decide)

namespace CarriesFrame

variable {h : BlockFn} {s d : State}

theorem decBlocks_eq (c : CarriesFrame h s d) : decBlocks d = encBlocks s := by
  rw [decBlocks, c.ilen, blockCount_frameLength, encBlocks]

/-- DECODE starts from ENCODE's counter and folds the blocks ENCODE folded (rules R103, R104). -/
theorem accumulator (c : CarriesFrame h s d) :
    ((decRun h d).ax, (decRun h d).ay) =
      refTag h s.cfg.pairOrder s.key (halves (maskCounter s.ctr))
        ((List.range (encBlocks s)).map (encBlockValue h s)) := by
  have hblocks : (List.range (encBlocks s)).map (decBlockValue d) =
      (List.range (encBlocks s)).map (encBlockValue h s) :=
    List.map_congr_left fun i hi => c.block i (List.mem_range.mp hi)
  rw [decRun, (decLoop_spec h d (decBlocks d)).1, c.decBlocks_eq, hblocks, c.header,
    headerCounter_packHeader (maskCounter_lt s.ctr), c.cfg, c.key]

/-- The recomputed tag is the one at the end of the frame (rule R106). -/
theorem tagCompare (c : CarriesFrame h s d) : decTagCompare (decRun h d) = true := by
  have hoff : d.ilen.toNat - 8 = 8 + 8 * encBlocks s := by
    rw [c.ilen, frameLength, encBlocks]
    omega
  rw [decTagCompare, beq_iff_eq, c.accumulator, decRun_cfg, c.cfg, decRun_ilen, hoff, State.memReadDWord,
    memRead_congr (decRun_ibuf h d) (decRun_epoch h d)]
  exact c.tag.symm

/-- Enciphering with the same keystream a second time gives the padded chunk back (rule R105). -/
theorem plainValue (c : CarriesFrame h s d) {i : Nat} (hi : i < encBlocks s) :
    decPlainValue h d i = leValue (padChunk (s.memRead (8 * i) (chunkLength s.ilen.toNat i))) := by
  rw [decPlainValue, decBlockValue, c.block i hi, c.header, headerCounter_packHeader (maskCounter_lt s.ctr), c.cfg,
    c.key, encBlockValue, pair_join, xorPair_xorPair_cancel, join_pair]

/-- The plaintext is in `OBUF` after DECODE's blocks. -/
theorem obufByte (c : CarriesFrame h s d) {a : Nat} (ha : a < s.ilen.toNat) :
    (decRun h d).obufByte a = s.ibufByte a := by
  have hi : a / 8 < encBlocks s := by unfold encBlocks ceil8; omega
  have hj : a % 8 < 8 := Nat.mod_lt _ (by decide)
  have hchunk : a % 8 < chunkLength s.ilen.toNat (a / 8) := by unfold chunkLength; omega
  have hbyte : (decRun h d).obuf.get? a = some ((decPlainValue h d (a / 8)).extractLsb' (8 * (a % 8)) 8) := by
    have hspec := (decLoop_spec h d (decBlocks d)).2 (a / 8) (a % 8) (by rwa [c.decBlocks_eq]) hj
    rwa [Nat.div_add_mod] at hspec
  rw [State.obufByte, hbyte, Option.getD_some, c.plainValue hi, leValue_byte _ _ hj, padChunk,
    List.getElem?_append_left (by simpa [State.memRead] using hchunk)]
  simp [State.memRead, hchunk, Nat.div_add_mod]

/-- The length DECODE accepts with is the plaintext's (30_encoding.md rule R59). -/
theorem plainLength_eq (c : CarriesFrame h s d) (hm : 1 ≤ s.ilen.toNat) :
    plainLength d.ilen.toNat (headerRem (d.memReadDWord 0)) = s.ilen.toNat := by
  rw [c.ilen, c.header, headerRem_packHeader (maskCounter_lt s.ctr), lengthRem, ← BitVec.ofNat_toNat]
  exact plainLength_frameLength hm

/-- The frame of a nonempty plaintext passes the length check, that of an empty one does not (rules R101, R110). -/
theorem decCheck_eq (c : CarriesFrame h s d) : decCheck d = decide (1 ≤ s.ilen.toNat) := by
  rw [Bool.eq_iff_iff, decCheck_iff, decide_eq_true_iff, c.ilen]
  unfold frameLength ceil8
  omega

/-- A nonempty plaintext comes back (rule R110). -/
theorem accepted (c : CarriesFrame h s d) (hm : 1 ≤ s.ilen.toNat) :
    (decodeComplete h d).rej = false ∧ (decodeComplete h d).olen = s.ilen ∧
      ∀ a, a < s.ilen.toNat → (decodeComplete h d).obufByte a = s.ibufByte a := by
  have hcheck : decCheck d = true := by rw [c.decCheck_eq, decide_eq_true hm]
  rw [decodeComplete, if_pos hcheck, if_pos c.tagCompare]
  refine ⟨rfl, ?_, fun a ha => (obufByte_congr rfl rfl a).trans (c.obufByte ha)⟩
  rw [decAccept_olen, decRun_ilen, decRun_wrem, c.plainLength_eq hm, BitVec.ofNat_toNat, BitVec.setWidth_eq]

/-- The 16 bytes of an empty plaintext's frame are rejected for their length (rule R110). -/
theorem rejected (c : CarriesFrame h s d) (hm : s.ilen.toNat = 0) : (decodeComplete h d).rej = true := by
  have hcheck : decCheck d = false := by rw [c.decCheck_eq, hm]; rfl
  rw [decodeComplete, hcheck]
  rfl

end CarriesFrame

/-- Settles O33: the frame an ENCODE left is carried to `d`, whose DECODE completes as `CarriesFrame.accepted` and
`CarriesFrame.rejected` say. -/
theorem encodeDecodeRoundTrip : Obligations.EncodeDecodeRoundTrip := by
  intro s t d _ hs _ he hd hcfg hkey hilen hcopy
  rw [exec_encode_of_pending hs] at he
  split_ifs at he with hfit
  obtain rfl := Host.Outcome.next.inj he
  have hframe := carriesFrame_of_copied hcfg hkey hilen hcopy
  have hdfit : d.ilen.toNat ≤ d.cfg.bufsz := by rwa [hilen, hcfg]
  rw [exec_decode_of_pending hd, if_pos (.inr hdfit), hcfg]
  exact ⟨_, rfl, hframe.accepted, hframe.rejected⟩

end Sys2Proof.Machine

namespace Sys2Proof.Machine

/-! ### Command words as bytes (20_memory.md rule R33) -/

/-- Four bytes make a word exactly when they are the word's own, lowest first. -/
theorem wordOfBytes_eq_iff {b0 b1 b2 b3 : Byte} {w : Word} :
    wordOfBytes b0 b1 b2 b3 = w ↔
      b0 = w.extractLsb' 0 8 ∧ b1 = w.extractLsb' 8 8 ∧ b2 = w.extractLsb' 16 8 ∧ b3 = w.extractLsb' 24 8 := by
  constructor
  · rintro rfl
    refine ⟨?_, ?_, ?_, ?_⟩ <;> ext i hi <;> simp [wordOfBytes] <;> grind
  · rintro ⟨rfl, rfl, rfl, rfl⟩
    ext i hi
    simp [wordOfBytes]
    grind

/-- Four bytes decode to a command exactly when they are its encoding's. -/
theorem decode_wordOfBytes_eq_ok_iff {b0 b1 b2 b3 : Byte} {i : Instr} :
    decode (wordOfBytes b0 b1 b2 b3) = .ok i ↔ [b0, b1, b2, b3] = encodeBytes i := by
  rw [decode_eq_ok_iff, wordOfBytes_eq_iff]
  simp [encodeBytes]

/-- The byte decoder on at least four bytes: the command of the first four, and the rest. -/
theorem decodeBytes_eq_ok_iff {b0 b1 b2 b3 : Byte} {bytes rest : List Byte} {i : Instr} :
    decodeBytes (b0 :: b1 :: b2 :: b3 :: bytes) = .ok (i, rest) ↔
      [b0, b1, b2, b3] = encodeBytes i ∧ bytes = rest := by
  rw [← decode_wordOfBytes_eq_ok_iff, decodeBytes]
  cases decode (wordOfBytes b0 b1 b2 b3) <;> simp

/-- Settles O2: at least four bytes by `decodeBytes_eq_ok_iff`; fewer decode to nothing and hold no encoding. -/
theorem decodeEncodeBytesAgree : Obligations.DecodeEncodeBytesAgree := by
  intro bytes i rest
  match bytes with
  | b0 :: b1 :: b2 :: b3 :: tail =>
    rw [decodeBytes_eq_ok_iff]
    simp [encodeBytes, and_assoc]
  | [] | [_] | [_, _] | [_, _, _] => simp [decodeBytes, encodeBytes]

/-- Settles O3: each word has a single cause under rules R50 and R51. -/
theorem commandWordSamples : Obligations.CommandWordSamples := by
  unfold Obligations.CommandWordSamples
  decide

/-! ### The subkeys of the reference primitive (41_primitive_h.md rules R83 and R87) -/

/-- Settles O8: the first of `r + 1` rounds advances the subkeys once, the other `r` advance them `r` times more. -/
theorem referencePrimitiveSubkeys : Obligations.ReferencePrimitiveSubkeys := by
  intro r n k x y
  induction r generalizing k x y with
  | zero => simp [refRounds]
  | succ r ih => rw [Nat.succ_add, refRounds, ih, subkeysAfter_advanceSubkeys, refRounds]

/-- `H_ref_inv` is the inverse of `H_ref` for each key (rule R84). -/
theorem permProperty_hRef : PermProperty hRef := fun k =>
  Function.bijective_iff_has_inverse.mpr
    ⟨fun p => hRefInv p.1 p.2 k, fun p => (referencePrimitiveInverse p.1 p.2 k).1,
      fun p => (referencePrimitiveInverse p.1 p.2 k).2⟩

/-- Two keys that differ in one bit send the zero block to different blocks. -/
theorem keyDepProperty_hRef : KeyDepProperty hRef :=
  ⟨0, 0, { k0 := 0, k1 := 0, k2 := 0, k3 := 0 }, { k0 := 1, k1 := 0, k2 := 0, k3 := 0 }, by decide +kernel⟩

/-- Settles O9: `H_id` is the identity for every key, so it is a bijection that no key changes. -/
theorem primitiveNamedProperties : Obligations.PrimitiveNamedProperties := by
  refine ⟨permProperty_hRef, fun _ => Function.bijective_id, keyDepProperty_hRef, ?_⟩
  rintro ⟨x, y, k, k', hne⟩
  exact hne rfl

end Sys2Proof.Machine

namespace Sys2Proof.Machine

/-! ### Frames as lists of 64-bit fields (30_encoding.md rule R53) -/

/-- A buffer that lists 64-bit fields one after the other from offset 0 on shows their bytes. -/
theorem obufBytes_eq_flatMap {t : State} {vs : List DWord}
    (h : ∀ i (hi : i < vs.length), t.ListsDWord (8 * i) vs[i]) :
    (List.range (8 * vs.length)).map t.obufByte = vs.flatMap (leBytes 8) := by
  apply List.ext_getElem?
  intro a
  obtain ⟨i, j, hj, rfl⟩ : ∃ i j, j < 8 ∧ a = 8 * i + j := ⟨a / 8, a % 8, by omega, by omega⟩
  rw [flatMap_leBytes_getElem? vs i j hj]
  rcases Nat.lt_or_ge i vs.length with hi | hi
  · have ha : 8 * i + j < 8 * vs.length := by omega
    simp [ha, hi, (h i hi).obufByte hj]
  · have ha : 8 * vs.length ≤ 8 * i + j := by omega
    simp [ha, hi]

theorem lengthRem_eq_ofNat (m : Word) : lengthRem m = BitVec.ofNat 3 m.toNat := by
  rw [lengthRem, ← BitVec.ofNat_toNat]

/-- The evaluator's frame: header, ciphertext blocks, tag. -/
theorem refEncode_eq_flatMap (h : BlockFn) (o : PairOrder) (k : Key) (ctr : DWord) (bytes : List Byte) :
    refEncode h o k ctr bytes =
      let es := refCiphertext h o k (maskCounter ctr) (chunkValues (ceil8 bytes.length) bytes)
      (packHeader (maskCounter ctr) (BitVec.ofNat 3 bytes.length) :: es ++
        [join o (refTag h o k (halves (maskCounter ctr)) es)]).flatMap (leBytes 8) := by
  simp [refEncode]

/-- The blocks ENCODE's loop stores are the evaluator's for the plaintext in `IBUF`. -/
theorem refCiphertext_memRead (h : BlockFn) (s : State) :
    refCiphertext h s.cfg.pairOrder s.key (maskCounter s.ctr)
        (chunkValues (encBlocks s) (s.memRead 0 s.ilen.toNat)) =
      (List.range (encBlocks s)).map (encBlockValue h s) := by
  rw [chunkValues_memRead, refCiphertext_eq_map]
  rfl

/-- The 64-bit fields of the frame of an ENCODE about to complete. -/
def frameValues (h : BlockFn) (s : State) : List DWord :=
  packHeader (maskCounter s.ctr) (lengthRem s.ilen) :: (List.range (encBlocks s)).map (encBlockValue h s) ++
    [encTagValue h s]

theorem eight_mul_frameValues_length (h : BlockFn) (s : State) :
    8 * (frameValues h s).length = frameLength s.ilen.toNat := by
  simp [frameValues, frameLength, encBlocks]
  omega

theorem refEncode_memRead (h : BlockFn) (s : State) :
    refEncode h s.cfg.pairOrder s.key s.ctr (s.memRead 0 s.ilen.toNat) =
      (frameValues h s).flatMap (leBytes 8) := by
  have hblocks := refCiphertext_memRead h s
  rw [encBlocks] at hblocks
  rw [refEncode_eq_flatMap, memRead_length, hblocks, ← lengthRem_eq_ofNat]
  rfl

/-- The completion lists the fields one after the other: the header, then each block, then the tag. -/
theorem encodeComplete_lists_frameValues (h : BlockFn) (s : State) (i : Nat) (hi : i < (frameValues h s).length) :
    (encodeComplete h s).ListsDWord (8 * i) (frameValues h s)[i] := by
  rcases i with _ | i
  · exact encodeComplete_lists_header h s
  · have hi' : i < encBlocks s + 1 := by simpa [frameValues] using hi
    rw [show 8 * (i + 1) = 8 + 8 * i by omega]
    rcases Nat.lt_succ_iff_lt_or_eq.mp hi' with hlt | rfl
    · simpa [frameValues, List.getElem_append, hlt] using encodeComplete_lists_block h s hlt
    · simpa [frameValues, List.getElem_append] using encodeComplete_lists_tag h s

/-- ENCODE's completion leaves the evaluator's frame in `OBUF`. -/
theorem encodeComplete_obufBytes (h : BlockFn) (s : State) :
    (List.range (frameLength s.ilen.toNat)).map (encodeComplete h s).obufByte =
      refEncode h s.cfg.pairOrder s.key s.ctr (s.memRead 0 s.ilen.toNat) := by
  rw [refEncode_memRead, ← eight_mul_frameValues_length h,
    obufBytes_eq_flatMap (encodeComplete_lists_frameValues h s)]

/-! ### ENCODE's completion (42_encode.md rules R90 and R99) -/

/-- Settles O20: the frame by `encodeComplete_obufBytes`; a frame that fits keeps `OLEN` and `CTR` from wrapping. -/
theorem encodeCompletesWithFrame : Obligations.EncodeCompletesWithFrame := by
  intro s hwf hp hfit
  obtain ⟨-, -, hmax, -⟩ := config_wf_iff.mp hwf
  have hblocks : encBlocks s ≤ 8192 := (encBlocks_le_of_fits hfit).trans (Nat.div_le_of_le_mul hmax)
  refine ⟨encodeComplete (applyPrimitive s.cfg.prim) s, by rw [exec_encode_of_pending hp, if_pos hfit],
    encodeComplete_obufBytes _ s, ?_, ?_, rfl, rfl, by simp, by simp, by simp⟩
  · rw [encodeComplete_olen, ofNat_toNat_of_le (hfit.trans hmax)]
  · rw [encodeComplete_ctr_eq_ofNat, ofNat_maskedCounter_toNat _ hblocks, encBlocks]

/-- ENCODE's completion stores nothing past the frame. -/
theorem encodeComplete_obuf_outside (h : BlockFn) (s : State) {a : Nat} (ha : frameLength s.ilen.toNat ≤ a) :
    (encodeComplete h s).obuf.get? a = s.obuf.get? a := by
  have hlen : frameLength s.ilen.toNat = 16 + 8 * encBlocks s := rfl
  rw [encodeComplete_obuf, get?_store_outside (.inr (by rw [leBytes_length]; omega)),
    encLoop_obuf_outside h _ _ rfl a (.inr (by omega)), encStart_obuf,
    get?_store_outside (.inr (by rw [leBytes_length]; omega))]

/-- The step of a pending ENCODE is its completion. -/
theorem exec_encode_next {s t : State} (hp : s.ph = .busyEnc) (h : exec .encode s = .next t) :
    t = encodeComplete (applyPrimitive s.cfg.prim) s := by
  rw [exec_encode_of_pending hp] at h
  split_ifs at h
  exact (Host.Outcome.next.inj h).symm

/-- Settles O21: the fields of ENCODE's completion, and the bytes past the frame by `encodeComplete_obuf_outside`. -/
theorem encodeFrame : Obligations.EncodeFrame := by
  intro s t hp he
  obtain rfl := exec_encode_next hp he
  refine ⟨by simp, by simp, by simp, by simp, by simp, by simp, by simp, by simp, by simp, by simp, by simp,
    ibufByte_congr (by simp) (by simp), fun a ha => ?_⟩
  rw [State.obufByte, encodeComplete_obuf_outside _ s ha, encodeComplete_epoch, State.obufByte]

/-- The frame of the empty plaintext is the header and the untouched accumulator (rule R99 item 1). -/
theorem refEncode_nil (h : BlockFn) (o : PairOrder) (k : Key) (ctr : DWord) :
    refEncode h o k ctr [] =
      leBytes 8 (maskCounter ctr <<< 3) ++ leBytes 8 (join o (halves (maskCounter ctr))) := by
  simp [refEncode, ceil8, chunkValues, refCiphertext, refTag, packHeader]

/-- Settles O23: O20 at `ILEN = 0`, where the frame is `refEncode_nil` and no block advances the counter. -/
theorem encodeEmptyPlaintext : Obligations.EncodeEmptyPlaintext := by
  intro s hwf hp hilen
  obtain ⟨-, hmin, -⟩ := config_wf_iff.mp hwf
  have hm : s.ilen.toNat = 0 := by rw [hilen]; rfl
  have hlen : frameLength s.ilen.toNat = 16 := by rw [hm]; rfl
  obtain ⟨t, he, hframe, holen, hctr, hdone, hph, -⟩ := encodeCompletesWithFrame s hwf hp (by omega)
  refine ⟨t, he, ?_, BitVec.eq_of_toNat_eq (holen.trans hlen), BitVec.eq_of_toNat_eq ?_, hdone, hph⟩
  · rw [hlen, hm] at hframe
    rw [hframe]
    exact refEncode_nil _ _ _ _
  · rw [hctr, hm, maskCounter_toNat]
    rfl

/-! ### The cipher's round trip on byte strings (43_decode.md rule R110) -/

/-- Decode of 64-bit fields `hdr, es, tag` with at least one block: the tag over the blocks is compared, the blocks are
enciphered again, and the bytes are cut to the plaintext's length. -/
theorem refDecode_flatMap (h : BlockFn) (o : PairOrder) (k : Key) (hdr tag : DWord) (es : List DWord)
    (hne : es ≠ []) :
    refDecode h o k ((hdr :: es ++ [tag]).flatMap (leBytes 8)) =
      if join o (refTag h o k (halves (headerCounter hdr)) es) = tag then
        some (((refCiphertext h o k (headerCounter hdr) es).flatMap (leBytes 8)).take
          (plainLength (16 + 8 * es.length) (headerRem hdr)))
      else none := by
  have hpos : 0 < es.length := List.length_pos_iff.mpr hne
  have hlen : ((hdr :: es ++ [tag]).flatMap (leBytes 8)).length = 16 + 8 * es.length := by
    rw [flatMap_leBytes_length]
    simp
    omega
  have hblocks : blockCount (16 + 8 * es.length) = es.length := by
    unfold blockCount
    omega
  have hhdr : ((hdr :: es ++ [tag]).flatMap (leBytes 8)).take 8 = leBytes 8 hdr := by
    simp
  have hrest : ((hdr :: es ++ [tag]).flatMap (leBytes 8)).drop 8 = es.flatMap (leBytes 8) ++ leBytes 8 tag := by
    simp
  have htag : ((hdr :: es ++ [tag]).flatMap (leBytes 8)).drop (16 + 8 * es.length - 8) = leBytes 8 tag := by
    rw [show 16 + 8 * es.length - 8 = 8 + 8 * es.length by omega, ← List.drop_drop, hrest,
      List.drop_left' (flatMap_leBytes_length es)]
  rw [refDecode, hlen, if_neg (by omega), hhdr, hrest, htag, hblocks]
  simp only [leValue_leBytes, chunkValues_flatMap]

/-- Settles O32: the fields of the frame decode to its own tag and, enciphered twice, to the padded plaintext, which the
recovered length cuts to the plaintext. -/
theorem referenceRoundTrip : Obligations.ReferenceRoundTrip := by
  intro h o k ctr plain hne
  have hm : 1 ≤ plain.length := List.length_pos_iff.mpr hne
  have hmask := maskCounter_lt ctr
  have hfill : plain.length ≤ 8 * ceil8 plain.length := by
    unfold ceil8
    omega
  rw [refEncode_eq_flatMap, refDecode_flatMap, headerCounter_packHeader hmask, if_pos rfl,
    headerRem_packHeader hmask, refCiphertext_involutive, refCiphertext_length, chunkValues_length,
    ← frameLength, plainLength_frameLength hm, flatMap_chunkValues _ _ hfill]
  rw [← List.length_pos_iff, refCiphertext_length, chunkValues_length]
  omega

end Sys2Proof.Machine

namespace Sys2Proof.Machine

/-! ### DECODE's run in the evaluator's terms (43_decode.md rules R100 to R107) -/

/-- The blocks of the frame in `IBUF`. -/
def frameBlocks (s : State) : List DWord := (List.range (decBlocks s)).map (decBlockValue s)

theorem memReadDWord_congr {s t : State} (h : s.ibuf = t.ibuf) (e : s.epoch = t.epoch) (o : Nat) :
    s.memReadDWord o = t.memReadDWord o := congrArg leValue (memRead_congr h e o 8)

/-- The tag comparison: the tag over the frame's blocks, from the header's counter, and the frame's last 8 bytes. -/
theorem decTagCompare_decRun (h : BlockFn) (s : State) :
    decTagCompare (decRun h s) = true ↔
      join s.cfg.pairOrder
          (refTag h s.cfg.pairOrder s.key (halves (headerCounter (s.memReadDWord 0))) (frameBlocks s)) =
        s.memReadDWord (s.ilen.toNat - 8) := by
  have hacc : ((decRun h s).ax, (decRun h s).ay) =
      refTag h s.cfg.pairOrder s.key (halves (headerCounter (s.memReadDWord 0))) (frameBlocks s) :=
    (decLoop_spec h s (decBlocks s)).1
  rw [decTagCompare, beq_iff_eq, hacc, decRun_cfg, decRun_ilen,
    memReadDWord_congr (decRun_ibuf h s) (decRun_epoch h s)]

/-- The plaintext blocks DECODE leaves in `OBUF`. -/
theorem decRun_lists_block (h : BlockFn) (s : State) {i : Nat} (hi : i < decBlocks s) :
    (decRun h s).ListsDWord (8 * i) (decPlainValue h s i) :=
  fun j hj => (decLoop_spec h s (decBlocks s)).2 i j hi hj

theorem decRun_obufBytes (h : BlockFn) (s : State) :
    (List.range (8 * decBlocks s)).map (decRun h s).obufByte =
      ((List.range (decBlocks s)).map (decPlainValue h s)).flatMap (leBytes 8) := by
  simpa using obufBytes_eq_flatMap (t := decRun h s) (vs := (List.range (decBlocks s)).map (decPlainValue h s))
    (fun i hi => by simpa using decRun_lists_block h s (by simpa using hi))

/-- The plaintext blocks are the evaluator's. -/
theorem refCiphertext_frameBlocks (h : BlockFn) (s : State) :
    refCiphertext h s.cfg.pairOrder s.key (headerCounter (s.memReadDWord 0)) (frameBlocks s) =
      (List.range (decBlocks s)).map (decPlainValue h s) :=
  refCiphertext_eq_map ..

/-- The plaintext length of the frame in `IBUF` (rule R107). -/
def framePlainLength (s : State) : Nat := plainLength s.ilen.toNat (headerRem (s.memReadDWord 0))

theorem framePlainLength_le {s : State} (hc : decCheck s = true) : framePlainLength s ≤ 8 * decBlocks s :=
  (plainLength_bounds (decCheck_iff.mp hc).1 _).2

/-- The chunks after the header are the frame's blocks: each lies whole before the frame's end. -/
theorem chunkValues_frame (s : State) :
    chunkValues (decBlocks s) ((s.memRead 0 s.ilen.toNat).drop 8) = frameBlocks s := by
  rw [chunkValues_eq_map]
  refine List.map_congr_left fun i hi => ?_
  have hin : 8 * decBlocks s ≤ s.ilen.toNat - 16 := blockCount_le s.ilen.toNat
  have hi : i < decBlocks s := List.mem_range.mp hi
  rw [List.drop_drop, memRead_drop_take, Nat.min_eq_left (by omega), padChunk_full _ (by simp)]
  rfl

/-- The evaluator's Decode of the frame in `IBUF`, in the terms of DECODE's run. -/
theorem refDecode_memRead (h : BlockFn) (s : State) :
    refDecode h s.cfg.pairOrder s.key (s.memRead 0 s.ilen.toNat) =
      if decCheck s = true ∧ decTagCompare (decRun h s) = true then
        some ((List.range (framePlainLength s)).map (decRun h s).obufByte)
      else none := by
  have hshort : s.ilen.toNat < 24 ∨ s.ilen.toNat % 8 ≠ 0 ↔ ¬ decCheck s = true := by
    rw [decCheck_iff]
    omega
  rw [refDecode, memRead_length]
  by_cases hc : decCheck s = true
  · have hbytes : ((List.range (8 * decBlocks s)).map (decRun h s).obufByte).take (framePlainLength s) =
        (List.range (framePlainLength s)).map (decRun h s).obufByte := by
      rw [← List.map_take, List.take_range, Nat.min_eq_left (framePlainLength_le hc)]
    obtain ⟨hlen, -⟩ := decCheck_iff.mp hc
    rw [if_neg (mt hshort.mp (not_not.mpr hc)), memRead_take, memRead_drop s _ (s.ilen.toNat - 8),
      Nat.min_eq_left (by omega), show s.ilen.toNat - (s.ilen.toNat - 8) = 8 by omega]
    simp only [hc, true_and, decTagCompare_decRun, ← hbytes, decRun_obufBytes, ← refCiphertext_frameBlocks,
      ← chunkValues_frame]
    rfl
  · rw [if_pos (hshort.mpr hc), if_neg (fun hboth => hc hboth.1)]

/-! ### DECODE's completion (rule R100) -/

/-- The machine shows the outcome of the evaluator's Decode: the plaintext, or a rejection. -/
def State.ShowsOutcome (t : State) : Option (List Byte) → Prop
  | some plain => t.rej = false ∧ t.olen.toNat = plain.length ∧ (List.range plain.length).map t.obufByte = plain
  | none => t.rej = true ∧ t.olen = 0

theorem decAccept_decRun_olen {h : BlockFn} {s : State} (hc : decCheck s = true) :
    (decAccept (decRun h s)).olen.toNat = framePlainLength s := by
  have hle := framePlainLength_le hc
  have hframe : 8 * decBlocks s ≤ s.ilen.toNat - 16 := blockCount_le s.ilen.toNat
  have hlt := s.ilen.isLt
  rw [decAccept_olen, decRun_ilen, decRun_wrem, ← framePlainLength, BitVec.toNat_ofNat, Nat.mod_eq_of_lt (by omega)]

theorem decAccept_obufByte (s : State) (a : Nat) : (decAccept s).obufByte a = s.obufByte a := rfl

/-- DECODE's completion shows the evaluator's outcome, whatever `BUFSZ` is. -/
theorem decodeComplete_showsOutcome (h : BlockFn) (s : State) :
    (decodeComplete h s).ShowsOutcome
      (refDecode h s.cfg.pairOrder s.key (s.memRead 0 s.ilen.toNat)) := by
  rw [refDecode_memRead]
  rcases decodeComplete_cases h s with ⟨hc, ht, e⟩ | ⟨hc, ht, e⟩ | ⟨hc, e⟩ <;> rw [e]
  · rw [if_pos ⟨hc, ht⟩]
    exact ⟨rfl, by rw [decAccept_decRun_olen hc, List.length_map, List.length_range], by simp [decAccept_obufByte]⟩
  · rw [if_neg (by simp [ht])]
    exact ⟨rfl, rfl⟩
  · rw [if_neg (by simp [hc])]
    exact ⟨rfl, rfl⟩

/-- Settles O25: a frame that fits completes, and `decodeComplete_showsOutcome` says how. -/
theorem decodeCompletesAsReference : Obligations.DecodeCompletesAsReference := by
  intro s _ hp hfit
  refine ⟨decodeComplete (applyPrimitive s.cfg.prim) s, by rw [exec_decode_of_pending hp, if_pos (.inr hfit)],
    decodeComplete_done _ s, decodeComplete_ph _ s, ?_⟩
  have hshows := decodeComplete_showsOutcome (applyPrimitive s.cfg.prim) s
  unfold State.ShowsOutcome at hshows
  exact hshows

/-- Settles O26: the length check fails, so the completion is the rejection, and no fault stands before it. -/
theorem decodeRejectsBadLength : Obligations.DecodeRejectsBadLength := by
  intro s hp hbad
  have hc : decCheck s = false := by
    rw [Bool.eq_false_iff, ne_eq, decCheck_iff]
    omega
  rw [exec_decode_of_pending hp, if_pos (.inl hc), decodeComplete, hc]
  rfl

/-- DECODE's completion stores nothing past the blocks. -/
theorem decodeComplete_obuf_outside (h : BlockFn) (s : State) {a : Nat} (ha : 8 * decBlocks s ≤ a) :
    (decodeComplete h s).obuf.get? a = s.obuf.get? a := by
  have hrun : (decRun h s).obuf.get? a = s.obuf.get? a := decLoop_obuf_outside h _ _ rfl a ha
  rcases decodeComplete_cases h s with ⟨-, -, e⟩ | ⟨-, -, e⟩ | ⟨-, e⟩ <;> rw [e]
  · exact hrun
  · exact hrun
  · rfl

/-- Settles O27: what no completion of DECODE writes, and the bytes past the blocks. -/
theorem decodeFrame : Obligations.DecodeFrame := by
  intro s t hp he
  obtain rfl := exec_decode_next hp he
  obtain ⟨hcfg, hkey, hctr, hseed, hilen, herr, hecode, hibuf, hepoch, hsched, hhost⟩ :=
    decodeComplete_unwritten (applyPrimitive s.cfg.prim) s
  refine ⟨hcfg, hkey, hctr, hseed, hilen, herr, hecode, hibuf, hepoch, hsched, hhost,
    ibufByte_congr hibuf hepoch, fun a ha => ?_, fun hc => ?_⟩
  · rw [State.obufByte, decodeComplete_obuf_outside _ s ha, hepoch, State.obufByte]
  · rw [decodeComplete, hc]
    rfl

/-! ### What DECODE's outcome depends on (rule R109) -/

/-- The gated bytes of a machine that shows an outcome are the plaintext's, then zeros. -/
theorem State.ShowsOutcome.gatedByte {t : State} {r : Option (List Byte)} (h : t.ShowsOutcome r) (a : Nat) :
    t.gatedByte a = (r.getD [])[a]?.getD 0 := by
  cases r with
  | none =>
    obtain ⟨-, holen⟩ := h
    simp [gatedByte_of_olen_zero holen]
  | some plain =>
    obtain ⟨-, holen, hbytes⟩ := h
    rw [Option.getD_some, ← hbytes, State.gatedByte, holen]
    rcases Nat.lt_or_ge a plain.length with ha | ha <;> simp [ha]

/-- Two machines that show one outcome agree on `OLEN` and `REJ`. -/
theorem State.ShowsOutcome.unique {t t' : State} {r : Option (List Byte)} (h : t.ShowsOutcome r)
    (h' : t'.ShowsOutcome r) : t'.olen = t.olen ∧ t'.rej = t.rej := by
  cases r with
  | none => exact ⟨h'.2.trans h.2.symm, h'.1.trans h.1.symm⟩
  | some plain =>
    obtain ⟨hrej, holen, -⟩ := h
    obtain ⟨hrej', holen', -⟩ := h'
    exact ⟨BitVec.eq_of_toNat_eq (holen'.trans holen.symm), hrej'.trans hrej.symm⟩

/-- Settles O28: both machines show the evaluator's outcome on the same key and bytes; no completion of DECODE writes
`CTR`. -/
theorem decodeIgnoresCounter : Obligations.DecodeIgnoresCounter := by
  intro s s' t t' hp hp' hcfg hkey hilen hbytes he he'
  obtain rfl := exec_decode_next hp he
  obtain rfl := exec_decode_next hp' he'
  have hread : s'.memRead 0 s'.ilen.toNat = s.memRead 0 s.ilen.toNat := by
    simp only [State.memRead, hbytes, hilen]
  have hs := decodeComplete_showsOutcome (applyPrimitive s.cfg.prim) s
  have hs' := decodeComplete_showsOutcome (applyPrimitive s'.cfg.prim) s'
  rw [hcfg, hkey, hread] at hs'
  rw [hcfg]
  obtain ⟨holen, hrej⟩ := hs.unique hs'
  obtain ⟨-, -, hctr, -⟩ := decodeComplete_unwritten (applyPrimitive s.cfg.prim) s
  obtain ⟨-, -, hctr', -⟩ := decodeComplete_unwritten (applyPrimitive s.cfg.prim) s'
  exact ⟨hctr, hctr', holen, hrej, by simp, by simp, fun a => (hs'.gatedByte a).trans (hs.gatedByte a).symm⟩

/-! ### The remainder bits (rule R111 item 2) -/

end Sys2Proof.Machine

namespace Sys2Proof.Machine

/-! ### The remainder bits (43_decode.md rule R111 item 2) -/

theorem decodeComplete_of_rej_eq_false {h : BlockFn} {s : State} (hr : (decodeComplete h s).rej = false) :
    decCheck s = true ∧ decTagCompare (decRun h s) = true := by
  rcases decodeComplete_cases h s with ⟨hc, ht, -⟩ | ⟨-, -, e⟩ | ⟨-, e⟩
  · exact ⟨hc, ht⟩
  · rw [e] at hr
    cases hr
  · rw [e] at hr
    cases hr

/-- A byte of the plaintext blocks in `OBUF`. -/
theorem decRun_obufByte (h : BlockFn) (s : State) {a : Nat} (ha : a < 8 * decBlocks s) :
    (decRun h s).obufByte a = (decPlainValue h s (a / 8)).extractLsb' (8 * (a % 8)) 8 := by
  have hbyte := (decRun_lists_block h s (i := a / 8) (by omega)).obufByte (j := a % 8) (by omega)
  rwa [Nat.div_add_mod] at hbyte

theorem memReadDWord_eq_of_bytes {s t : State} {o : Nat}
    (h : ∀ j, j < 8 → s.ibufByte (o + j) = t.ibufByte (o + j)) : s.memReadDWord o = t.memReadDWord o :=
  congrArg leValue (List.map_congr_left fun j hj => h j (List.mem_range.mp hj))

/-- A bit of the frame's header stands in its byte of `IBUF`. -/
theorem memReadDWord_getLsbD (s : State) {i : Nat} (hi : i < 64) :
    (s.memReadDWord 0).getLsbD i = (s.ibufByte (i / 8)).getLsbD (i % 8) := by
  rw [← memReadDWord_byte s (i / 8) (by omega), BitVec.getLsbD_extractLsb', Nat.div_add_mod]
  simp [Nat.mod_lt]

/-- The remainder field is in byte 0 (30_encoding.md rule R54). -/
theorem headerRem_memReadDWord (s : State) : headerRem (s.memReadDWord 0) = (s.ibufByte 0).setWidth 3 := by
  ext i hi
  simp [headerRem, ← BitVec.getLsbD_eq_getElem, memReadDWord_getLsbD s (show i < 64 by omega),
    show i / 8 = 0 by omega, show i % 8 = i by omega]

/-- Two states whose keys, parameters and frames are equal but for bits 2:0 of the frame's byte 0. -/
structure DifferInRemainder (s s' : State) : Prop where
  cfg : s'.cfg = s.cfg
  key : s'.key = s.key
  ilen : s'.ilen = s.ilen
  bytes : ∀ a, a ≠ 0 → s'.ibufByte a = s.ibufByte a
  byteZero : s'.ibufByte 0 >>> 3 = s.ibufByte 0 >>> 3

namespace DifferInRemainder

variable {s s' : State}

/-- The counter field holds none of the three bits. -/
theorem headerCounter_eq (d : DifferInRemainder s s') :
    headerCounter (s'.memReadDWord 0) = headerCounter (s.memReadDWord 0) := by
  ext i hi
  simp only [headerCounter, BitVec.getElem_ushiftRight]
  rcases Nat.lt_or_ge (3 + i) 64 with hlt | hge
  · rw [memReadDWord_getLsbD s' hlt, memReadDWord_getLsbD s hlt]
    by_cases h0 : (3 + i) / 8 = 0
    · have hbit := congrArg (fun b => BitVec.getLsbD b i) d.byteZero
      rw [h0, Nat.mod_eq_of_lt (by omega)]
      simpa [BitVec.getLsbD_ushiftRight] using hbit
    · rw [d.bytes _ h0]
  · rw [BitVec.getLsbD_of_ge _ _ hge, BitVec.getLsbD_of_ge _ _ hge]

theorem memReadDWord_eq (d : DifferInRemainder s s') {o : Nat} (ho : o ≠ 0) :
    s'.memReadDWord o = s.memReadDWord o :=
  memReadDWord_eq_of_bytes fun j _ => d.bytes (o + j) (by omega)

theorem decCheck_eq (d : DifferInRemainder s s') : decCheck s' = decCheck s := by
  rw [decCheck, d.ilen, decCheck]

theorem decBlocks_eq (d : DifferInRemainder s s') : decBlocks s' = decBlocks s := by
  rw [decBlocks, d.ilen, decBlocks]

theorem decBlockValue_eq (d : DifferInRemainder s s') : decBlockValue s' = decBlockValue s :=
  funext fun i => d.memReadDWord_eq (by omega)

theorem frameBlocks_eq (d : DifferInRemainder s s') : frameBlocks s' = frameBlocks s := by
  rw [frameBlocks, d.decBlocks_eq, d.decBlockValue_eq, frameBlocks]

theorem decPlainValue_eq (d : DifferInRemainder s s') (h : BlockFn) : decPlainValue h s' = decPlainValue h s := by
  funext i
  rw [decPlainValue, d.cfg, d.key, d.headerCounter_eq, d.decBlockValue_eq, decPlainValue]

/-- The tag is over the counter and the blocks: the two frames pass its comparison together. -/
theorem accepted (d : DifferInRemainder s s') (h : BlockFn) (hc : decCheck s = true)
    (ht : decTagCompare (decRun h s) = true) : decodeComplete h s' = decAccept (decRun h s') := by
  have hlen := decCheck_iff.mp hc
  have ht' : decTagCompare (decRun h s') = true := by
    rw [decTagCompare_decRun] at ht ⊢
    rw [d.cfg, d.key, d.headerCounter_eq, d.frameBlocks_eq, d.ilen, ht, d.memReadDWord_eq (by omega)]
  rw [decodeComplete, d.decCheck_eq, if_pos hc, if_pos ht']

theorem obufByte_eq (d : DifferInRemainder s s') (h : BlockFn) {a : Nat} (ha : a < 8 * decBlocks s) :
    (decRun h s').obufByte a = (decRun h s).obufByte a := by
  rw [decRun_obufByte h s ha, decRun_obufByte h s' (by rwa [d.decBlocks_eq]), d.decPlainValue_eq]

end DifferInRemainder

/-- Settles O31: nothing the tag or a plaintext block is made of holds the three bits; only the length follows them. -/
theorem remainderBitsAreNotCovered : Obligations.RemainderBitsAreNotCovered := by
  intro s s' t t' _ hp hp' hcfg hkey hilen _ hbytes hzero he hrej he'
  have d : DifferInRemainder s s' := ⟨hcfg, hkey, hilen, hbytes, hzero⟩
  obtain rfl := exec_decode_next hp he
  obtain rfl := exec_decode_next hp' he'
  rw [hcfg]
  obtain ⟨hc, ht⟩ := decodeComplete_of_rej_eq_false hrej
  have hc' : decCheck s' = true := d.decCheck_eq.trans hc
  have e : decodeComplete (applyPrimitive s.cfg.prim) s = decAccept (decRun (applyPrimitive s.cfg.prim) s) := by
    rw [decodeComplete, if_pos hc, if_pos ht]
  rw [e, d.accepted _ hc ht]
  refine ⟨rfl, ?_, fun a ha _ => d.obufByte_eq _ (ha.trans_le ?_)⟩
  · rw [decAccept_decRun_olen hc', framePlainLength, hilen, headerRem_memReadDWord]
  · rw [decAccept_decRun_olen hc]
    exact framePlainLength_le hc

end Sys2Proof.Machine

namespace Sys2Proof.Machine

/-! ### What the spec gives for reset (10_state.md rule R27, 70_reset_and_hazards.md rules R140, R141) -/

theorem reset_status : State.reset.status = 0 := by decide

/-- Settles O10: the reset values, and `OLEN = 0` shuts the gate. -/
theorem resetLeavesSpecValues : Obligations.ResetLeavesSpecValues :=
  ⟨rfl, rfl, rfl, rfl, rfl, rfl, rfl, rfl, rfl, rfl, reset_status, gatedByte_of_olen_zero rfl⟩

/-- The environment's step is the reset event. -/
theorem step_of_env {s : State} (h : s.nextAgent = .env) : step s = .next s.popSched.envReset := by
  simp only [step, takeTurn, h, agentMove]

/-- Settles O11: the environment's step is the reset event, whose fields are those of O10. -/
theorem resetEventFromEveryState : Obligations.ResetEventFromEveryState := by
  intro s h
  exact ⟨_, step_of_env h, rfl, rfl, rfl, rfl, rfl, rfl, rfl, rfl, rfl, rfl, reset_status, gatedByte_of_olen_zero rfl⟩

/-- Settles O49: after reset nothing is pending, nothing exposed and nothing listed. -/
theorem resetSatisfiesInvariant : Obligations.ResetSatisfiesInvariant where
  config := by decide
  rule28 :=
    { busyFlags := nofun
      rejected := nofun
      refusedCode := nofun
      noCode := fun _ => rfl
      unkeyed := fun _ => ⟨rfl, rfl, rfl⟩
      olenBound := Nat.zero_le _
      olenShape := .inl rfl }
  admitted := admitted_of_not_busy rfl
  exposed := exposedWritten_of_olen_zero rfl
  memory := ⟨wf_nil, wf_nil⟩

/-! ### One step of a command (40_command_issue_and_init.md rules R70 to R72) -/

/-- Settles O16: the two outcomes of `issue_cases`. -/
theorem issueFrame : Obligations.IssueFrame := by
  intro i s hb
  refine ⟨issue i s, exec_of_not_busy hb i, ?_⟩
  rcases issue_cases i s with ⟨c, hc, -, e⟩ | ⟨-, -, e⟩ <;> rw [e]
  · exact ⟨rfl, fun _ => ⟨rfl, hc⟩, nofun, fun _ => rfl, fun _ => rfl⟩
  · exact ⟨rfl, nofun, fun _ => ⟨rfl, rfl⟩, fun _ => rfl, fun _ => rfl⟩

/-- Settles O17: the bus error of `exec_of_other_busy`, written out. -/
theorem commandWhileOtherPending : Obligations.CommandWhileOtherPending :=
  fun _ _ hb hne => exec_of_other_busy hb hne

/-- Settles O18: what the two completions require of the lengths does not hold. -/
theorem oversizedCompletionFaults : Obligations.OversizedCompletionFaults := by
  refine fun s => ⟨fun hp hbig => ?_, fun hp hmin hmod hbig => ?_⟩
  · rw [exec_encode_of_pending hp, if_neg (by omega)]
  · have hc : decCheck s = true := decCheck_iff.mpr ⟨hmin, hmod⟩
    rw [exec_decode_of_pending hp, if_neg (by simp [hc, hbig])]

/-! ### The agents' steps (00_scope.md rule R6) -/

theorem step_of_core {s : State} (h : s.nextAgent = .core) : step s = coreTurn s.popSched := by
  simp only [step, takeTurn, h, agentMove]

theorem step_of_host {s : State} (h : s.nextAgent = .host) : step s = hostTurn s.popSched := by
  simp only [step, takeTurn, h, agentMove]

/-- Settles O43: the core looks up the pending command; while not busy there is none. -/
theorem stepCompletesPendingCommand : Obligations.StepCompletesPendingCommand := by
  refine fun s h => ⟨fun i hi => ?_, fun hb => ?_⟩
  · rw [step_of_core h, coreTurn, popSched_ph, hi, pending_busyPhase]
  · rw [step_of_core h, coreTurn, popSched_ph, pending_of_not_busy hb]

/-- A host turn at a line whose access is a write is that write, the host moved past it. -/
theorem hostTurn_of_write {s : State} {l : Line} {a : Nat} {n : Width} {v : DWord}
    (hl : s.host.script[s.host.pc]? = some l) (ha : lineAccess s.cfg s.host l = some (.write a n v)) :
    hostTurn s = busWrite a n v (s.hostProgress l) := by
  simp only [hostTurn, hl, ha]

/-- A host turn at a line whose access is a read is that read, its answer taken in. -/
theorem hostTurn_of_read {s : State} {l : Line} {a : Nat} {n : Width}
    (hl : s.host.script[s.host.pc]? = some l) (ha : lineAccess s.cfg s.host l = some (.read a n)) :
    hostTurn s = onNext (captureReply l) (busRead a n (s.hostProgress l)) := by
  simp only [hostTurn, hl, ha]

/-- A host turn at a line without an access changes the host alone. -/
theorem hostTurn_of_silent {s : State} {l : Line} (hl : s.host.script[s.host.pc]? = some l)
    (ha : lineAccess s.cfg s.host l = none) : hostTurn s = silentLine l s := by
  simp only [hostTurn, hl, ha]

/-- While no command is pending, the host's 4-byte write of a command's word to `CMD` is the command's step. -/
theorem step_of_command {s : State} {l : Line} {v : DWord} {i : Instr} (ha : s.nextAgent = .host)
    (hb : s.ph.busy = false) (hl : s.host.script[s.host.pc]? = some l)
    (hacc : lineAccess s.cfg s.host l = some (.write s.cfg.base .four v)) (hd : decode (v.setWidth 32) = .ok i) :
    step s = exec i ((s.popSched.hostProgress l).answer .ack) := by
  have hb' : (s.popSched.hostProgress l).ph.busy = false := hb
  have hcmd := busWrite_cmd hb' v
  rw [issueWord, hd] at hcmd
  rw [step_of_host ha, hostTurn_of_write (s := s.popSched) hl hacc]
  exact hcmd

theorem tableWord_toNat (w : Word) : tableWord 32 w.toNat = w := by
  rw [tableWord, Nat.mod_eq_of_lt w.isLt, BitVec.ofNat_toNat, BitVec.setWidth_eq]

/-- Settles O42: `step_of_command`, for a script's line and for the line `withFetchWord` places. -/
theorem stepRunsWrittenCommand : Obligations.StepRunsWrittenCommand := by
  refine ⟨fun s l v i ha hb hl hacc hd => step_of_command ha hb hl hacc hd, fun s i => ?_⟩
  rw [State.withFetchWord, tableWord_toNat]
  have hb : (placeWord s (encode i)).ph.busy = false := settled_busy s.ph
  have ha : (placeWord s (encode i)).nextAgent = .host := by
    rw [State.nextAgent, show (placeWord s (encode i)).sched = [] from rfl]
    simp [hb]
  have hd : decode (((encode i).setWidth 64).setWidth 32) = .ok i := by
    rw [BitVec.setWidth_setWidth_of_le _ (by decide), BitVec.setWidth_eq, decode_encode]
  rw [step_of_command ha hb rfl rfl hd]
  rfl

/-- A host turn at `RD STATUS`: the view in `acc`, the next line, and nothing else but the answer. -/
theorem hostTurn_of_readStatus {s : State} (hl : s.host.script[s.host.pc]? = some (.rd (.reg .status))) :
    hostTurn s =
      .next (s.withHost { s.host.nextLine with acc := s.status, reply := .value (s.status.setWidth 64) }) := by
  have hacc : (s.status.setWidth 64).setWidth 32 = s.status := by
    rw [BitVec.setWidth_setWidth_of_le _ (by decide), BitVec.setWidth_eq]
  have hread : busRead (s.cfg.base + 0x04) .four (s.hostProgress (.rd (.reg .status))) = _ := busRead_status _
  rw [hostTurn_of_read hl rfl, show targetAddress s.cfg (.reg .status) = s.cfg.base + 0x04 from rfl, hread]
  exact congrArg (fun w => Host.Outcome.next (s.withHost { s.host.nextLine with
    acc := w, reply := .value (s.status.setWidth 64) })) hacc

/-- A host turn at a jump. -/
theorem hostTurn_of_jset {s : State} {mask : Word} {label : Nat}
    (hl : s.host.script[s.host.pc]? = some (.jset mask label)) :
    hostTurn s = jumpIf (s.host.acc &&& mask != 0) label s := by
  rw [hostTurn_of_silent hl rfl]
  rfl

/-- Settles O44: `hostTurn_of_readStatus`, and the two ends of a jump. -/
theorem pollingLines : Obligations.PollingLines := by
  refine ⟨fun s ha hl => ?_, fun s mask label j ha hl hj => ?_⟩
  · rw [step_of_host ha, hostTurn_of_readStatus (s := s.popSched) hl]
    exact ⟨_, rfl, rfl, rfl, rfl, rfl, rfl⟩
  · rw [step_of_host ha, hostTurn_of_jset (s := s.popSched) hl, jumpIf]
    by_cases hz : s.host.acc &&& mask = 0
    · rw [if_neg (by simpa using hz)]
      exact ⟨_, rfl, rfl, rfl, (if_pos hz).symm⟩
    · rw [if_pos (by simpa using hz), popSched_host, hj]
      exact ⟨_, rfl, rfl, rfl, (if_neg hz).symm⟩

/-! ### What steps keep -/

/-- A completion keeps the parameters. -/
theorem exec_pending_cfg {i : Instr} {s t : State} (hp : s.ph = busyPhase i) (h : exec i s = .next t) :
    t.cfg = s.cfg := by
  rcases exec_pending_next hp h with ⟨-, rfl⟩ | ⟨-, rfl⟩ | ⟨-, rfl⟩
  · rfl
  · exact encodeComplete_cfg _ s
  · exact (decodeComplete_unwritten _ s).1

theorem step_cfg {s t : State} (h : step s = .next t) : t.cfg = s.cfg := by
  rcases step_cases h with ⟨-, rfl⟩ | ⟨-, -, rfl⟩ | ⟨-, i, hp, he⟩ | ⟨-, g, he⟩
  · rfl
  · rfl
  · exact exec_pending_cfg (s := s.popSched) hp he
  · exact he.frame.1

/-- Settles O53. -/
theorem stepKeepsParameters : Obligations.StepKeepsParameters := fun _ _ h => step_cfg h

/-- A host effect keeps both buffers canonical: only a write of `IBUF` touches one. -/
theorem HostEffect.keeps_memoryWf {s t : State} {g : HostSide} (e : HostEffect s g t) (h : s.MemoryWf) :
    t.MemoryWf := by
  cases e with
  | input b n v hb => exact ⟨wf_store h.1 _ _, h.2⟩
  | issued i hb =>
    rcases issue_cases i (s.withHost g) with ⟨c, -, -, e⟩ | ⟨-, -, e⟩ <;> rw [e] <;> exact h
  | _ => exact h

/-- A completion keeps both buffers canonical: it stores to `OBUF` alone. -/
theorem exec_pending_memoryWf {i : Instr} {s t : State} (hp : s.ph = busyPhase i) (he : exec i s = .next t)
    (h : s.MemoryWf) : t.MemoryWf := by
  obtain ⟨hibuf, -⟩ := exec_keeps_input he
  refine ⟨hibuf ▸ h.1, ?_⟩
  rcases exec_pending_next hp he with ⟨-, rfl⟩ | ⟨-, rfl⟩ | ⟨-, rfl⟩
  · exact h.2
  · exact encodeComplete_obuf_wf _ h.2
  · exact decodeComplete_obuf_wf _ h.2

/-- Settles O52: by the agent that moves. -/
theorem stepKeepsMemoryCanonical : Obligations.StepKeepsMemoryCanonical := by
  intro s t h hs
  rcases step_cases hs with ⟨-, rfl⟩ | ⟨-, -, rfl⟩ | ⟨-, i, hp, he⟩ | ⟨-, g, he⟩
  · exact ⟨wf_nil, wf_nil⟩
  · exact h
  · exact exec_pending_memoryWf (s := s.popSched) hp he h
  · exact he.keeps_memoryWf h

/-- A completion keeps the key and the seed. -/
theorem exec_pending_locked {i : Instr} {s t : State} (hp : s.ph = busyPhase i) (h : exec i s = .next t) :
    t.key = s.key ∧ t.seed = s.seed := by
  rcases exec_pending_next hp h with ⟨-, rfl⟩ | ⟨-, rfl⟩ | ⟨-, rfl⟩
  · exact ⟨rfl, rfl⟩
  · exact ⟨encodeComplete_key _ s, encodeComplete_seed _ s⟩
  · obtain ⟨-, hkey, -, hseed, -⟩ := decodeComplete_unwritten (applyPrimitive s.cfg.prim) s
    exact ⟨hkey, hseed⟩

/-- Settles O54: a completion writes neither, and a host effect only while UNKEYED. -/
theorem constructionLock : Obligations.ConstructionLock := by
  intro s t hs hne hp
  rcases step_cases hs with ⟨ha, -⟩ | ⟨-, -, rfl⟩ | ⟨-, i, hi, he⟩ | ⟨-, g, he⟩
  · exact absurd ha hne
  · exact ⟨rfl, rfl⟩
  · exact exec_pending_locked (s := s.popSched) hi he
  · exact he.locked.resolve_right hp

/-! ### Which event sets which flag (10_state.md rule R17) -/

/-- A completion raises `REJ` only for DECODE, and leaves `ERR` alone. -/
theorem exec_pending_flags {i : Instr} {s t : State} (hp : s.ph = busyPhase i) (h : exec i s = .next t) :
    (t.rej = true → s.rej = true ∨ s.ph = .busyDec) ∧ t.err = s.err := by
  rcases exec_pending_next hp h with ⟨-, rfl⟩ | ⟨-, rfl⟩ | ⟨hdec, rfl⟩
  · exact ⟨nofun, rfl⟩
  · exact ⟨fun hr => .inl (encodeComplete_rej _ s ▸ hr), encodeComplete_err _ s⟩
  · obtain ⟨-, -, -, -, -, herr, -⟩ := decodeComplete_unwritten (applyPrimitive s.cfg.prim) s
    exact ⟨fun _ => .inr hdec, herr⟩

/-- What a host effect does to the flags: none is raised but `ERR`, while not busy and in place. -/
theorem HostEffect.flags {s t : State} {g : HostSide} (e : HostEffect s g t) :
    (t.done = true → s.done = true) ∧ (t.rej = true → s.rej = true) ∧
      (t.err = s.err ∨ t.err = false ∨ (s.ph.busy = false ∧ t.ph = s.ph)) := by
  cases e with
  | illegal hb => exact ⟨nofun, nofun, .inr (.inr ⟨hb, rfl⟩)⟩
  | issued i hb =>
    rcases issue_cases i (s.withHost g) with ⟨c, -, -, e⟩ | ⟨-, -, e⟩ <;> rw [e]
    · exact ⟨nofun, nofun, .inr (.inr ⟨hb, rfl⟩)⟩
    · exact ⟨nofun, nofun, .inr (.inl rfl)⟩
  | _ => exact ⟨id, id, .inl rfl⟩

/-- Settles O14: a reset clears all three, a completion raises `DONE` and `REJ`, a host effect `ERR`. -/
theorem flagsSetOnlyByTheirEvents : Obligations.FlagsSetOnlyByTheirEvents := by
  intro s t hs
  rcases step_cases hs with ⟨-, rfl⟩ | ⟨-, -, rfl⟩ | ⟨ha, i, hp, he⟩ | ⟨ha, g, he⟩
  · exact ⟨nofun, nofun, nofun⟩
  · refine ⟨?_, ?_, ?_⟩ <;> intro h0 h1 <;> simp [h0] at h1
  · obtain ⟨hrej, herr⟩ := exec_pending_flags (s := s.popSched) hp he
    refine ⟨fun _ _ => ⟨ha, busy_iff.mpr ⟨i, hp⟩⟩, fun h0 h1 => ⟨ha, ?_⟩, fun h0 h1 => ?_⟩
    · exact (hrej h1).resolve_left (by simp [h0])
    · simp [herr, h0] at h1
  · obtain ⟨hdone, hrej, herr⟩ := he.flags
    refine ⟨fun h0 h1 => ?_, fun h0 h1 => ?_, fun h0 h1 => ⟨ha, ?_⟩⟩
    · exact absurd (hdone h1) (by simp [h0])
    · exact absurd (hrej h1) (by simp [h0])
    · rcases herr with e | e | e
      · simp [e, h0] at h1
      · simp [e] at h1
      · exact e

/-! ### No step faults (40_command_issue_and_init.md rule R75) -/

/-- What rule R72 checked at issue lets the pending command complete. -/
theorem exec_pending_completes {i : Instr} {s : State} (h : s.Admitted) (hp : s.ph = busyPhase i) :
    ∃ t, exec i s = .next t ∧ t.ph = .idle ∧ t.done = true := by
  cases i with
  | init => exact ⟨_, exec_init_of_pending hp, rfl, rfl⟩
  | encode => exact ⟨_, (exec_encode_of_pending hp).trans (if_pos (h.encode hp)), encodeComplete_ph _ s, rfl⟩
  | decode =>
    exact ⟨_, (exec_decode_of_pending hp).trans (if_pos (.inr (h.decode hp))), decodeComplete_ph _ s,
      decodeComplete_done _ s⟩

/-- The core's step while busy completes the pending command. -/
theorem step_completes {s : State} (h : s.Admitted) (ha : s.nextAgent = .core) (hb : s.ph.busy = true) :
    ∃ t, step s = .next t ∧ t.ph = .idle ∧ t.done = true := by
  obtain ⟨i, hi⟩ := busy_iff.mp hb
  rw [(stepCompletesPendingCommand s ha).1 i hi]
  exact exec_pending_completes (s := s.popSched) { h with } hi

/-- From a state that admits its pending command a step goes on, or the host's own access or jump is refused. -/
theorem step_next_or_refused {s : State} (h : s.Admitted) :
    (∃ t, step s = .next t) ∨
      (s.nextAgent = .host ∧ ∃ r, step s = .refused r ∧ ((∃ a, r = .outsideWindow a) ∨ ∃ l, r = .noSuchLabel l)) := by
  rcases ha : s.nextAgent with _ | _ | _
  · rw [step_of_host ha]
    rcases hostTurn_cases s.popSched with ⟨g, t, e, -⟩ | ⟨a, e⟩ | ⟨l, e⟩
    · exact .inl ⟨t, e⟩
    · exact .inr ⟨rfl, _, e, .inl ⟨a, rfl⟩⟩
    · exact .inr ⟨rfl, _, e, .inr ⟨l, rfl⟩⟩
  · rcases hb : s.ph.busy with _ | _
    · exact .inl ⟨_, (stepCompletesPendingCommand s ha).2 hb⟩
    · obtain ⟨t, e, -⟩ := step_completes h ha hb
      exact .inl ⟨t, e⟩
  · exact .inl ⟨_, step_of_env ha⟩

/-- Settles O51: `step_next_or_refused` and, for the core, `step_completes`. -/
theorem noStepFaults : Obligations.NoStepFaults := by
  intro s h
  refine ⟨fun f hf => ?_, fun r hr => ?_, step_completes h.admitted⟩
  · rcases step_next_or_refused h.admitted with ⟨t, e⟩ | ⟨-, r, e, -⟩ <;> rw [e] at hf <;> cases hf
  · rcases step_next_or_refused h.admitted with ⟨t, e⟩ | ⟨ha, r', e, hwhy⟩ <;> rw [e] at hr <;> cases hr
    exact ⟨ha, hwhy⟩

/-! ### A pending command completes (00_scope.md rule R6) -/

theorem run_succ_of_refused {s : State} {r : Refusal} (h : step s = .refused r) (k : Nat) :
    Host.Core.run core (k + 1) s = .refused r := by
  have hs : core.step s = .refused r := h
  simp only [Host.Core.run, hs]

/-- A host step while busy leaves the phase alone and uses up the schedule's entry. -/
theorem step_of_host_busy {s t : State} (ha : s.nextAgent = .host) (hb : s.ph.busy = true) (h : step s = .next t) :
    t.ph = s.ph ∧ t.sched = s.sched.tail := by
  rcases step_cases h with ⟨ha', -⟩ | ⟨ha', -⟩ | ⟨ha', -⟩ | ⟨-, g, he⟩
  · simp [ha] at ha'
  · simp [ha] at ha'
  · simp [ha] at ha'
  · obtain ⟨-, -, -, -, -, hsched, -⟩ := he.frame
    refine ⟨he.phase.resolve_right ?_, hsched⟩
    rintro ⟨i, hi, -⟩
    rw [show s.ph = issuePhase i from hi, issuePhase_busy] at hb
    cases hb

/-- Settles O48, by induction on the host's turns: each leaves the command pending or is refused. -/
theorem pendingCommandCompletes : Obligations.PendingCommandCompletes := by
  intro s n h hb hsched
  induction n generalizing s with
  | zero =>
    have ha : s.nextAgent = .core := by simp [State.nextAgent, hsched, hb]
    obtain ⟨t, e, hdone⟩ := step_completes h.admitted ha hb
    exact .inl ⟨t, run_succ_of_next e 0, hdone⟩
  | succ n ih =>
    have ha : s.nextAgent = .host := by simp [State.nextAgent, hsched, List.replicate_succ]
    rcases step_next_or_refused h.admitted with ⟨t, e⟩ | ⟨-, r, e, -⟩
    · obtain ⟨hph, htail⟩ := step_of_host_busy ha hb e
      rw [run_succ_of_next e]
      exact ih t (inv_step h e) (hph ▸ hb) (by rw [htail, hsched, List.replicate_succ, List.tail_cons])
    · exact .inr ⟨r, run_succ_of_refused e _⟩

end Sys2Proof.Machine

namespace Sys2Proof.Machine

/-! ### What writes `CTR` (10_state.md rule R11) -/

/-- What the next step makes of `CTR`: reset clears it, an INIT's completion loads it, an ENCODE's advances it. -/
def State.nextCtr (s : State) : DWord :=
  match s.nextAgent, s.ph with
  | .env, _ => 0
  | .core, .busyInit => s.seed
  | .core, .busyEnc => maskCounter s.ctr + BitVec.ofNat 64 (encBlocks s)
  | _, _ => s.ctr

theorem step_ctr {s t : State} (h : step s = .next t) : t.ctr = s.nextCtr := by
  rcases step_cases h with ⟨ha, rfl⟩ | ⟨ha, hb, rfl⟩ | ⟨ha, i, hi, he⟩ | ⟨ha, g, he⟩ <;>
    simp only [State.nextCtr, ha]
  · rfl
  · rcases not_busy_iff.mp hb with hp | hp <;> rw [hp] <;> rfl
  · rcases exec_pending_next (s := s.popSched) hi he with ⟨hp, rfl⟩ | ⟨hp, rfl⟩ | ⟨hp, rfl⟩ <;>
      rw [show s.ph = _ from hp]
    · rfl
    · exact encodeComplete_ctr _ s.popSched
    · exact (decodeComplete_unwritten _ s.popSched).2.2.1
  · exact he.frame.2.1

/-- Settles O55: `step_ctr`, case by case. -/
theorem counterWriters : Obligations.CounterWriters := by
  intro s t h
  rw [step_ctr h]
  unfold State.nextCtr
  split
  next ha => exact .inr (.inl ha)
  next ha hp => exact .inr (.inr (.inl ⟨ha, hp, rfl⟩))
  next ha hp => exact .inr (.inr (.inr ⟨ha, hp, rfl⟩))
  next => exact .inl rfl

/-! ### The counter modulo 2^61 along a run (42_encode.md rule R97) -/

/-- A masked counter advanced `n` times is the counter advanced `n` times, modulo 2^61. -/
theorem maskCounter_add_mod (c : DWord) (n : Nat) :
    (maskCounter c + BitVec.ofNat 64 n).toNat % 2 ^ 61 = (c.toNat + n) % 2 ^ 61 := by
  rw [BitVec.toNat_add, maskCounter_toNat, BitVec.toNat_ofNat]
  omega

/-- The working counter of block `i`, modulo 2^61. -/
theorem encLoop_wc_mod (h : BlockFn) (i : Nat) (s : State) :
    (repeatBlocks (encBlock h) i (encStart s)).wc.toNat % 2 ^ 61 = (s.ctr.toNat + i) % 2 ^ 61 := by
  rw [encLoop_wc, encStart_wc, maskCounter_add_mod]

/-- While keyed, a step that is no reset advances the counter by the blocks it encodes, modulo 2^61. -/
theorem step_ctr_mod {s t : State} (hk : s.ph.keyed = true) (hr : s.resetsNow = false) (h : step s = .next t) :
    t.ctr.toNat % 2 ^ 61 = (s.ctr.toNat + s.blocksNow) % 2 ^ 61 := by
  rw [step_ctr h]
  unfold State.nextCtr State.blocksNow
  split
  next ha => simp [State.resetsNow, ha] at hr
  next hp => simp [hp, Phase.keyed] at hk
  next ha hp => rw [if_pos ⟨ha, hp⟩, maskCounter_add_mod]
  next hne => rw [if_neg (fun hboth => hne hboth.1 hboth.2), Nat.add_zero]

/-- From a keyed state, along a run without a reset: the machine stays keyed, and the counter has advanced by the blocks
encoded, modulo 2^61. -/
theorem run_ctr_mod {k : Nat} {s t : State} (hk : s.ph.keyed = true) (hn : noResetAlong k s)
    (h : Host.Core.run core k s = .next t) :
    t.ph.keyed = true ∧ t.ctr.toNat % 2 ^ 61 = (s.ctr.toNat + blocksAlong k s) % 2 ^ 61 := by
  induction k generalizing s with
  | zero =>
    cases h
    exact ⟨hk, rfl⟩
  | succ k ih =>
    obtain ⟨u, hu, hrun⟩ := run_succ_next h
    obtain ⟨hn1, hn2⟩ := (noResetAlong_succ hu k).mp hn
    obtain ⟨hkeyed, hctr⟩ := ih (keyed_step hk hn1 hu).1 hn2 hrun
    have hstep := step_ctr_mod hk hn1 hu
    refine ⟨hkeyed, ?_⟩
    rw [hctr, blocksAlong_succ hu]
    omega

/-- Settles O24: the congruence by `run_ctr_mod`; numbers that differ by less than 2^61 are not congruent. -/
theorem counterNeverReused : Obligations.CounterNeverReused := by
  intro h s hk
  have hwc : ∀ (k i : Nat) (t : State), noResetAlong k s → Host.Core.run core k s = .next t →
      (repeatBlocks (encBlock h) i (encStart t)).wc.toNat % 2 ^ 61 =
        (s.ctr.toNat + blocksAlong k s + i) % 2 ^ 61 := by
    intro k i t hn hrun
    obtain ⟨-, hctr⟩ := run_ctr_mod hk hn hrun
    rw [encLoop_wc_mod, Nat.add_mod, hctr, ← Nat.add_mod]
  refine ⟨fun k i t hn hrun _ _ => hwc k i t hn hrun, ?_⟩
  intro k i k' i' t t' hn hrun _ _ hn' hrun' _ _ hlt hclose heq
  have hsame := (hwc k i t hn hrun).symm.trans ((congrArg (fun w => w.toNat % 2 ^ 61) heq).trans (hwc k' i' t' hn' hrun'))
  omega

/-! ### The counter since INIT (70_reset_and_hazards.md rule R158) -/

/-- What a count of the blocks since INIT says of the state it ends in. -/
def State.Counted (s : State) (count : Option Nat) : Prop :=
  ∀ n, count = some n → s.ph.keyed = true ∧ s.ctr.toNat % 2 ^ 61 = (s.seed.toNat % 2 ^ 61 + n) % 2 ^ 61

/-- Without a reset and with no INIT completing, a step adds the blocks it encodes. -/
theorem countNow_eq_map {s : State} (hr : s.resetsNow = false) (hp : ¬ (s.nextAgent = .core ∧ s.ph = .busyInit))
    (count : Option Nat) : s.countNow count = count.map (· + s.blocksNow) := by
  unfold State.countNow State.blocksNow
  rcases ha : s.nextAgent with _ | _ | _
  · simp
  · have hne : s.ph ≠ .busyInit := fun h => hp ⟨ha, h⟩
    simp [hne]
  · simp [State.resetsNow, ha] at hr

/-- Every step keeps the count right: INIT's completion starts it at `CTR = SEED`, then only ENCODE advances `CTR`. -/
theorem counted_step {s t : State} {count : Option Nat} (hc : s.Counted count) (h : step s = .next t) :
    t.Counted (s.countNow count) := by
  intro n hn
  rcases hr : s.resetsNow with _ | _
  · by_cases hinit : s.nextAgent = .core ∧ s.ph = .busyInit
    · obtain ⟨ha, hp⟩ := hinit
      rw [(stepCompletesPendingCommand s ha).1 .init hp, exec_init_of_pending (s := s.popSched) hp] at h
      obtain rfl := Host.Outcome.next.inj h
      obtain rfl : 0 = n := by simpa [State.countNow, ha, hp] using hn
      exact ⟨rfl, by simp⟩
    · rw [countNow_eq_map hr hinit] at hn
      obtain ⟨m, hm, rfl⟩ := Option.map_eq_some_iff.mp hn
      obtain ⟨hk, hctr⟩ := hc m hm
      obtain ⟨hk', -, hseed⟩ := keyed_step hk hr h
      have hstep := step_ctr_mod hk hr h
      refine ⟨hk', ?_⟩
      rw [hseed]
      omega
  · have ha : s.nextAgent = .env := by simpa [State.resetsNow] using hr
    simp [State.countNow, ha] at hn

theorem counted_run {k : Nat} {s t : State} {count : Option Nat} (hc : s.Counted count)
    (h : Host.Core.run core k s = .next t) : t.Counted (countAlong count k s) := by
  induction k generalizing s count with
  | zero =>
    cases h
    exact hc
  | succ k ih =>
    obtain ⟨u, hu, hrun⟩ := run_succ_next h
    rw [countAlong_succ hu]
    exact ih (counted_step hc hu) hrun

/-- Settles O58: a run that has counted nothing yet says nothing of its start; the end is `counted_run`. -/
theorem counterFollowsSeed : Obligations.CounterFollowsSeed := by
  intro k n s t hrun hcount
  obtain ⟨hk, hctr⟩ := counted_run (s := s) (count := none) nofun hrun n hcount
  refine ⟨hk, hctr, fun h i _ _ => ?_⟩
  rw [encLoop_wc_mod, Nat.add_mod, hctr, ← Nat.add_mod]

/-- The blocks of a run's keyed end without a reset, its last step an ENCODE's completion, are among those since INIT. -/
theorem blocks_le_blocksSinceInit {k j n : Nat} {s t t' : State} (hrun : Host.Core.run core k s = .next t)
    (hk : t.ph.keyed = true) (hn : noResetAlong j t) (hrun' : Host.Core.run core j t = .next t')
    (ha : t'.nextAgent = .core) (hp : t'.ph = .busyEnc) (hcount : blocksSinceInit (k + j + 1) s = some n) :
    blocksAlong j t + encBlocks t' ≤ n := by
  have hlast : countAlong (countAlong (countAlong none k s) j t) 1 t' = some n := by
    rw [← countAlong_add hrun', ← countAlong_add hrun, ← Nat.add_assoc]
    exact hcount
  have hblocks : t'.blocksNow = encBlocks t' := if_pos ⟨ha, hp⟩
  have hnow : t'.countNow (countAlong (countAlong none k s) j t) = some n := by
    unfold countAlong at hlast
    split at hlast
    · exact hlast
    · cases hlast
    · cases hlast
  rw [countAlong_of_keyed hk hn hrun', countNow_eq_map (by simp [State.resetsNow, ha]) (by simp [hp]), hblocks,
    Option.map_map] at hnow
  obtain ⟨m, -, rfl⟩ := Option.map_eq_some_iff.mp hnow
  simp only [Function.comp_apply]
  omega

/-- Settles O59: the blocks between the two are fewer than those since INIT, so fewer than `2^61` (O24). -/
theorem freshCountersDiffer : Obligations.FreshCountersDiffer := by
  intro h bound k j i i' s t t' hrun hp hi hn hrun' hp' ha' hi' hlt hfresh
  obtain ⟨hbound, n, hcount, hn_lt⟩ := hfresh
  have hk : t.ph.keyed = true := by rw [hp]; rfl
  have htotal : blocksAlong j t + encBlocks t' ≤ n :=
    blocks_le_blocksSinceInit hrun hk hn hrun' ha' hp' hcount
  refine (counterNeverReused h t hk).2 0 i j i' t t' trivial rfl hp hi hn hrun' hp' hi' ?_ ?_
  · simpa [blocksAlong] using hlt
  · simp only [blocksAlong]
    omega

end Sys2Proof.Machine

namespace Sys2Proof.Machine

/-! ### Accesses outside the window, and accesses made twice (20_memory.md rules R35, R43) -/

/-- Settles O41: such an access is row 1's. -/
theorem outsideWindowRefused : Obligations.OutsideWindowRefused := by
  intro s a n v h
  have hout : ∀ r, classify s r a n = .outside := fun r => if_pos (by omega)
  exact ⟨if_pos (hout true), by simp only [busWrite, hout]⟩

/-- An access is classified by the parameters and the phase alone. -/
theorem classify_congr {s t : State} (hcfg : s.cfg = t.cfg) (hph : s.ph = t.ph) (r : Bool) (a : Nat) (n : Width) :
    classify s r a n = classify t r a n := by
  simp only [classify, hcfg, hph]

/-- A read's answer does not depend on the last answer. -/
theorem readReply_answer (s : State) (r : BusReply) (n : Width) (g : Region) :
    readReply (s.answer r) n g = readReply s n g := by
  cases g <;> rfl

theorem busRead_again {s t : State} {a : Nat} {n : Width} (h : busRead a n s = .next t) :
    busRead a n t = .next t := by
  have hin : classify s true a n ≠ .outside := fun hout => by simp [busRead, hout] at h
  obtain rfl := busRead_next h
  have hsame : classify (s.answer (readReply s n (classify s true a n))) true a n = classify s true a n :=
    classify_congr rfl rfl true a n
  rw [busRead_of_region hsame hin, readReply_answer]
  rfl

@[simp] theorem setKeyWord_setKeyWord (k : Key) (j : Fin 4) (v : Word) :
    setKeyWord (setKeyWord k j v) j v = setKeyWord k j v := by
  unfold setKeyWord
  split_ifs <;> rfl

@[simp] theorem setSeedLow_setSeedLow (seed : DWord) (v : Word) :
    setSeedLow (setSeedLow seed v) v = setSeedLow seed v := by
  simp [setSeedLow]

@[simp] theorem setSeedHigh_setSeedHigh (seed : DWord) (v : Word) :
    setSeedHigh (setSeedHigh seed v) v = setSeedHigh seed v := by
  simp [setSeedHigh]

/-- A register write other than to `CMD`, made twice, is the write made once; it leaves the parameters and the phase. -/
theorem writeReg_again {s t : State} {o : Nat} {v : Word} (ho : o ≠ 0) (h : writeReg s o v = .next t) :
    writeReg t o v = .next t ∧ t.cfg = s.cfg ∧ t.ph = s.ph := by
  rcases hr : Reg.ofOffset o with _ | r <;> simp only [writeReg, hr] at h ⊢
  · cases h
    exact ⟨rfl, rfl, rfl⟩
  · cases r with
    | cmd => exact absurd (Reg.ofOffset_cmd hr) ho
    | status | olen | ilen =>
      cases h
      exact ⟨rfl, rfl, rfl⟩
    | key | seedl | seedh =>
      split_ifs at h with hp <;> cases h
      · exact ⟨by simp [hp, State.answer], rfl, rfl⟩
      · exact ⟨if_neg hp, rfl, rfl⟩

/-- A write that reaches `CMD` is at `BASE`. -/
theorem classify_register_pos {s : State} {r : Bool} {a o : Nat} {n : Width} (ha : a ≠ s.cfg.base)
    (hc : classify s r a n = .register o) : o ≠ 0 := by
  unfold classify regionAt at hc
  split_ifs at hc
  simp only [Region.register.injEq] at hc
  omega

theorem busWrite_again {s t : State} {a : Nat} {n : Width} {v : DWord} (ha : a ≠ s.cfg.base)
    (h : busWrite a n v s = .next t) : busWrite a n v t = .next t := by
  rcases hc : classify s false a n with _ | _ | o | b | b
  · simp [busWrite, hc] at h
  · rw [busWrite_of_error hc] at h
    cases h
    exact busWrite_of_error hc
  · by_cases h4 : n = .four
    · rw [busWrite_register hc h4] at h
      obtain ⟨hagain, hcfg, hph⟩ := writeReg_again (classify_register_pos ha hc) h
      rw [busWrite_register ((classify_congr hcfg hph false a n).trans hc) h4, hagain]
    · rw [busWrite_register_unserved hc (.inl h4)] at h
      cases h
      exact busWrite_register_unserved hc (.inl h4)
  · rw [busWrite_of_input hc] at h
    cases h
    rw [busWrite_of_input (b := b) (by exact hc)]
    simp [store_store, State.answer]
  · rw [busWrite_of_output hc] at h
    cases h
    exact busWrite_of_output hc

/-- Settles O40: `busRead_next` and `busRead_again`; `busWrite_again`. -/
theorem readsPureWritesIdempotent : Obligations.ReadsPureWritesIdempotent := by
  refine ⟨fun s t a n h => ⟨?_, busRead_again h⟩, fun s t a n v ha h => busWrite_again ha h⟩
  obtain rfl := busRead_next h
  rfl

/-! ### What a host cannot tell apart (10_state.md rule R29) -/

namespace State.PublicEq

variable {s t : State}

theorem cfg (h : s.PublicEq t) : s.cfg = t.cfg := h.1

theorem ph (h : s.PublicEq t) : s.ph = t.ph := by
  obtain ⟨-, -, -, e, -⟩ := h
  exact e

theorem host (h : s.PublicEq t) : s.host = t.host := by
  obtain ⟨-, -, -, -, -, -, -, -, -, -, -, e, -⟩ := h
  exact e

theorem sched (h : s.PublicEq t) : s.sched = t.sched := by
  obtain ⟨-, -, -, -, -, -, -, -, -, -, e, -⟩ := h
  exact e

theorem gatedByte (h : s.PublicEq t) : s.gatedByte = t.gatedByte := by
  obtain ⟨-, -, -, -, -, -, -, -, -, -, -, -, e⟩ := h
  exact funext e

theorem ibufByte (h : s.PublicEq t) : s.ibufByte = t.ibufByte := by
  obtain ⟨-, -, -, -, -, -, -, -, ei, ee, -⟩ := h
  exact funext (ibufByte_congr ei ee)

/-- The registers a host can read. -/
theorem registers (h : s.PublicEq t) : s.status = t.status ∧ s.ilen = t.ilen ∧ s.olen = t.olen := by
  obtain ⟨-, hilen, holen, hph, hdone, hrej, herr, hecode, -⟩ := h
  exact ⟨by simp only [State.status, hph, hdone, hrej, herr, hecode], hilen, holen⟩

/-- The secrets may change on either side. -/
theorem withKey (h : s.PublicEq t) (k k' : Key) : PublicEq { s with key := k } { t with key := k' } := h

theorem withSeed (h : s.PublicEq t) (x x' : DWord) : PublicEq { s with seed := x } { t with seed := x' } := h

theorem withHost (h : s.PublicEq t) (g : HostSide) : (s.withHost g).PublicEq (t.withHost g) := by
  obtain ⟨e1, e2, e3, e4, e5, e6, e7, e8, e9, e10, e11, -, e13⟩ := h
  exact ⟨e1, e2, e3, e4, e5, e6, e7, e8, e9, e10, e11, rfl, e13⟩

theorem withIlen (h : s.PublicEq t) (v : Word) : PublicEq { s with ilen := v } { t with ilen := v } := by
  obtain ⟨e1, -, rest⟩ := h
  exact ⟨e1, rfl, rest⟩

theorem withStore (h : s.PublicEq t) (b : Nat) (vs : List Byte) :
    PublicEq { s with ibuf := s.ibuf.store b vs } { t with ibuf := t.ibuf.store b vs } := by
  obtain ⟨e1, e2, e3, e4, e5, e6, e7, e8, e9, rest⟩ := h
  exact ⟨e1, e2, e3, e4, e5, e6, e7, e8, by rw [e9], rest⟩

theorem popSched (h : s.PublicEq t) : s.popSched.PublicEq t.popSched := by
  obtain ⟨e1, e2, e3, e4, e5, e6, e7, e8, e9, e10, e11, rest⟩ := h
  exact ⟨e1, e2, e3, e4, e5, e6, e7, e8, e9, e10, congrArg List.tail e11, rest⟩

theorem answer (h : s.PublicEq t) (r : BusReply) : (s.answer r).PublicEq (t.answer r) := by
  have hhost := h.withHost { s.host with reply := r }
  rw [State.answer, State.answer, ← h.host]
  exact hhost

theorem hostProgress (h : s.PublicEq t) (l : Line) : (s.hostProgress l).PublicEq (t.hostProgress l) := by
  have hhost := h.withHost (s.host.progress l)
  rw [State.hostProgress, State.hostProgress, ← h.host]
  exact hhost

theorem captureReply (h : s.PublicEq t) (l : Line) : (captureReply l s).PublicEq (captureReply l t) := by
  have hhost := h.withHost (s.host.capture l)
  rw [Machine.captureReply, Machine.captureReply, ← h.host]
  exact hhost

theorem raiseCmdError (h : s.PublicEq t) (c : BitVec 4) : (s.raiseCmdError c).PublicEq (t.raiseCmdError c) := by
  obtain ⟨e1, e2, e3, e4, -, -, -, -, rest⟩ := h
  exact ⟨e1, e2, e3, e4, rfl, rfl, rfl, rfl, rest⟩

theorem accept (h : s.PublicEq t) (p : Phase) :
    PublicEq { s.clearFlags with ph := p } { t.clearFlags with ph := p } := by
  obtain ⟨e1, e2, e3, -, -, -, -, -, rest⟩ := h
  exact ⟨e1, e2, e3, rfl, rfl, rfl, rfl, rfl, rest⟩

/-- An issue attempt looks at the parameters, the phase and `ILEN` alone. -/
theorem issue (h : s.PublicEq t) (i : Instr) : (issue i s).PublicEq (issue i t) := by
  obtain ⟨-, hilen, -⟩ := h.registers
  have hlen : lengthRefused s i = lengthRefused t i := by
    simp only [lengthRefused, h.cfg, hilen]
  simp only [issue_eq_chain, h.ph, hlen]
  split_ifs
  · exact h.raiseCmdError eState
  · exact h.raiseCmdError eLen
  · exact h.accept (busyPhase i)

theorem classify (h : s.PublicEq t) (r : Bool) (a : Nat) (n : Width) :
    classify s r a n = classify t r a n := classify_congr h.cfg h.ph r a n

/-- A read's answer shows the view, the lengths, `IBUF` and the gated bytes alone. -/
theorem readReply (h : s.PublicEq t) (n : Width) (g : Region) : readReply s n g = readReply t n g := by
  cases g with
  | register o =>
    obtain ⟨hstatus, hilen, holen⟩ := h.registers
    simp only [Machine.readReply, readReg_eq_chain, hstatus, hilen, holen]
  | input b => simp only [Machine.readReply, h.ibufByte]
  | output b => simp only [Machine.readReply, h.gatedByte]
  | _ => rfl

/-- A read of either machine ends in the same way, with the same answer. -/
theorem busRead (h : s.PublicEq t) (a : Nat) (n : Width) :
    OutcomeRel PublicEq (busRead a n s) (busRead a n t) := by
  unfold Machine.busRead
  rw [h.classify, h.readReply]
  split_ifs
  · rfl
  · exact h.answer _

/-- An issue attempt with a word while not busy. -/
theorem issueWord (h : s.PublicEq t) (hb : s.ph.busy = false) (w : Word) :
    OutcomeRel PublicEq (issueWord w s) (issueWord w t) := by
  unfold Machine.issueWord
  rcases decode w with e | i
  · exact h.raiseCmdError eOpcode
  · simp only [exec_of_not_busy hb, exec_of_not_busy (h.ph ▸ hb)]
    exact h.issue i

theorem writeReg (h : s.PublicEq t) (hb : s.ph.busy = false) (o : Nat) (v : Word) :
    OutcomeRel PublicEq (writeReg s o v) (writeReg t o v) := by
  have hack := h.answer .ack
  have hbus : OutcomeRel PublicEq (.next s.raiseBusError) (.next t.raiseBusError) := h.answer .busError
  rcases hr : Reg.ofOffset o with _ | r <;> simp only [Machine.writeReg, hr]
  · exact hbus
  · cases r with
    | cmd => exact hack.issueWord hb v
    | ilen => exact hack.withIlen v
    | status | olen => exact hbus
    | key j =>
      rw [h.ph]
      split_ifs
      · exact hack.withKey _ _
      · exact hbus
    | seedl | seedh =>
      rw [h.ph]
      split_ifs
      · exact hack.withSeed _ _
      · exact hbus

theorem busWrite (h : s.PublicEq t) (a : Nat) (n : Width) (v : DWord) :
    OutcomeRel PublicEq (busWrite a n v s) (busWrite a n v t) := by
  have hbus : OutcomeRel PublicEq (.next s.raiseBusError) (.next t.raiseBusError) := h.answer .busError
  unfold Machine.busWrite
  rw [h.classify]
  rcases hc : Machine.classify t false a n with _ | _ | o | b | b
  · rfl
  · exact hbus
  · have hb : s.ph.busy = false := by
      rw [h.ph]
      by_contra hbusy
      rcases classify_write_of_busy (by simpa using hbusy) a n with e | e <;> rw [hc] at e <;> cases e
    by_cases h4 : n = .four
    · simp only [if_pos h4]
      exact h.writeReg hb o _
    · simp only [if_neg h4]
      exact hbus
  · exact (h.answer .ack).withStore b _
  · exact hbus

theorem jumpIf (h : s.PublicEq t) (taken : Bool) (label : Nat) :
    OutcomeRel PublicEq (jumpIf taken label s) (jumpIf taken label t) := by
  unfold Machine.jumpIf
  rw [h.host]
  cases taken with
  | true =>
    rcases findLabel label t.host.script with _ | i
    · rfl
    · exact h.withHost _
  | false => exact h.withHost _

theorem silentLine (h : s.PublicEq t) (l : Line) : OutcomeRel PublicEq (silentLine l s) (silentLine l t) := by
  unfold Machine.silentLine
  split
  · rw [h.host]
    exact h.jumpIf _ _
  · rw [h.host]
    exact h.jumpIf _ _
  · exact h
  · rw [h.host]
    exact h.withHost _

/-- A read's answer reaches both hosts. -/
theorem onNext_captureReply {x y : Host.Outcome State Fault Refusal} (h : OutcomeRel PublicEq x y) (l : Line) :
    OutcomeRel PublicEq (onNext (Machine.captureReply l) x) (onNext (Machine.captureReply l) y) := by
  cases x with
  | next s =>
    cases y with
    | next t => exact captureReply h l
    | fault | refused => exact h
  | fault | refused => cases y <;> exact h

/-- A host turn of either machine makes the same access and ends in the same way. -/
theorem hostTurn (h : s.PublicEq t) : OutcomeRel PublicEq (hostTurn s) (hostTurn t) := by
  unfold Machine.hostTurn
  rw [h.cfg, h.host]
  rcases t.host.script[t.host.pc]? with _ | l
  · exact h
  · simp only
    rcases lineAccess t.cfg t.host l with _ | ⟨a, n⟩ | ⟨a, n, v⟩
    · exact h.silentLine l
    · exact onNext_captureReply ((h.hostProgress l).busRead a n) l
    · exact (h.hostProgress l).busWrite a n v

end State.PublicEq

/-- Settles O56: the schedules agree, so the host moves in both machines, and its turn is `State.PublicEq.hostTurn`. -/
theorem hostStepsRevealNoSecret : Obligations.HostStepsRevealNoSecret := by
  intro s t h ha
  have ha' : t.nextAgent = .host := by rwa [State.nextAgent, ← h.sched, ← h.ph]
  rw [step_of_host ha, step_of_host ha']
  exact h.popSched.hostTurn

end Sys2Proof.Machine

namespace Sys2Proof.Machine

/-! ### Host steps in the default order (00_scope.md rule R6) -/

theorem nextAgent_of_not_busy {s : State} (hsched : s.sched = []) (hb : s.ph.busy = false) : s.nextAgent = .host := by
  simp [State.nextAgent, hsched, hb]

theorem popSched_of_nil {s : State} (hsched : s.sched = []) : s.popSched = s := by
  rw [State.popSched, hsched, List.tail_nil, ← hsched]

/-- Not busy and without a schedule, a step is the host's turn. -/
theorem step_of_not_busy {s : State} (hsched : s.sched = []) (hb : s.ph.busy = false) : step s = hostTurn s := by
  rw [step_of_host (nextAgent_of_not_busy hsched hb), popSched_of_nil hsched]

@[simp] theorem withHost_host (s : State) (g : HostSide) : (s.withHost g).host = g := rfl

@[simp] theorem withHost_gatedByte (s : State) (g : HostSide) : (s.withHost g).gatedByte = s.gatedByte := rfl

/-! ### The byte lines (30_encoding.md rule R64) -/

/-- The host past the access of a byte line: at the next byte, or at the next line. -/
theorem progress_wrb (h : HostSide) (k : Nat) (bytes : List Byte) :
    h.progress (.wrb k bytes) = if h.sub + 1 < bytes.length then { h with sub := h.sub + 1 } else h.nextLine := rfl

theorem store_byte (m : Memory) (a : Nat) (b : Byte) : m.store a (leBytes 1 (b.setWidth 64)) = m.set a b := by
  have hb : (b.setWidth 64).setWidth 8 = b := by
    rw [BitVec.setWidth_setWidth_of_le _ (by decide), BitVec.setWidth_eq]
  simp [leBytes, Memory.store, hb]

/-- One byte of a `WRB` line. -/
theorem step_of_wrb {s : State} {k : Nat} {bytes : List Byte} {b : Byte} (hwf : s.cfg.wf = true)
    (hb : s.ph.busy = false) (hsched : s.sched = []) (hl : s.host.script[s.host.pc]? = some (.wrb k bytes))
    (hfit : k + bytes.length ≤ s.cfg.bufsz) (hbyte : bytes[s.host.sub]? = some b) :
    step s = .next { s with
      ibuf := s.ibuf.set (k + s.host.sub) b
      host := { s.host.progress (.wrb k bytes) with reply := .ack } } := by
  have hsub : s.host.sub < bytes.length := (List.getElem?_eq_some_iff.mp hbyte).1
  have hacc : lineAccess s.cfg s.host (.wrb k bytes) =
      some (.write (s.cfg.base + 0x10000 + (k + s.host.sub)) .one (b.setWidth 64)) := by
    simp [lineAccess, hbyte, ibufAddress]
  have hreach : classify (s.hostProgress (.wrb k bytes)) false (s.cfg.base + 0x10000 + (k + s.host.sub)) .one =
      .input (k + s.host.sub) :=
    classify_input (s := s.hostProgress _) hwf hb (by simp only [hostProgress_cfg, Width.bytes]; omega)
      (Nat.mod_one _) false
  rw [step_of_not_busy hsched hb, hostTurn_of_write hl hacc, busWrite_of_input hreach, Width.bytes, store_byte]
  rfl

/-- The bytes of a `WRB` line from the one in hand on. -/
theorem run_of_wrb {s : State} {k : Nat} {bytes rest : List Byte} (hwf : s.cfg.wf = true)
    (hb : s.ph.busy = false) (hsched : s.sched = []) (hl : s.host.script[s.host.pc]? = some (.wrb k bytes))
    (hfit : k + bytes.length ≤ s.cfg.bufsz) (hrest : bytes.drop s.host.sub = rest) (hne : rest ≠ []) :
    Host.Core.run core rest.length s = .next { s with
      ibuf := s.ibuf.store (k + s.host.sub) rest
      host := { s.host.nextLine with reply := .ack } } := by
  induction rest generalizing s with
  | nil => exact absurd rfl hne
  | cons b rest ih =>
    have hlen : bytes.length = s.host.sub + (rest.length + 1) := by
      have hdrop := congrArg List.length hrest
      simp only [List.length_drop, List.length_cons] at hdrop
      omega
    have hbyte : bytes[s.host.sub]? = some b := by
      rw [← List.head?_drop, hrest, List.head?_cons]
    have htail : bytes.drop (s.host.sub + 1) = rest := by
      rw [← List.tail_drop, hrest, List.tail_cons]
    rw [List.length_cons, run_succ_of_next (step_of_wrb hwf hb hsched hl hfit hbyte), progress_wrb]
    rcases rest with _ | ⟨b', rest⟩
    · rw [if_neg (by simp only [List.length_nil] at hlen; omega)]
      rfl
    · rw [if_pos (by simp only [List.length_cons] at hlen; omega)]
      exact ih (s := { s with
        ibuf := s.ibuf.set (k + s.host.sub) b
        host := { s.host with sub := s.host.sub + 1, reply := .ack } }) hwf hb hsched hl hfit htail (by simp)

/-- Settles O45: `run_of_wrb` from the first byte on, and the reads after its store. -/
theorem writeBytesLine : Obligations.WriteBytesLine := by
  intro s k bytes hb hsched hsub hl hne hfit hwf
  have hrun := run_of_wrb hwf hb hsched hl hfit (by rw [hsub, List.drop_zero]) hne
  have hline : s.host.nextLine = { s.host with pc := s.host.pc + 1 } := by rw [HostSide.nextLine, ← hsub]
  rw [hsub, Nat.add_zero, hline] at hrun
  refine ⟨_, hrun, rfl, fun i hi => ?_, fun a ha => ?_⟩
  · simp [State.ibufByte, get?_store_inside (show k ≤ k + i by omega) (show k + i < k + bytes.length by omega), hi]
  · simp [State.ibufByte, get?_store_outside ha]

theorem progress_rdb (h : HostSide) (k : Nat) (j : Count) :
    h.progress (.rdb k j) =
      if h.sub + 1 < countValue h j then { h.startLine (.rdb k j) with sub := h.sub + 1 }
      else (h.startLine (.rdb k j)).nextLine := rfl

@[simp] theorem progress_got (h : HostSide) (l : Line) : (h.progress l).got = (h.startLine l).got := by
  unfold HostSide.progress
  split_ifs <;> rfl

/-- Starting a line empties `got` at most. -/
theorem startLine_eq (h : HostSide) (l : Line) : h.startLine l = { h with got := (h.startLine l).got } := by
  unfold HostSide.startLine
  split <;> (try split) <;> rfl

theorem startLine_of_sub_pos {h : HostSide} (hs : 0 < h.sub) (l : Line) : h.startLine l = h := by
  unfold HostSide.startLine
  split
  · exact if_neg (by omega)
  · rfl

/-- One byte of an `RDB` line, shown through the gate. -/
theorem step_of_rdb {s : State} {k : Nat} {j : Count} (hwf : s.cfg.wf = true)
    (hb : s.ph.busy = false) (hsched : s.sched = []) (hl : s.host.script[s.host.pc]? = some (.rdb k j))
    (hfit : k + countValue s.host j ≤ s.cfg.bufsz) (hsub : s.host.sub < countValue s.host j) :
    step s = .next (s.withHost { s.host.progress (.rdb k j) with
      got := (s.host.startLine (.rdb k j)).got ++ [s.gatedByte (k + s.host.sub)]
      reply := .value (readBytes s.gatedByte (k + s.host.sub) 1) }) := by
  have hacc : lineAccess s.cfg s.host (.rdb k j) =
      some (.read (s.cfg.base + 0x20000 + (k + s.host.sub)) .one) := if_pos hsub
  have hreach : classify (s.hostProgress (.rdb k j)) true (s.cfg.base + 0x20000 + (k + s.host.sub)) .one =
      .output (k + s.host.sub) :=
    classify_output (s := s.hostProgress _) hwf hb (by simp only [hostProgress_cfg, Width.bytes]; omega)
      (Nat.mod_one _) true
  have hbyte : (readBytes s.gatedByte (k + s.host.sub) 1).setWidth 8 = s.gatedByte (k + s.host.sub) := by
    simp [readBytes, leValue]
  rw [step_of_not_busy hsched hb, hostTurn_of_read hl hacc, busRead_of_region hreach nofun, ← hbyte,
    ← progress_got]
  rfl

/-- The bytes of an `RDB` line from the one in hand on, `n` of them. -/
theorem run_of_rdb {s : State} {k n : Nat} {j : Count} (hwf : s.cfg.wf = true)
    (hb : s.ph.busy = false) (hsched : s.sched = []) (hl : s.host.script[s.host.pc]? = some (.rdb k j))
    (hfit : k + countValue s.host j ≤ s.cfg.bufsz) (hn : s.host.sub + (n + 1) = countValue s.host j) :
    ∃ g, Host.Core.run core (n + 1) s = .next (s.withHost g) ∧
      g.got = (s.host.startLine (.rdb k j)).got ++
        (List.range (n + 1)).map (fun i => s.gatedByte (k + s.host.sub + i)) ∧
      g.acc = s.host.acc ∧ g.pc = s.host.pc + 1 ∧ g.sub = 0 := by
  induction n generalizing s with
  | zero =>
    have hstep := step_of_rdb hwf hb hsched hl hfit (by omega)
    rw [progress_rdb, if_neg (by omega), startLine_eq] at hstep
    exact ⟨_, run_succ_of_next hstep 0, by simp, rfl, rfl, rfl⟩
  | succ n ih =>
    have hstep := step_of_rdb hwf hb hsched hl hfit (by omega)
    rw [progress_rdb, if_pos (by omega), startLine_eq] at hstep
    obtain ⟨g, hrun, hgot, hacc, hpc, hsub⟩ := ih (s := s.withHost { s.host with
      sub := s.host.sub + 1
      got := (s.host.startLine (.rdb k j)).got ++ [s.gatedByte (k + s.host.sub)]
      reply := .value (readBytes s.gatedByte (k + s.host.sub) 1) }) hwf hb hsched hl hfit
      ((Nat.succ_add_eq_add_succ _ _).trans hn)
    refine ⟨g, (run_succ_of_next hstep _).trans hrun, ?_, hacc, hpc, hsub⟩
    have hrest : ∀ i, k + (s.host.sub + 1) + i = k + s.host.sub + (i + 1) := fun i => by omega
    rw [hgot, startLine_of_sub_pos (Nat.succ_pos _), List.range_succ_eq_map (n := n + 1)]
    simp [hrest]

/-- Settles O46: `run_of_rdb` from the first byte on, where `got` starts empty. -/
theorem readBytesLine : Obligations.ReadBytesLine := by
  intro s k j hb hsched hsub hl hpos hfit hwf
  obtain ⟨n, hn⟩ : ∃ n, countValue s.host j = n + 1 := ⟨countValue s.host j - 1, by omega⟩
  obtain ⟨g, hrun, hgot, hacc, hpc, hsub'⟩ := run_of_rdb (n := n) hwf hb hsched hl hfit (by omega)
  refine ⟨s.withHost g, hn ▸ hrun, rfl, ?_, hacc, hpc, hsub'⟩
  rw [hn]
  refine hgot.trans ?_
  simp [hsub, HostSide.startLine]

end Sys2Proof.Machine

namespace Sys2Proof.Machine

/-! ### An induction over the accesses of a run -/

/-- A property of a state and the accesses still to come, kept by every step that is no reset, holds at the end of a run. -/
theorem run_accesses_induction {P : List Access → State → Prop}
    (hstep : ∀ {s t : State} {as : List Access}, s.resetsNow = false → step s = .next t →
      P (s.accessNow ++ as) s → P as t)
    {m : Nat} {s u : State} (hn : noResetAlong m s) (h : Host.Core.run core m s = .next u)
    (hP : P (accessesAlong m s) s) : P [] u := by
  induction m generalizing s with
  | zero =>
    cases h
    exact hP
  | succ m ih =>
    obtain ⟨v, hv, hrun⟩ := run_succ_next h
    obtain ⟨hn1, hn2⟩ := (noResetAlong_succ hv m).mp hn
    rw [accessesAlong_succ hv] at hP
    exact ih hn2 hrun (hstep hn1 hv hP)

/-! ### The registers of the construction (70_reset_and_hazards.md rule R143) -/

/-- `K[j]`. -/
def keyWord (k : Key) (j : Fin 4) : Word := ![k.k0, k.k1, k.k2, k.k3] j

theorem keyWord_setKeyWord (k : Key) (j i : Fin 4) (v : Word) :
    keyWord (setKeyWord k j v) i = if i = j then v else keyWord k i := by
  fin_cases j <;> fin_cases i <;> rfl

theorem keyWord_injective {k k' : Key} (h : ∀ j, keyWord k j = keyWord k' j) : k = k' := by
  obtain ⟨a0, a1, a2, a3⟩ := k
  obtain ⟨b0, b1, b2, b3⟩ := k'
  obtain rfl : a0 = b0 := h 0
  obtain rfl : a1 = b1 := h 1
  obtain rfl : a2 = b2 := h 2
  obtain rfl : a3 = b3 := h 3
  rfl

/-- The word of a key and a seed that stands in a register of steps 1 and 2 of rule R143. -/
def constructionWord (k : Key) (seed : DWord) : Reg → Option Word
  | .key j => some (keyWord k j)
  | .seedl => some (lowWord seed)
  | .seedh => some (highWord seed)
  | _ => none

/-- The six registers hold the key and the seed, whole. -/
theorem constructionWord_injective {k k' : Key} {seed seed' : DWord}
    (h : ∀ r v, constructionWord k seed r = some v → constructionWord k' seed' r = some v) :
    k' = k ∧ seed' = seed := by
  have hlow : lowWord seed' = lowWord seed := Option.some.inj (h .seedl _ rfl)
  have hhigh : highWord seed' = highWord seed := Option.some.inj (h .seedh _ rfl)
  refine ⟨keyWord_injective fun j => Option.some.inj (h (.key j) _ rfl), ?_⟩
  rw [← concatWords_words seed', hlow, hhigh, concatWords_words]

/-- The accesses of steps 1 and 2 of rule R143, register by register. -/
theorem mem_constructionWrites {c : Config} {k : Key} {seed : DWord} {a : Access} :
    a ∈ constructionWrites c k seed ↔ ∃ r v, constructionWord k seed r = some v ∧ a = regWrite c r v := by
  simp only [constructionWrites, List.mem_cons, List.not_mem_nil, or_false]
  constructor
  · rintro (rfl | rfl | rfl | rfl | rfl | rfl)
    · exact ⟨.key 0, _, rfl, rfl⟩
    · exact ⟨.key 1, _, rfl, rfl⟩
    · exact ⟨.key 2, _, rfl, rfl⟩
    · exact ⟨.key 3, _, rfl, rfl⟩
    · exact ⟨.seedl, _, rfl, rfl⟩
    · exact ⟨.seedh, _, rfl, rfl⟩
  · rintro ⟨r, v, hr, rfl⟩
    cases r with
    | key j =>
      cases hr
      fin_cases j <;> simp [keyWord]
    | seedl | seedh =>
      cases hr
      simp
    | _ => cases hr

/-- Which registers these are depends on no value. -/
theorem constructionWord_isSome {k k' : Key} {seed seed' : DWord} {r : Reg} {v : Word}
    (h : constructionWord k seed r = some v) : ∃ w, constructionWord k' seed' r = some w := by
  cases r with
  | key | seedl | seedh => exact ⟨_, rfl⟩
  | _ => cases h

/-- The register at its own offset. -/
@[simp] theorem Reg.ofOffset_offset (r : Reg) : Reg.ofOffset r.offset = some r := by
  cases r with
  | key j => fin_cases j <;> rfl
  | _ => rfl

/-- While UNKEYED, a write of a construction register sets its word, leaves the others, and goes no further. -/
theorem busWrite_constructionWord {s : State} {r : Reg} {v w : Word} (hp : s.ph = .unkeyed)
    (hr : constructionWord s.key s.seed r = some w) :
    ∃ k x, busWrite (targetAddress s.cfg (.reg r)) .four (v.setWidth 64) s =
        .next { s.answer .ack with key := k, seed := x } ∧
      constructionWord k x r = some v ∧ ∀ i, i ≠ r → constructionWord k x i = constructionWord s.key s.seed i := by
  rw [busWrite_reg r v (by rw [hp]; rfl), writeReg, Reg.ofOffset_offset]
  cases r with
  | key j =>
    refine ⟨setKeyWord s.key j v, s.seed, if_pos hp, by simp [constructionWord, keyWord_setKeyWord], fun i hi => ?_⟩
    cases i <;> simp_all [constructionWord, keyWord_setKeyWord]
  | seedl =>
    refine ⟨s.key, setSeedLow s.seed v, if_pos hp, by simp [constructionWord, setSeedLow], fun i hi => ?_⟩
    cases i <;> simp_all [constructionWord, setSeedLow]
  | seedh =>
    refine ⟨s.key, setSeedHigh s.seed v, if_pos hp, by simp [constructionWord, setSeedHigh], fun i hi => ?_⟩
    cases i <;> simp_all [constructionWord, setSeedHigh]
  | cmd | status | ilen | olen => cases hr

/-! ### The stages of the construction -/

/-- The outputs of a machine no command has completed in since reset, and that has refused none. -/
def State.Clear (s : State) : Prop :=
  s.olen = 0 ∧ s.done = false ∧ s.rej = false ∧ s.err = false ∧ s.ecode = 0

/-- Before INIT: each word of the key and the seed is still to be written, or in place. -/
structure Setup (c : Config) (k : Key) (seed : DWord) (todo : List Access) (s : State) : Prop where
  cfg : s.cfg = c
  phase : s.ph = .unkeyed
  clear : s.Clear
  words : ∀ r v, constructionWord k seed r = some v →
    regWrite c r v ∈ todo ∨ constructionWord s.key s.seed r = some v

/-- INIT is pending, and no poll has answered otherwise. -/
structure InitPending (c : Config) (k : Key) (seed : DWord) (s : State) : Prop where
  cfg : s.cfg = c
  phase : s.ph = .busyInit
  clear : s.Clear
  keyLoaded : s.key = k
  seedLoaded : s.seed = seed
  polled : ∀ v, s.host.reply = .value v → v.getLsbD 1 = true

/-- INIT has completed. -/
structure Loaded (c : Config) (k : Key) (seed : DWord) (s : State) : Prop where
  cfg : s.cfg = c
  phase : s.ph = .idle
  keyLoaded : s.key = k
  seedLoaded : s.seed = seed
  counter : s.ctr = seed
  olen : s.olen = 0
  flags : s.done = true ∧ s.rej = false ∧ s.err = false ∧ s.ecode = 0

/-- A write before INIT: one that rule R143 allows there. -/
def IsSetupAccess (c : Config) (k : Key) (seed : DWord) (a : Access) : Prop :=
  a.writesInput c = true ∨ a ∈ constructionWrites c k seed

/-- Where a run of the construction sequence stands, with the accesses still to come. -/
inductive Constructing (c : Config) (k : Key) (seed : DWord) : List Access → State → Prop where
  | setup {todo polls : List Access} {s : State} (ht : ∀ a ∈ todo, IsSetupAccess c k seed a)
      (hp : ∀ a ∈ polls, a = statusPoll c) (h : Setup c k seed todo s) :
      Constructing c k seed (todo ++ initWrite c :: polls) s
  | pending {polls : List Access} {s : State} (hp : ∀ a ∈ polls, a = statusPoll c) (h : InitPending c k seed s) :
      Constructing c k seed polls s
  | loaded {polls : List Access} {s : State} (hp : ∀ a ∈ polls, a = statusPoll c) (h : Loaded c k seed s) :
      Constructing c k seed polls s

section
variable {c : Config} {k : Key} {seed : DWord} {s t : State}

/-- An access before INIT is a write. -/
theorem IsSetupAccess.not_read {a : Nat} {n : Width} : ¬ IsSetupAccess c k seed (.read a n) := by
  rintro (h | h)
  · cases h
  · obtain ⟨r, v, -, e⟩ := mem_constructionWrites.mp h
    cases e

/-- One write before INIT takes its word off the list of those still to come. -/
theorem Setup.write {a : Nat} {n : Width} {v : DWord} {todo : List Access}
    (h : Setup c k seed (.write a n v :: todo) s) (ha : IsSetupAccess c k seed (.write a n v))
    (hw : busWrite a n v s = .next t) : Setup c k seed todo t := by
  obtain ⟨hcfg, hp, hclear, hwords⟩ := h
  rcases ha with ha | ha
  · obtain ⟨l, b, g, rfl, -⟩ := busWrite_input (hcfg ▸ ha) hw
    refine ⟨hcfg, hp, hclear, fun r w hr => (hwords r w hr).imp_left fun hm => ?_⟩
    refine (List.mem_cons.mp hm).resolve_left fun e => ?_
    have hne : r ≠ .ilen := by rintro rfl; cases hr
    rw [← e, regWrite_writesInput hne] at ha
    cases ha
  · obtain ⟨r, w, hr, e⟩ := mem_constructionWrites.mp ha
    obtain ⟨w', hr'⟩ := constructionWord_isSome (k' := s.key) (seed' := s.seed) hr
    obtain ⟨k', x, hset, hin, hother⟩ := busWrite_constructionWord (v := w) hp hr'
    cases e
    rw [← hcfg, hset] at hw
    obtain rfl := Host.Outcome.next.inj hw
    refine ⟨hcfg, hp, hclear, fun i u hi => ?_⟩
    by_cases hir : i = r
    · subst hir
      obtain rfl : w = u := Option.some.inj (hr.symm.trans hi)
      exact .inr hin
    · refine (hwords i u hi).imp (fun hm => ?_) fun hplace => (hother i hir).trans hplace
      exact (List.mem_cons.mp hm).resolve_left fun e => hir (regWrite_inj.mp e).1

/-- INIT's write while UNKEYED is accepted (40_command_issue_and_init.md rule R72). -/
theorem busWrite_init (hp : s.ph = .unkeyed) :
    busWrite (targetAddress s.cfg (.reg .cmd)) .four ((encode .init).setWidth 64) s =
      .next { (s.answer .ack).clearFlags with ph := .busyInit } := by
  have hp' : (s.answer .ack).ph = issuePhase .init := hp
  have hb : (s.answer .ack).ph.busy = false := by rw [hp', issuePhase_busy]
  have hissue : writeReg s 0x00 (encode .init) = .next (issue .init (s.answer .ack)) := issueWord_encode hb .init
  rw [busWrite_reg (s := s) .cmd _ hb, Reg.offset, hissue, issue_eq_chain, if_neg (not_not.mpr hp')]
  rfl

/-- INIT finds every word in place. -/
theorem Setup.init (h : Setup c k seed [] s)
    (hw : busWrite (targetAddress c (.reg .cmd)) .four ((encode .init).setWidth 64) s = .next t) :
    InitPending c k seed t := by
  obtain ⟨rfl, hp, ⟨holen, -⟩, hwords⟩ := h
  obtain ⟨hkey, hseed⟩ := constructionWord_injective fun r v hr => (hwords r v hr).resolve_left List.not_mem_nil
  obtain rfl := Host.Outcome.next.inj ((busWrite_init hp).symm.trans hw)
  exact ⟨rfl, rfl, ⟨holen, rfl, rfl, rfl, rfl⟩, hkey, hseed, nofun⟩

/-- While INIT is pending, the core completes it. -/
theorem InitPending.complete (h : InitPending c k seed s) (ht : coreTurn s = .next t) : Loaded c k seed t := by
  obtain ⟨hcfg, hp, ⟨-, -, -, herr, hecode⟩, hkey, hseed, -⟩ := h
  rw [coreTurn, hp] at ht
  obtain rfl := Host.Outcome.next.inj ((exec_init_of_pending hp).symm.trans ht)
  exact ⟨hcfg, rfl, hkey, hseed, hseed, rfl, rfl, rfl, herr, hecode⟩

/-- Bit 1 of the answer to a poll is `BUSY` (10_state.md rule R18). -/
theorem status_reply_getLsbD_one (s : State) : (s.status.setWidth 64).getLsbD 1 = s.ph.busy := by
  rw [BitVec.getLsbD_setWidth, status_getLsbD]
  simp

/-- While INIT is pending, a poll answers `BUSY = 1`. -/
theorem readReply_status_of_busy (hb : s.ph.busy = true) {v : DWord}
    (h : readReply s .four (classify s true (targetAddress s.cfg (.reg .status)) .four) = .value v) :
    v.getLsbD 1 = true := by
  rw [targetAddress, Reg.offset, classify_statusRead] at h
  obtain rfl : s.status.setWidth 64 = v := BusReply.value.inj h
  rw [status_reply_getLsbD_one, hb]

/-- A step without an access keeps the stage, unless it is the core's, which completes INIT. -/
theorem Constructing.of_no_access {as : List Access} (h : Constructing c k seed as s)
    (ht : (∃ g, t = s.popSched.withHost g ∧ g.reply = s.host.reply) ∨
      (s.ph.busy = true ∧ coreTurn s.popSched = .next t)) : Constructing c k seed as t := by
  rcases ht with ⟨g, rfl, hg⟩ | ⟨hb, ht⟩
  · cases h with
    | setup ht hp h => exact .setup ht hp { h with }
    | pending hp h => exact .pending hp { h with polled := fun v hv => h.polled v (hg.symm.trans hv) }
    | loaded hp h => exact .loaded hp { h with }
  · cases h with
    | setup ht hp h => simp [h.phase, Phase.busy] at hb
    | pending hp h => exact .loaded hp (InitPending.complete (s := s.popSched) { h with } ht)
    | loaded hp h => simp [h.phase, Phase.busy] at hb

/-- A write of the sequence: one before INIT, or INIT. -/
theorem Constructing.of_write {a : Nat} {n : Width} {v : DWord} {as : List Access}
    (h : Constructing c k seed (.write a n v :: as) s) (ht : busWrite a n v s = .next t) :
    Constructing c k seed as t := by
  have hpoll : ¬ ∀ b ∈ Access.write a n v :: as, b = statusPoll c := fun hp => by
    cases hp _ List.mem_cons_self
  generalize hbs : Access.write a n v :: as = bs at h hpoll
  cases h with
  | setup ha hp h =>
    rename_i todo polls
    cases todo with
    | nil =>
      cases hbs
      exact .pending hp (h.init ht)
    | cons b todo =>
      cases hbs
      exact .setup (fun b hb => ha b (List.mem_cons_of_mem _ hb)) hp (h.write (ha _ List.mem_cons_self) ht)
  | pending hp h => exact absurd hp hpoll
  | loaded hp h => exact absurd hp hpoll

/-- A read of the sequence is a poll; while INIT is pending it answers `BUSY = 1`. -/
theorem Constructing.of_read {a : Nat} {n : Width} {g : HostSide} {as : List Access}
    (h : Constructing c k seed (.read a n :: as) s) (hg : g.reply = readReply s n (classify s true a n)) :
    Constructing c k seed as (s.withHost g) := by
  generalize hbs : Access.read a n :: as = bs at h
  cases h with
  | setup ha hp h =>
    rename_i todo polls
    cases todo with
    | nil => cases hbs
    | cons b todo =>
      cases hbs
      exact absurd (ha _ List.mem_cons_self) IsSetupAccess.not_read
  | pending hp h =>
    subst hbs
    refine .pending (fun b hb => hp b (List.mem_cons_of_mem _ hb)) { h with polled := fun v hv => ?_ }
    obtain ⟨rfl, rfl⟩ := Access.read.inj (hp _ List.mem_cons_self)
    have hb : s.ph.busy = true := by rw [h.phase]; rfl
    exact readReply_status_of_busy hb (h.cfg ▸ hg.symm.trans hv)
  | loaded hp h =>
    subst hbs
    exact .loaded (fun b hb => hp b (List.mem_cons_of_mem _ hb)) { h with }

theorem progress_reply (h : HostSide) (l : Line) : (h.progress l).reply = h.reply := by
  unfold HostSide.progress
  rw [startLine_eq]
  split_ifs <;> rfl

/-- Every step that is no reset goes on in the sequence. -/
theorem Constructing.of_step {as : List Access} (hn : s.resetsNow = false) (hs : step s = .next t)
    (h : Constructing c k seed (s.accessNow ++ as) s) : Constructing c k seed as t := by
  have past (l : Line) {as : List Access} (h : Constructing c k seed as s) :
      Constructing c k seed as (s.popSched.hostProgress l) :=
    h.of_no_access (.inl ⟨_, rfl, progress_reply _ _⟩)
  rcases step_access hn hs with ⟨ha, ht⟩ | ⟨l, a, n, v, ha, ht⟩ | ⟨l, a, n, ha, g, rfl, hg⟩ <;> rw [ha] at h
  · exact h.of_no_access ht
  · exact (past l h).of_write ht
  · exact (past l h).of_read hg

/-- `ILEN` and `IBUF` writes keep what INIT has loaded. -/
theorem Loaded.of_step {as : List Access} (hn : s.resetsNow = false) (hs : step s = .next t)
    (h : (∀ a ∈ s.accessNow ++ as, a.writesInput c = true) ∧ Loaded c k seed s) :
    (∀ a ∈ as, a.writesInput c = true) ∧ Loaded c k seed t := by
  obtain ⟨has, h⟩ := h
  refine ⟨fun a ha => has a (List.mem_append_right _ ha), ?_⟩
  rcases step_access hn hs with ⟨-, ⟨g, rfl, -⟩ | ⟨hb, -⟩⟩ | ⟨l, a, n, v, ha, ht⟩ | ⟨l, a, n, ha, -⟩
  · exact { h with }
  · simp [h.phase, Phase.busy] at hb
  · have hin : (Access.write a n v).writesInput s.cfg = true := h.cfg ▸ has _ (by simp [ha])
    obtain ⟨i, b, g, rfl, -⟩ := busWrite_input (s := s.popSched.hostProgress l) hin ht
    exact { h with }
  · exact absurd (has (.read a n) (by simp [ha])) nofun

/-- After reset every word is still to be written. -/
theorem ConstructionRun.start {m : Nat} {u : State} (h : ConstructionRun k seed m s u) :
    Constructing s.cfg k seed (accessesAlong m s) s := by
  obtain ⟨setup, polls, e, hperm, -, hpolls⟩ := h.accesses
  have hmem {a : Access} : a ∈ setup ∧ a.writesInput s.cfg = false ↔ a ∈ constructionWrites s.cfg k seed := by
    rw [← hperm.mem_iff]
    simp
  have hreset := h.afterReset
  rw [e]
  refine .setup (fun a ha => ?_) hpolls ⟨rfl, (congrArg State.ph hreset).symm, ?_, fun r v hr => .inl ?_⟩
  · rcases hw : a.writesInput s.cfg with _ | _
    · exact .inr (hmem.mp ⟨ha, hw⟩)
    · exact .inl hw
  · exact ⟨(congrArg State.olen hreset).symm, (congrArg State.done hreset).symm, (congrArg State.rej hreset).symm,
      (congrArg State.err hreset).symm, (congrArg State.ecode hreset).symm⟩
  · exact (hmem.mpr (mem_constructionWrites.mpr ⟨r, v, hr, rfl⟩)).1

/-- The last poll's `BUSY = 0` says that INIT has completed. -/
theorem ConstructionRun.loaded {m : Nat} {u : State} (h : ConstructionRun k seed m s u) :
    Loaded s.cfg k seed u := by
  have hend := run_accesses_induction (P := Constructing s.cfg k seed) Constructing.of_step h.noReset h.run h.start
  obtain ⟨v, hreply, hv⟩ := h.polled
  generalize hbs : ([] : List Access) = bs at hend
  cases hend with
  | setup => simp at hbs
  | pending _ hp => exact absurd (hp.polled v hreply) (by rw [hv]; decide)
  | loaded _ hl => exact hl

theorem Loaded.status (h : Loaded c k seed s) : s.status = 0x00000005 := by
  obtain ⟨hdone, hrej, herr, hecode⟩ := h.flags
  rw [State.status, h.phase, hdone, hrej, herr, hecode]
  decide

end

/-- Settles O57: the stages of the sequence, in any order of its writes and under every schedule, end in `Loaded`, which
input writes keep. -/
theorem constructionSequenceConstructs : Obligations.ConstructionSequenceConstructs := by
  intro k seed m j s u t hc hi
  have hu := hc.loaded
  obtain ⟨-, ht⟩ := run_accesses_induction
    (P := fun as s' => (∀ a ∈ as, a.writesInput s.cfg = true) ∧ Loaded s.cfg k seed s')
    Loaded.of_step hi.noReset hi.run ⟨hu.cfg ▸ hi.accesses, hu⟩
  exact ⟨⟨ht.phase, ht.keyLoaded, ht.counter, ht.olen, ht.flags, m, j, s, u, hc, hi⟩, ht.status, ht.seedLoaded,
    ht.cfg⟩

end Sys2Proof.Machine

namespace Sys2Proof.Machine

/-! ### Runs with their accesses -/

/-- A run of some steps without a reset, with the accesses the host makes in it. -/
inductive Trace : Nat → List Access → State → State → Prop where
  | nil (s : State) : Trace 0 [] s s
  | cons {n : Nat} {as : List Access} {s u t : State} (hn : s.resetsNow = false) (hs : step s = .next u)
      (h : Trace n as u t) : Trace (n + 1) (s.accessNow ++ as) s t

namespace Trace

variable {n m : Nat} {as bs : List Access} {s t u : State}

theorem single (hn : s.resetsNow = false) (hs : step s = .next t) (ha : s.accessNow = as) : Trace 1 as s t := by
  have h := cons hn hs (nil t)
  rwa [List.append_nil, ha] at h

theorem append (h : Trace n as s t) (h' : Trace m bs t u) : Trace (n + m) (as ++ bs) s u := by
  induction h with
  | nil => simpa using h'
  | cons hn hs _ ih =>
    rw [Nat.succ_add, List.append_assoc]
    exact cons hn hs (ih h')

/-- What a trace says in the model's terms. -/
theorem sound (h : Trace n as s t) :
    noResetAlong n s ∧ Host.Core.run core n s = .next t ∧ accessesAlong n s = as := by
  induction h with
  | nil => exact ⟨trivial, rfl, rfl⟩
  | cons hn hs _ ih =>
    obtain ⟨ih1, ih2, ih3⟩ := ih
    exact ⟨(noResetAlong_succ hs _).mpr ⟨hn, ih1⟩, (run_succ_of_next hs _).trans ih2,
      (accessesAlong_succ hs _).trans (by rw [ih3])⟩

end Trace

/-! ### The lines of `CONSTRUCT` in the default order (30_encoding.md rule R65) -/

/-- The host stands at line `i` of a script, nothing is scheduled, and the machine is in a phase. -/
structure Standing (c : Config) (lines : List Line) (i : Nat) (p : Phase) (s : State) : Prop where
  cfg : s.cfg = c
  sched : s.sched = []
  script : s.host.script = lines
  pc : s.host.pc = i
  phase : s.ph = p

namespace Standing

variable {c : Config} {lines : List Line} {i : Nat} {p : Phase} {s t : State}

theorem line (h : Standing c lines i p s) {l : Line} (hl : lines[i]? = some l) :
    s.host.script[s.host.pc]? = some l := by rw [h.script, h.pc, hl]

/-- While not busy the next step is the host's turn. -/
theorem trace_of_hostTurn (h : Standing c lines i p s) (hb : p.busy = false) {l : Line} (hl : lines[i]? = some l)
    (ht : hostTurn s = .next t) : Trace 1 (lineAccess s.cfg s.host l).toList s t := by
  have hb' : s.ph.busy = false := by rw [h.phase, hb]
  have ha := nextAgent_of_not_busy h.sched hb'
  refine .single (by simp [State.resetsNow, ha]) ((step_of_not_busy h.sched hb').trans ht) ?_
  simp [State.accessNow, ha, nextAccess, h.line hl]

/-- A key or seed line while UNKEYED makes its write. -/
theorem trace_of_write (h : Standing c lines i .unkeyed s) {r : Reg} {v w : Word}
    (hr : constructionWord s.key s.seed r = some w) (hl : lines[i]? = some (.wr (.reg r) v)) :
    ∃ t, Trace 1 [regWrite c r v] s t ∧ Standing c lines (i + 1) .unkeyed t := by
  obtain ⟨k, x, hw, -⟩ := busWrite_constructionWord (s := s.hostProgress (.wr (.reg r) v)) (v := v) h.phase hr
  have ht := (hostTurn_of_write (h.line hl) rfl).trans hw
  obtain rfl := h.cfg
  exact ⟨_, h.trace_of_hostTurn rfl hl ht, rfl, h.sched, h.script, congrArg (· + 1) h.pc, h.phase⟩

/-- Key and seed lines one after the other. -/
theorem trace_of_writes (h : Standing c lines i .unkeyed s) {ws : List (Reg × Word)} {rest : List Line}
    (hr : ∀ w ∈ ws, ∃ v, constructionWord s.key s.seed w.1 = some v)
    (hl : lines.drop i = ws.map (fun w => .wr (.reg w.1) w.2) ++ rest) :
    ∃ t, Trace ws.length (ws.map fun w => regWrite c w.1 w.2) s t ∧
      Standing c lines (i + ws.length) .unkeyed t := by
  induction ws generalizing s i with
  | nil => exact ⟨s, .nil s, h⟩
  | cons w ws ih =>
    have hline : lines[i]? = some (.wr (.reg w.1) w.2) := by
      rw [← List.head?_drop, hl]
      rfl
    have hrest : lines.drop (i + 1) = ws.map (fun w => .wr (.reg w.1) w.2) ++ rest := by
      rw [← List.tail_drop, hl]
      rfl
    obtain ⟨v, hv⟩ := hr w List.mem_cons_self
    obtain ⟨u, hsu, hu⟩ := h.trace_of_write hv hline
    obtain ⟨t, hut, ht⟩ := ih hu (fun w' hw' => by
      obtain ⟨v', hv'⟩ := hr w' (List.mem_cons_of_mem _ hw')
      exact constructionWord_isSome hv') hrest
    refine ⟨t, ?_, ?_⟩
    · rw [List.length_cons, Nat.add_comm ws.length 1]
      exact hsu.append hut
    · rwa [List.length_cons, Nat.add_comm ws.length 1, ← Nat.add_assoc]

/-- The INIT line while UNKEYED enters INIT's busy phase. -/
theorem trace_of_init (h : Standing c lines i .unkeyed s) (hl : lines[i]? = some (.cmd .init)) :
    ∃ t, Trace 1 [initWrite c] s t ∧ Standing c lines (i + 1) .busyInit t := by
  have ht := (hostTurn_of_write (h.line hl) rfl).trans (busWrite_init (s := s.hostProgress (.cmd .init)) h.phase)
  obtain rfl := h.cfg
  exact ⟨_, h.trace_of_hostTurn rfl hl ht, rfl, h.sched, h.script, congrArg (· + 1) h.pc, rfl⟩

/-- With nothing scheduled the core completes a pending INIT at once. -/
theorem trace_of_completion (h : Standing c lines i .busyInit s) :
    ∃ t, Trace 1 [] s t ∧ Standing c lines i .idle t := by
  have ha : s.nextAgent = .core := by simp [State.nextAgent, h.sched, h.phase, Phase.busy]
  have hs := ((stepCompletesPendingCommand s ha).1 .init h.phase).trans (exec_init_of_pending (s := s.popSched) h.phase)
  exact ⟨_, .single (by simp [State.resetsNow, ha]) hs (by simp [State.accessNow, ha]), h.cfg,
    congrArg List.tail h.sched, h.script, h.pc, rfl⟩

/-- A label line changes nothing. -/
theorem trace_of_label (h : Standing c lines i .idle s) {label : Nat} (hl : lines[i]? = some (.label label)) :
    ∃ t, Trace 1 [] s t ∧ Standing c lines (i + 1) .idle t :=
  ⟨_, h.trace_of_hostTurn rfl hl (hostTurn_of_silent (h.line hl) rfl), h.cfg, h.sched, h.script,
    congrArg (· + 1) h.pc, h.phase⟩

/-- A poll puts the view into `acc`, also as the bus's answer. -/
theorem trace_of_poll (h : Standing c lines i .idle s) (hl : lines[i]? = some (.rd (.reg .status))) :
    ∃ t, Trace 1 [statusPoll c] s t ∧ Standing c lines (i + 1) .idle t ∧ t.host.acc = t.status ∧
      t.host.reply = .value (t.status.setWidth 64) := by
  obtain rfl := h.cfg
  exact ⟨_, h.trace_of_hostTurn rfl hl (hostTurn_of_readStatus (h.line hl)),
    ⟨rfl, h.sched, h.script, congrArg (· + 1) h.pc, h.phase⟩, rfl, rfl⟩

/-- A jump whose bits of `acc` are clear is not taken. -/
theorem trace_of_jset (h : Standing c lines i .idle s) {mask : Word} {label : Nat}
    (hl : lines[i]? = some (.jset mask label)) (hacc : s.host.acc &&& mask = 0) :
    ∃ t, Trace 1 [] s t ∧ Standing c lines (i + 1) .idle t ∧ t.host.acc = s.host.acc := by
  have ht : hostTurn s = .next { s with host := s.host.nextLine } := by
    rw [hostTurn_of_jset (h.line hl), jumpIf, hacc]
    rfl
  exact ⟨_, h.trace_of_hostTurn rfl hl ht, ⟨h.cfg, h.sched, h.script, congrArg (· + 1) h.pc, h.phase⟩, rfl⟩

end Standing

/-- The registers and words of steps 1 and 2 of rule R143, in the order of `LOADKEY` and `LOADSEED`. -/
def constructionRegs (k : Key) (seed : DWord) : List (Reg × Word) :=
  [(.key 0, k.k0), (.key 1, k.k1), (.key 2, k.k2), (.key 3, k.k3), (.seedl, lowWord seed), (.seedh, highWord seed)]

/-- The script's lines up to the poll are the sequence of rule R143. -/
theorem construct_reaches_poll {s : State} {label : Nat} {k : Key} {seed : DWord} {rest : List Line}
    (hreset : s.AfterReset) (hsched : s.sched = [])
    (hscript : s.host.script = pseudoConstruct label k seed ++ rest) (hpc : s.host.pc = 0) :
    ∃ t, ConstructionRun k seed 10 s t ∧
      Standing s.cfg (pseudoConstruct label k seed ++ rest) 9 .idle t ∧ t.host.acc = t.status := by
  have h0 : Standing s.cfg (pseudoConstruct label k seed ++ rest) 0 .unkeyed s :=
    ⟨rfl, hsched, hscript, hpc, (congrArg State.ph hreset).symm⟩
  obtain ⟨s1, t1, h1⟩ :=
    h0.trace_of_writes (ws := constructionRegs k seed) (by simp [constructionRegs, constructionWord]) rfl
  obtain ⟨s2, t2, h2⟩ := h1.trace_of_init rfl
  obtain ⟨s3, t3, h3⟩ := h2.trace_of_completion
  obtain ⟨s4, t4, h4⟩ := h3.trace_of_label rfl
  obtain ⟨s5, t5, h5, hacc, hreply⟩ := h4.trace_of_poll rfl
  obtain ⟨hn, hrun, haccesses⟩ := (t1.append (t2.append (t3.append (t4.append t5)))).sound
  have hwrites : ∀ a ∈ constructionWrites s.cfg k seed, (!a.writesInput s.cfg) = true := by
    intro a ha
    obtain ⟨r, v, hr, rfl⟩ := mem_constructionWrites.mp ha
    rw [regWrite_writesInput (by rintro rfl; cases hr)]
    rfl
  refine ⟨s5, ⟨hreset, hn, hrun, ?_, ?_⟩, h5, hacc⟩
  · exact ⟨constructionWrites s.cfg k seed, [statusPoll s.cfg], haccesses,
      List.Perm.of_eq (List.filter_eq_self.mpr hwrites), by simp, by simp⟩
  · exact ⟨_, hreply, by rw [status_reply_getLsbD_one, h5.phase]; rfl⟩

/-- Settles O47: the lines up to the poll construct, the poll reads `STATUS = 5`, and the jump back is not taken. -/
theorem constructScriptConstructs : Obligations.ConstructScriptConstructs := by
  intro s label k seed rest hreset hsched hscript hpc
  obtain ⟨u, hc, hu, hacc⟩ := construct_reaches_poll hreset hsched hscript hpc
  rw [hc.loaded.status] at hacc
  obtain ⟨t, htrace, ht, hkept⟩ := hu.trace_of_jset (mask := 0x2) rfl (by rw [hacc]; decide)
  obtain ⟨hn, hrun, haccesses⟩ := htrace.sound
  obtain ⟨hconstructed, hstatus, -⟩ :=
    constructionSequenceConstructs k seed 10 1 s u t hc ⟨hn, hrun, by simp [haccesses]⟩
  exact ⟨t, (run_add hc.run 1).trans hrun, hconstructed, hstatus, hkept.trans hacc, ht.pc⟩

end Sys2Proof.Machine
